-- ==== Sys2Proof/Word.lean ====
section
/-! DEFINITION. The byte type of the spec's values (00_scope.md R12) and a list of zero bytes. -/

namespace Sys2Proof

/-- R12: "A byte is an unsigned 8-bit value in 0..255". -/
abbrev Byte := BitVec 8

/-- The byte list `[0x00] * n` of the spec's pseudocode. -/
def zeros (n : Nat) : List Byte := List.replicate n 0

end Sys2Proof
end

