-- ==== Sys2Proof/Syntax.lean ====
section
/-! DEFINITION. The 21 operations of 30_encoding.md R92, one constructor per row of opcode_table.json, with the operand
kinds of R91. Every operand is an integer or a list of integers: R91 gives each kind its domain and a rejection outside
it, and a value outside the serial range "exists only in the textual form" (R95). -/

namespace Sys2Proof

inductive Instr where
  /-- 0x01 RDREG a (41_register_port.md R147). -/
  | rdreg (a : Int)
  /-- 0x02 WRREG a, v (41_register_port.md R146). -/
  | wrreg (a v : Int)
  /-- 0x03 SETBITS a, m (41_register_port.md R148). -/
  | setbits (a m : Int)
  /-- 0x04 CLRBITS a, m (41_register_port.md R149). -/
  | clrbits (a m : Int)
  /-- 0x10 CALCCRC buf (42_crc_engine.md R165). -/
  | calccrc (buf : List Int)
  /-- 0x11 EXEC cmd, out (43_command_channel.md R195). -/
  | exec (cmd : Int) (out : List Int)
  /-- 0x20 MKADDR s, k (40_value_types.md R120). -/
  | mkaddr (s k : Int)
  /-- 0x21 MKUID uid (40_value_types.md R124). -/
  | mkuid (uid : List Int)
  /-- 0x22 MKKEY key (40_value_types.md R122). -/
  | mkkey (key : List Int)
  /-- 0x23 MKDATA data (40_value_types.md R123). -/
  | mkdata (data : List Int)
  /-- 0x30 REQIDL (44_discovery.md R221). -/
  | reqidl
  /-- 0x31 REQALL (44_discovery.md R222). -/
  | reqall
  /-- 0x32 ANTICOLL (44_discovery.md R225). -/
  | anticoll
  /-- 0x33 SELECT uid (44_discovery.md R230). -/
  | select (uid : List Int)
  /-- 0x40 AUTHA blk, key, uid (45_access.md R252). -/
  | autha (blk : Int) (key uid : List Int)
  /-- 0x41 AUTHB blk, key, uid (45_access.md R253). -/
  | authb (blk : Int) (key uid : List Int)
  /-- 0x42 READ blk (45_access.md R260). -/
  | read (blk : Int)
  /-- 0x43 WRITE blk, data (45_access.md R270). -/
  | write (blk : Int) (data : List Int)
  /-- 0x44 STOPCRYPTO (45_access.md R280). -/
  | stopcrypto
  /-- 0x50 DUMPA key, uid (45_access.md R291). -/
  | dumpa (key uid : List Int)
  /-- 0x51 DUMPB key, uid (45_access.md R292). -/
  | dumpb (key uid : List Int)
deriving DecidableEq, Repr

end Sys2Proof
end

