-- ==== Sys2Proof/WellFormed.lean ====
section
/-! DEFINITION. Which operations have a serial form (30_encoding.md R95): every byte operand and list element in 0..255,
s and k in -128..127, every list at most 255 long. -/

namespace Sys2Proof

/-- The value of an unsigned serial byte: 0..255 (R95). -/
def fitsByte (x : Int) : Bool := decide (0 ≤ x) && decide (x ≤ 255)

/-- The value of a two's-complement serial byte: -128..127 (R95). -/
def fitsSigned (x : Int) : Bool := decide (-128 ≤ x) && decide (x ≤ 127)

/-- A list with a serial form: a length byte N (0..255) and N bytes (R95). -/
def fitsList (xs : List Int) : Bool := decide (xs.length ≤ 255) && xs.all fitsByte

/-- The operation has a serial form: "An operand outside the serial range cannot be encoded" (R95). -/
def Instr.wellFormed : Instr → Bool
  | .rdreg a => fitsByte a
  | .wrreg a v => fitsByte a && fitsByte v
  | .setbits a m => fitsByte a && fitsByte m
  | .clrbits a m => fitsByte a && fitsByte m
  | .calccrc buf => fitsList buf
  | .exec cmd out => fitsByte cmd && fitsList out
  | .mkaddr s k => fitsSigned s && fitsSigned k
  | .mkuid uid => fitsList uid
  | .mkkey key => fitsList key
  | .mkdata data => fitsList data
  | .reqidl => true
  | .reqall => true
  | .anticoll => true
  | .select uid => fitsList uid
  | .autha blk key uid => fitsByte blk && fitsList key && fitsList uid
  | .authb blk key uid => fitsByte blk && fitsList key && fitsList uid
  | .read blk => fitsByte blk
  | .write blk data => fitsByte blk && fitsList data
  | .stopcrypto => true
  | .dumpa key uid => fitsList key && fitsList uid
  | .dumpb key uid => fitsList key && fitsList uid

end Sys2Proof
end

