-- ==== Sys2Proof/Decode.lean ====
section
/-! DEFINITION. The serial form of an operation (30_encoding.md R90 to R95): the decoder, total on every byte list, then
the encoder. Decoding gives an operation with the bytes after it, a reserved descriptor (R93), or a report that the bytes
end before the operation does (log 14). -/

namespace Sys2Proof

/-- What a byte list on the serial interface holds at its front. -/
inductive Decoded where
  /-- One operation of R92, and the bytes after it. -/
  | op (i : Instr) (rest : List Byte)
  /-- A reserved OPC value (R93): the block rejects it with E_OPC. -/
  | reserved (opc : Byte)
  /-- The bytes end before the operation does (log 14). -/
  | incomplete
deriving DecidableEq, Repr

/-- An unsigned serial byte as an operand: "Operands are taken as given, with no extension" (R95). -/
def byteVal (b : Byte) : Int := Int.ofNat b.toNat

/-- `sext_8(byte)`: s and k are read as two's complement (R95). -/
def signedVal (b : Byte) : Int := b.toInt

/-- One unsigned byte operand, passed on to `k`. -/
def takeByte (bs : List Byte) (k : Int → List Byte → Decoded) : Decoded :=
  match bs with
  | [] => .incomplete
  | b :: rest => k (byteVal b) rest

/-- One two's-complement byte operand, passed on to `k`. -/
def takeSigned (bs : List Byte) (k : Int → List Byte → Decoded) : Decoded :=
  match bs with
  | [] => .incomplete
  | b :: rest => k (signedVal b) rest

/-- One list operand, "a length byte N (0..255) followed by N bytes" (R95), passed on to `k`. -/
def takeList (bs : List Byte) (k : List Int → List Byte → Decoded) : Decoded :=
  match bs with
  | [] => .incomplete
  | n :: rest =>
    if n.toNat ≤ rest.length then k ((rest.take n.toNat).map byteVal) (rest.drop n.toNat) else .incomplete

/-- The operands of the operation whose descriptor is `opc` (R92), in syntax order. "Every OPC value not in this table is
reserved". -/
def decodeOperands (opc : Nat) (bs : List Byte) : Decoded :=
  match opc with
  | 0x01 => takeByte bs fun a r => .op (.rdreg a) r
  | 0x02 => takeByte bs fun a r => takeByte r fun v r => .op (.wrreg a v) r
  | 0x03 => takeByte bs fun a r => takeByte r fun m r => .op (.setbits a m) r
  | 0x04 => takeByte bs fun a r => takeByte r fun m r => .op (.clrbits a m) r
  | 0x10 => takeList bs fun buf r => .op (.calccrc buf) r
  | 0x11 => takeByte bs fun cmd r => takeList r fun out r => .op (.exec cmd out) r
  | 0x20 => takeSigned bs fun s r => takeSigned r fun k r => .op (.mkaddr s k) r
  | 0x21 => takeList bs fun uid r => .op (.mkuid uid) r
  | 0x22 => takeList bs fun key r => .op (.mkkey key) r
  | 0x23 => takeList bs fun data r => .op (.mkdata data) r
  | 0x30 => .op .reqidl bs
  | 0x31 => .op .reqall bs
  | 0x32 => .op .anticoll bs
  | 0x33 => takeList bs fun uid r => .op (.select uid) r
  | 0x40 => takeByte bs fun blk r => takeList r fun key r => takeList r fun uid r => .op (.autha blk key uid) r
  | 0x41 => takeByte bs fun blk r => takeList r fun key r => takeList r fun uid r => .op (.authb blk key uid) r
  | 0x42 => takeByte bs fun blk r => .op (.read blk) r
  | 0x43 => takeByte bs fun blk r => takeList r fun data r => .op (.write blk data) r
  | 0x44 => .op .stopcrypto bs
  | 0x50 => takeList bs fun key r => takeList r fun uid r => .op (.dumpa key uid) r
  | 0x51 => takeList bs fun key r => takeList r fun uid r => .op (.dumpb key uid) r
  | n => .reserved (BitVec.ofNat 8 n)

/-- The operation at the front of a byte list: the whole descriptor byte selects it (R90, R92). -/
def decode (bs : List Byte) : Decoded :=
  match bs with
  | [] => .incomplete
  | opc :: rest => decodeOperands opc.toNat rest

/-- The descriptor byte OPC of each operation (R92). -/
def Instr.opcode : Instr → Byte
  | .rdreg _ => 0x01
  | .wrreg _ _ => 0x02
  | .setbits _ _ => 0x03
  | .clrbits _ _ => 0x04
  | .calccrc _ => 0x10
  | .exec _ _ => 0x11
  | .mkaddr _ _ => 0x20
  | .mkuid _ => 0x21
  | .mkkey _ => 0x22
  | .mkdata _ => 0x23
  | .reqidl => 0x30
  | .reqall => 0x31
  | .anticoll => 0x32
  | .select _ => 0x33
  | .autha _ _ _ => 0x40
  | .authb _ _ _ => 0x41
  | .read _ => 0x42
  | .write _ _ => 0x43
  | .stopcrypto => 0x44
  | .dumpa _ _ => 0x50
  | .dumpb _ _ => 0x51

/-- R90: the operation group, bits 7:4 of OPC. -/
def opcodeGrp (opc : Byte) : Nat := opc.toNat / 16

/-- R90: the function within the group, bits 3:0 of OPC. -/
def opcodeFn (opc : Byte) : Nat := opc.toNat % 16

/-- The serial byte of an integer operand, in two's complement for a negative one (R95). -/
def byteOf (x : Int) : Byte := BitVec.ofInt 8 x

/-- The serial form of a list operand: its length byte, then its bytes (R95). -/
def encodeList (xs : List Int) : List Byte := BitVec.ofNat 8 xs.length :: xs.map byteOf

/-- The serial bytes after OPC, in syntax order (R95). -/
def encodeOperands : Instr → List Byte
  | .rdreg a => [byteOf a]
  | .wrreg a v => [byteOf a, byteOf v]
  | .setbits a m => [byteOf a, byteOf m]
  | .clrbits a m => [byteOf a, byteOf m]
  | .calccrc buf => encodeList buf
  | .exec cmd out => byteOf cmd :: encodeList out
  | .mkaddr s k => [byteOf s, byteOf k]
  | .mkuid uid => encodeList uid
  | .mkkey key => encodeList key
  | .mkdata data => encodeList data
  | .reqidl => []
  | .reqall => []
  | .anticoll => []
  | .select uid => encodeList uid
  | .autha blk key uid => byteOf blk :: (encodeList key ++ encodeList uid)
  | .authb blk key uid => byteOf blk :: (encodeList key ++ encodeList uid)
  | .read blk => [byteOf blk]
  | .write blk data => byteOf blk :: encodeList data
  | .stopcrypto => []
  | .dumpa key uid => encodeList key ++ encodeList uid
  | .dumpb key uid => encodeList key ++ encodeList uid

/-- The serial form of an operation: "OPC followed by its operands in syntax order" (R95). -/
def encode (i : Instr) : List Byte := i.opcode :: encodeOperands i

/-- The longest serial form: OPC, one byte operand and two lists of 255 bytes with their length bytes (R95). -/
def longestSerial : Nat := 514

/-- The bytes of an operation whose bits are `w`, first byte in the least significant bits, with zero bytes above them up
to the longest serial form (log 22). -/
def serialBytes (nbits w : Nat) : List Byte :=
  (List.range (nbits / 8)).map (fun n => BitVec.ofNat 8 (w / 2 ^ (8 * n))) ++ zeros (longestSerial - nbits / 8)

/-- The operation that `decode` reads from the bits `w`, numbered as opcode_table.json numbers them. -/
def decodeTableWord (nbits w : Nat) : Option Instr :=
  match decode (serialBytes nbits w) with
  | .op i _ => some i
  | .reserved _ => none
  | .incomplete => none

end Sys2Proof
end

