-- ==== Sys2Proof/Config.lean ====
section
/-! DEFINITION. The implementation parameters of 00_scope.md R10 and the free values of the environment.
Every row is a field of `Params`, which every statement takes as an argument (log 4); the rows the source fixes, but for
the two poll bounds, have the source's value as their only legal one (log 5). -/

namespace Sys2Proof

/-- R10 LEVEL_POLICY: how a FIFO level byte ≥ 0x80 is read (43_command_channel.md R190). -/
inductive LevelPolicy where
  | unsigned
  | mask7
deriving DecidableEq, Repr

/-- R10 AUTH_GRANULARITY: what "the block that was authenticated" matches (45_access.md R255). -/
inductive AuthGranularity where
  | block
  | sector
deriving DecidableEq, Repr

/-- R10, the REG_* rows: the chip register addresses the block uses. -/
structure ChipRegs where
  command     : Nat := 0x01
  comIEn      : Nat := 0x02
  comIrq      : Nat := 0x04
  divIrq      : Nat := 0x05
  error       : Nat := 0x06
  status2     : Nat := 0x08
  fifoData    : Nat := 0x09
  fifoLevel   : Nat := 0x0A
  control     : Nat := 0x0C
  bitFraming  : Nat := 0x0D
  crcResultM  : Nat := 0x21
  crcResultL  : Nat := 0x22
deriving DecidableEq, Repr

/-- R10, the mask rows. Their type is a byte, so no mask is wider than 8 bits (R11, log 7). -/
structure ChipMasks where
  irqInv      : Byte := 0x80
  comIrqSet1  : Byte := 0x80
  fifoFlush   : Byte := 0x80
  startSend   : Byte := 0x80
  crcIrq      : Byte := 0x04
  errMask     : Byte := 0x1B
  pollStop    : Byte := 0x01
  timerBit    : Byte := 0x01
  crypto1On   : Byte := 0x08
  rxLastBits  : Byte := 0x07
  authIrqEn   : Byte := 0x12
  authWait    : Byte := 0x10
  trxIrqEn    : Byte := 0x77
  trxWait     : Byte := 0x30
deriving DecidableEq, Repr

/-- R10, the CMD_* rows: chip command codes (30_encoding.md R98). -/
structure ChipCmds where
  idle        : Byte := 0x00
  calcCrc     : Byte := 0x03
  transceive  : Byte := 0x0C
  authent     : Byte := 0x0E
deriving DecidableEq, Repr

/-- R10, the PICC_* and NVB_* rows: the card command bytes of the frames (30_encoding.md R99 to R105). -/
structure CardBytes where
  reqIdl      : Byte := 0x26
  reqAll      : Byte := 0x52
  antiColl    : Byte := 0x93
  nvbAntiColl : Byte := 0x20
  select      : Byte := 0x93
  nvbSelect   : Byte := 0x70
  auth1A      : Byte := 0x60
  auth1B      : Byte := 0x61
  read        : Byte := 0x30
  write       : Byte := 0xA0
deriving DecidableEq, Repr

/-- R10, FRAMING_REQ and FRAMING_FULL. -/
structure FramingValues where
  req         : Byte := 0x07
  full        : Byte := 0x00
deriving DecidableEq, Repr

/-- A function from register addresses to address bytes, as plain data (log 6): in the form
`((a << shift) & mask) | flag` of the defaults, or listed address by address, so that every function on
0..REG_ADDR_MAX is one. -/
inductive BusAddr where
  | shifted (shift : Nat) (mask flag : Byte)
  | listed (bytes : List Byte)
deriving DecidableEq, Repr

/-- R10, BUS_WRITE_ADDR, BUS_READ_ADDR and BUS_DUMMY: two functions, each an argument of its own, and a byte. -/
structure BusForm where
  writeAddr   : BusAddr := .shifted 1 0x7E 0x00
  readAddr    : BusAddr := .shifted 1 0x7E 0x80
  dummy       : Byte := 0x00
deriving DecidableEq, Repr

/-- R10, the rows marked "source" but for the two poll bounds. "The source fixes the rows marked "source"": no other value
of one is legal (log 5). -/
structure SourceRows where
  maxLen      : Nat := 16
  ack         : Byte := 0x0A
  reqBits     : Int := 16
  selBits     : Int := 24
  ackBits     : Int := 4
  uidLen      : Nat := 5
  keyLen      : Nat := 6
  dataLen     : Nat := 16
  numSectors  : Nat := 16
  numBlocks   : Nat := 4
deriving DecidableEq, Repr

/-- R10, the "decision" rows. -/
structure Policies where
  writeIrqEnable    : Bool := true
  notagQualified    : Bool := false
  zeroLevelReadsOne : Bool := false
  levelPolicy       : LevelPolicy := .unsigned
  readRequiresOk    : Bool := false
  writeRequiresOk   : Bool := true
  authGranularity   : AuthGranularity := .block
deriving DecidableEq, Repr

/-- The configuration record of R10, fixed when the block is instantiated (10_state.md R29).
The default of each field is the default of its row. -/
structure Params where
  pollLimit    : Nat := 2000
  crcPollLimit : Nat := 255
  regAddrMax   : Nat := 0x3F
  reg          : ChipRegs := {}
  mask         : ChipMasks := {}
  cmd          : ChipCmds := {}
  card         : CardBytes := {}
  framing      : FramingValues := {}
  bus          : BusForm := {}
  source       : SourceRows := {}
  policy       : Policies := {}
deriving DecidableEq, Repr

namespace Config

/-- The configuration in which every parameter takes its default (R10). -/
def defaultParams : Params := {}

/-- The number of flat block addresses, 16 × 4 (R2, 40_value_types.md R125). -/
abbrev numAddrs : Nat := 64

/-- FREE VALUE. The chip's answer to the read transfer with draw index n, where the environment has scripted none:
"The model takes each read answer as a free input, a draw from an oracle" (R8). No proof can see a value of it
(log 2). -/
opaque chipAnswer : Nat → Byte

/-- FREE VALUE. Whether the transport fails the transfer with draw index n, where the environment has scripted
nothing: "A transfer may return `failure` instead of a byte" (41_register_port.md R144, log 3). -/
opaque transportFails : Nat → Bool

end Config

end Sys2Proof
end

