-- ==== Sys2Proof/Machine/State.lean ====
section
/-! DEFINITION. The state of the block (10_state.md R20 to R36), the reasons a step can stop, and the state after reset.
There is no memory in State: the chip's registers are not block state (20_memory.md R78, log 21). What stands for it is
the bus: the answers the chip gives and the trace of transfers. -/

namespace Sys2Proof.Machine

/-- STATUS values (00_scope.md R14). -/
inductive Status where
  | ok
  | noTag
  | genericError
deriving DecidableEq, Repr

/-- SESSION values (10_state.md R30). -/
inductive Session where
  | unauth
  | selected
  | auth
deriving DecidableEq, Repr

/-- Rejection codes 1 to 11 (60_exceptions.md R301). -/
inductive RejectCode where
  | eOpc
  | eSector
  | eBlock
  | eKeyLen
  | eUidLen
  | eDataLen
  | eCrcLen
  | eBlkAddr
  | eRegAddr
  | eBusy
  | eOperand
deriving DecidableEq, Repr

/-- OUTCOME values: DONE or REJECTED(code) (60_exceptions.md R300). -/
inductive OpOutcome where
  | done
  | rejected (code : RejectCode)
deriving DecidableEq, Repr

/-- KIND values of a dispatch (10_state.md R33). -/
inductive Kind where
  | authent
  | transceive
  | other
deriving DecidableEq, Repr

/-- The place of a transfer in its operation. SETUP to READBACK are the dispatch phases of 43_command_channel.md R196;
the other names are the model's, for transfers outside a dispatch (log 34). -/
inductive Stage where
  /-- A register operation of the host, or STOPCRYPTO's clear. -/
  | port
  /-- The framing write of Request and AntiColl (44_discovery.md R220). -/
  | framing
  /-- CRC step 1 (42_crc_engine.md R160). -/
  | crcClear
  /-- CRC step 2 (42_crc_engine.md R161). -/
  | crcLoad
  /-- CRC step 3 (42_crc_engine.md R162). -/
  | crcPoll
  /-- CRC step 4 (42_crc_engine.md R163). -/
  | crcResult
  | setup
  | fill
  | issue
  | poll
  | finish
  | errchk
  | readback
  /-- The Status2 read after an AUTHENT dispatch (45_access.md R250). -/
  | cryptoCheck
deriving DecidableEq, Repr

/-- One bus transfer as the bus shows it (20_memory.md R61): the chip register, the two bytes sent, whether the transport
failed, and, for a read, the second byte received. "The byte received during a write is ignored", so it is not kept
(log 16). -/
inductive Xfer where
  | write (stage : Stage) (reg : Nat) (addrByte payload : Byte) (failed : Bool)
  | read (stage : Stage) (reg : Nat) (addrByte payload answer : Byte) (failed : Bool)
deriving DecidableEq, Repr

/-- A register that holds a value and whether anything has written it since reset. R36 gives the result registers "no
value (unwritten)" at reset: `written` is that state of the spec, and the value beside `written = false` is the model's
(log 9). -/
structure Held (α : Type) where
  value   : α
  written : Bool
deriving DecidableEq, Repr

/-- An unwritten register (R36). -/
def Held.fresh {α : Type} (v : α) : Held α := ⟨v, false⟩

/-- A register after a write of `v`. -/
def Held.put {α : Type} (v : α) : Held α := ⟨v, true⟩

/-- The names of the result registers, which the host can read (10_state.md R24). -/
inductive ResultReg where
  | outcome
  | status
  | resp
  | respLen
  | respBits
  | regVal
  | crcBuf
  | blkAddr
  | id
  | idValid
  | sak
  | blockOut
  | dumpOut
  | dumpMask
deriving DecidableEq, Repr

/-- What a host read of a result register returns, by the register's type (10_state.md R24, log 17). -/
inductive HostData where
  /-- The host has read nothing. -/
  | nothing
  | outcome (o : OpOutcome)
  | status (st : Status)
  | integer (n : Int)
  | byte (b : Byte)
  | bytes (bs : List Byte)
  | flag (b : Bool)
  | blocks (bs : List (List Byte))
  | mask (m : BitVec 64)
deriving DecidableEq, Repr

/-- The registers an operation writes only at its end (00_scope.md R9, 10_state.md R24, R30): the session state and the
result registers but OUTCOME. -/
structure Regs where
  session  : Session
  authBlk  : Held Nat
  status   : Held Status
  resp     : Held (List Byte)
  respLen  : Held Nat
  respBits : Held Int
  regVal   : Held Byte
  crcBuf   : Held (List Byte)
  blkAddr  : Held Nat
  id       : Held (List Byte)
  idValid  : Held Bool
  sak      : Held Byte
  blockOut : Held (List Byte)
  dumpOut  : Held (List (List Byte))
  dumpMask : Held (BitVec 64)
deriving DecidableEq, Repr

/-- The working registers of the dispatch and CRC machines (10_state.md R33, R34). What `kind`, `irqEn` and `waitIrq` hold
after a dispatch is log 36. -/
structure Work where
  kind        : Kind
  irqEn       : Byte
  waitIrq     : Byte
  cnt         : Nat
  lastIrq     : Byte
  pollLastIrq : Byte
  pollRemain  : Nat
  crcCnt      : Nat
  crcRemain   : Nat
deriving DecidableEq, Repr

/-- The downward interface (00_scope.md R7, R8): the answers and transport outcomes the environment has scripted (oldest
first; beyond them the free values of Config apply, at index `count`), the transfers seen on the bus (newest first,
60_exceptions.md R331) and the counter XFER_FAILS (10_state.md R32). Only `xferFails` is the spec's own state. -/
structure Port where
  answers   : List Byte
  fails     : List Bool
  count     : Nat
  trace     : List Xfer
  xferFails : Nat
deriving DecidableEq, Repr

/-- PHASE = IDLE | BUSY(op, pos) (10_state.md R22). The read answers so far (oldest first) stand beside pos, since the
next transfer is a function of the operation, its start state and them (00_scope.md R9). -/
inductive Phase where
  | idle
  | busy (op : Instr) (pos : Nat) (answers : List Byte)
deriving DecidableEq, Repr

/-- One operation as the host offers it: in serial form, or in textual form, which any integers can stand in
(30_encoding.md R95, R109). -/
inductive Offer where
  | serial (bytes : List Byte)
  | text (op : Instr)
deriving DecidableEq, Repr

/-- What the host does at one step (00_scope.md R8, 10_state.md R23, R24, 70_reset_and_hazards.md R340). -/
inductive HostEvent where
  /-- It offers an operation and does nothing more until the operation has ended: one step runs it whole (R9). -/
  | offer (o : Offer)
  /-- It offers an operation and may act before it ends: the block goes to BUSY and takes one step per transfer (R8). -/
  | begin (o : Offer)
  /-- It does nothing for one step. -/
  | tick
  /-- It resets the block. -/
  | reset
  /-- It reads a result register. -/
  | read (r : ResultReg)
deriving DecidableEq, Repr

/-- Why the machine stops with a fault. -/
inductive Fault where
  /-- Raised by a host read of a result register that nothing has written since reset: "The model faults on such a read"
  (10_state.md R24; 93_implementation_defined.md U1, treatment "fault"). Safe: it stops where the spec gives no value. -/
  | unwrittenRead (r : ResultReg)
  /-- Raised by a host read while PHASE = BUSY: "The host reads result registers only when PHASE = IDLE" (10_state.md
  R24). Safe: it stops where the spec gives no effect (log 17). -/
  | readWhileBusy (r : ResultReg)
deriving DecidableEq, Repr

/-- Why a step has no meaning. -/
inductive Refusal where
  /-- Raised by an arm of exec whose instruction has no meaning yet. Safe. -/
  | notModelled (mnemonic : String)
  /-- Raised by every step of a block whose configuration breaks a constraint of 00_scope.md R11: "refused as a whole; a
  model has no meaning for it". Safe (log 8). -/
  | illegalConfig
  /-- Raised by a serial offer whose bytes end before its operation does: it is not an operation of 30_encoding.md R95.
  Safe (log 14). -/
  | incompleteOffer
deriving DecidableEq, Repr

/-- The machine: the block's state (10_state.md), its configuration (00_scope.md R10), its two interfaces, and what the
host last read. -/
structure State where
  cfg       : Params
  phase     : Phase
  violation : Bool
  outcome   : Held OpOutcome
  regs      : Regs
  work      : Work
  port      : Port
  host      : List HostEvent
  hostData  : HostData
deriving DecidableEq, Repr

/-- The session and result registers after reset (R36): SESSION = UNAUTH, everything else unwritten. The values beside the
unwritten marks are DESIGN CHOICES (log 9, log 10). -/
def Regs.reset : Regs where
  session  := .unauth
  authBlk  := .fresh 0
  status   := .fresh .ok
  resp     := .fresh (zeros 16)
  respLen  := .fresh 0
  respBits := .fresh 0
  regVal   := .fresh 0
  crcBuf   := .fresh []
  blkAddr  := .fresh 0
  id       := .fresh (zeros 5)
  idValid  := .fresh false
  sak      := .fresh 0
  blockOut := .fresh (zeros 16)
  dumpOut  := .fresh (List.replicate 64 (zeros 16))
  dumpMask := .fresh 0

/-- The working registers after reset. R36: "no value; written before read"; the values are DESIGN CHOICES (log 11). -/
def Work.reset : Work where
  kind := .other
  irqEn := 0
  waitIrq := 0
  cnt := 0
  lastIrq := 0
  pollLastIrq := 0
  pollRemain := 0
  crcCnt := 0
  crcRemain := 0

/-- The machine right after reset (R36, R340), with the default configuration (log 4), nothing scripted, nothing seen on
the bus, and no host input (R341: it waits for the host's first operation, log 20). -/
def State.reset : State where
  cfg := Config.defaultParams
  phase := .idle
  violation := false
  outcome := .fresh .done
  regs := .reset
  work := .reset
  port := { answers := [], fails := [], count := 0, trace := [], xferFails := 0 }
  host := []
  hostData := .nothing

end Sys2Proof.Machine
end

