-- ==== Sys2Proof/Machine/Prog.lean ====
section
/-! DEFINITION. An operation as a program of bus transfers (00_scope.md R9): each write's address and value, and the choice
of the next transfer, are functions of the operation, the start state and the read answers so far. A program is run whole
by `Prog.run` (Ops.lean) or one transfer at a time through `Prog.settle` and `Prog.replay`. -/

namespace Sys2Proof.Machine

/-- A program of transfers ending in a value: a read whose answer chooses the rest, a write, or an update of the working
registers, which is no transfer. -/
inductive Prog (α : Type) where
  | done (a : α)
  | read (stage : Stage) (reg : Nat) (k : Byte → Prog α)
  | write (stage : Stage) (reg : Nat) (v : Byte) (k : Prog α)
  | work (f : Work → Work) (k : Prog α)

/-- One program after another. -/
def Prog.bind {α β : Type} : Prog α → (α → Prog β) → Prog β
  | .done a, f => f a
  | .read st r k, f => .read st r fun v => (k v).bind f
  | .write st r v k, f => .write st r v (k.bind f)
  | .work g k, f => .work g (k.bind f)

/-- The program with its leading working-register updates made: what is left starts with a transfer or is done. -/
def Prog.settle {α : Type} : Prog α → Work → Prog α × Work
  | .work f k, w => k.settle (f w)
  | .done a, w => (.done a, w)
  | .read st r k, w => (.read st r k, w)
  | .write st r v k, w => (.write st r v k, w)

/-- What is left of the program after `pos` transfers whose read answers were `answers` (R22: the phases are "functions of
(op, pos) and of the read answers so far"). -/
def Prog.replay {α : Type} : Prog α → Nat → List Byte → Prog α
  | .work _ k, pos, answers => k.replay pos answers
  | .read _ _ k, pos + 1, v :: answers => (k v).replay pos answers
  | .write _ _ _ k, pos + 1, answers => k.replay pos answers
  | p, _, _ => p

/-- `v <- RegRead(a)`: exactly one read transfer (41_register_port.md R141). -/
def regRead (stage : Stage) (a : Nat) : Prog Byte := .read stage a .done

/-- `RegWrite(a, v)`: exactly one write transfer (41_register_port.md R140). -/
def regWrite (stage : Stage) (a : Nat) (v : Byte) : Prog Unit := .write stage a v (.done ())

/-- `SetBits(a, m)`: a read, then a write of `v | m`, issued even when nothing changes (41_register_port.md R142). -/
def setBits (stage : Stage) (a : Nat) (m : Byte) : Prog Unit :=
  (regRead stage a).bind fun v => regWrite stage a (v ||| m)

/-- `ClearBits(a, m)`: a read, then a write of `v & ~m`, issued even when nothing changes (41_register_port.md R143). -/
def clearBits (stage : Stage) (a : Nat) (m : Byte) : Prog Unit :=
  (regRead stage a).bind fun v => regWrite stage a (v &&& ~~~m)

/-- An update of the working registers (10_state.md R33, R34), between transfers. -/
def setWork (f : Work → Work) : Prog Unit := .work f (.done ())

/-- One write transfer per byte, in index order (20_memory.md R63). -/
def writeAll (stage : Stage) (a : Nat) : List Byte → Prog Unit
  | [] => .done ()
  | b :: bs => (regWrite stage a b).bind fun _ => writeAll stage a bs

/-- `n` read transfers of one register, the answers in the order they came (20_memory.md R63). -/
def readMany (stage : Stage) (a : Nat) : Nat → Prog (List Byte)
  | 0 => .done []
  | n + 1 => (regRead stage a).bind fun v => (readMany stage a n).bind fun vs => .done (v :: vs)

end Sys2Proof.Machine
end

