-- ==== Sys2Proof/Machine/Ops.lean ====
section
/-! DEFINITION. The named operations over the bus and the registers: one transfer, running a program, the end of an
operation, and the rejection of one (60_exceptions.md R300), which is this block's only exception: it has no trap and no
return from one (R310). -/

namespace Sys2Proof.Machine

/-! ### One bus transfer (20_memory.md R61, 41_register_port.md R140, R141, R144) -/

/-- The address byte a bus address function gives a register address (log 6). -/
def busAddr (f : BusAddr) (a : Nat) : Byte :=
  match f with
  | .shifted shift mask flag => ((BitVec.ofNat 8 a <<< shift) &&& mask) ||| flag
  | .listed bytes => bytes.getD a 0x00

/-- `BUS_WRITE_ADDR(a)`: by default `(a << 1) & 0x7E` (R61). -/
def busWriteAddr (c : Params) (a : Nat) : Byte := busAddr c.bus.writeAddr a

/-- `BUS_READ_ADDR(a)`: by default `((a << 1) & 0x7E) | 0x80` (R61). -/
def busReadAddr (c : Params) (a : Nat) : Byte := busAddr c.bus.readAddr a

/-- The answer the next read gets: the next scripted one, else a free value (00_scope.md R8, log 2). -/
def drawAnswer (p : Port) : Byte := p.answers.headD (Config.chipAnswer p.count)

/-- Whether the transport fails the next transfer: as scripted, else a free value (R144, log 3). -/
def drawFailure (p : Port) : Bool := p.fails.headD (Config.transportFails p.count)

/-- XFER_FAILS after a transfer: plus 1 for a failed one, and no other effect of the failure (10_state.md R32, R144). -/
def countFailure (failed : Bool) (n : Nat) : Nat := if failed then n + 1 else n

/-- One write transfer, `transfer(BUS_WRITE_ADDR(a), v)` (R140). -/
def portWrite (c : Params) (stage : Stage) (a : Nat) (v : Byte) (p : Port) : Port :=
  { answers := p.answers
    fails := p.fails.tail
    count := p.count + 1
    trace := .write stage a (busWriteAddr c a) v (drawFailure p) :: p.trace
    xferFails := countFailure (drawFailure p) p.xferFails }

/-- One read transfer, `transfer(BUS_READ_ADDR(a), BUS_DUMMY)`, whose answer is `drawAnswer p` also when the transport
failed (R141, R144). -/
def portRead (c : Params) (stage : Stage) (a : Nat) (p : Port) : Port :=
  { answers := p.answers.tail
    fails := p.fails.tail
    count := p.count + 1
    trace := .read stage a (busReadAddr c a) c.bus.dummy (drawAnswer p) (drawFailure p) :: p.trace
    xferFails := countFailure (drawFailure p) p.xferFails }

/-! ### Running a program whole (00_scope.md R9) -/

/-- What a program leaves: the bus interface, the working registers and its value. -/
structure Ran (α : Type) where
  port : Port
  work : Work
  val  : α

/-- The program run to its end, one transfer after another in program order (20_memory.md R82). -/
def Prog.run {α : Type} (c : Params) : Prog α → Port → Work → Ran α
  | .done a, p, w => ⟨p, w, a⟩
  | .read st r k, p, w => (k (drawAnswer p)).run c (portRead c st r p) w
  | .write st r v k, p, w => k.run c (portWrite c st r v p) w
  | .work f k, p, w => k.run c p (f w)

/-! ### The end of an operation, and rejections -/

/-- One host operation: the rejection its operand checks give (60_exceptions.md R302), the contract violation it flags at
its start (R305), and its program, which ends in the registers it leaves (00_scope.md R9). -/
structure Plan where
  reject   : Option RejectCode
  violates : Bool
  prog     : Prog Regs

/-- `raise Reject(code)`: OUTCOME = REJECTED(code), and nothing else is written (R300). -/
def reject (code : RejectCode) (s : State) : State := { s with outcome := .put (.rejected code) }

/-- The rejection of an operation offered while PHASE = BUSY: E_BUSY, and VIOLATION is set; the operation in progress is
not disturbed (R306). -/
def rejectBusy (s : State) : State := { s with outcome := .put (.rejected .eBusy), violation := true }

/-- `flag VIOLATION`, sticky (R305, 10_state.md R28). -/
def flagViolation (v : Bool) (s : State) : State := { s with violation := s.violation || v }

/-- The end of an operation: "the block writes its results in the same step and sets PHASE to IDLE" (10_state.md R22), with
OUTCOME = DONE. -/
def finish (r : Regs) (s : State) : State := { s with regs := r, outcome := .put .done, phase := .idle }

/-- An accepted operation run whole: the violation is flagged at its start, every transfer is made, the results are
written at its end (R9, R24, R305). -/
def complete (p : Plan) (s : State) : State :=
  let ran := p.prog.run s.cfg s.port s.work
  finish ran.val (flagViolation p.violates { s with port := ran.port, work := ran.work })

/-- What the block does with an offered operation: E_BUSY first, then the operand checks, else the operation (R302). -/
def serve (p : Plan) (s : State) : State :=
  match s.phase with
  | .busy _ _ _ => rejectBusy s
  | .idle =>
    match p.reject with
    | some code => reject code s
    | none => complete p s

/-- R11: both poll bounds are at least 1, and every register address is at most REG_ADDR_MAX. R10: the rows the source fixes
have the source's values (log 5). -/
def paramsLegal (c : Params) : Bool :=
  decide (c.source = {}) && decide (1 ≤ c.pollLimit) && decide (1 ≤ c.crcPollLimit) &&
  [c.reg.command, c.reg.comIEn, c.reg.comIrq, c.reg.divIrq, c.reg.error, c.reg.status2, c.reg.fifoData, c.reg.fifoLevel,
    c.reg.control, c.reg.bitFraming, c.reg.crcResultM, c.reg.crcResultL].all fun a => decide (a ≤ c.regAddrMax)

/-- A configuration that breaks a constraint "is refused as a whole; a model has no meaning for it" (R11). -/
def guarded (s : State) (k : Host.Outcome State Fault Refusal) : Host.Outcome State Fault Refusal :=
  if paramsLegal s.cfg then k else .refused .illegalConfig

/-- An operation offered to the block and run whole. Every meaning is this over the plan of its own operation. -/
def runPlan (p : Plan) (s : State) : Host.Outcome State Fault Refusal := guarded s (.next (serve p s))

/-! ### The same operation, one transfer per step (00_scope.md R8, 10_state.md R22) -/

/-- After a transfer (or at the start): the working-register updates up to the next transfer are made; with no transfer
left the operation ends in this same step, else PHASE = BUSY at `pos` (R22). -/
def settleInto (i : Instr) (pos : Nat) (answers : List Byte) (prog : Prog Regs) (s : State) : State :=
  match prog.settle s.work with
  | (.done r, w) => finish r { s with work := w }
  | (_, w) => { s with work := w, phase := .busy i pos answers }

/-- An offered operation at the transfer level: accepted at IDLE, it flags its violation and waits before its first
transfer; "An operation that performs no transfer goes from IDLE to IDLE in one step" (R22, R23). -/
def beginPlan (i : Instr) (p : Plan) (s : State) : State :=
  match s.phase with
  | .busy _ _ _ => rejectBusy s
  | .idle =>
    match p.reject with
    | some code => reject code s
    | none => settleInto i 0 [] p.prog (flagViolation p.violates s)

/-- One transfer of the operation in progress, `prog` being what is left of it: "Each bus transfer advances pos by 1" (R22).
A program with nothing left ends the operation (log 35). -/
def transferStep (i : Instr) (pos : Nat) (answers : List Byte) (prog : Prog Regs) (s : State) : State :=
  match prog with
  | .done r => finish r s
  | .read st a k =>
    settleInto i (pos + 1) (answers ++ [drawAnswer s.port]) (k (drawAnswer s.port)) { s with port := portRead s.cfg st a s.port }
  | .write st a v k => settleInto i (pos + 1) answers k { s with port := portWrite s.cfg st a v s.port }
  | .work f k => settleInto i pos answers k { s with work := f s.work }

/-- Block reset: every state of the block as R36 says, the configuration unchanged, no transfer (70_reset_and_hazards.md
R340). The environment's script, the bus trace and the host's inputs are not the block's (log 19). -/
def resetBlock (s : State) : State :=
  { State.reset with
    cfg := s.cfg
    port := { s.port with xferFails := 0 }
    host := s.host
    hostData := s.hostData }

end Sys2Proof.Machine
end

