-- ==== Sys2Proof/Machine/Operands.lean ====
section
/-! DEFINITION. The operand kinds of 30_encoding.md R91 and their checks, in the order of 60_exceptions.md R302: operands in
syntax order, and within a list the length before the elements. Each check answers the rejection code, or none. -/

namespace Sys2Proof.Machine

/-- An operand that passed its check, as the byte it is. -/
def toByte (x : Int) : Byte := BitVec.ofInt 8 x

/-- A list operand that passed its check, as bytes. -/
def toBytes (xs : List Int) : List Byte := xs.map toByte

/-- The operand is in 0..255 (R91). -/
def isByte (x : Int) : Bool := decide (0 ≤ x) && decide (x ≤ 255)

/-- Kinds v, m, cmd: 0..255, else E_OPERAND. -/
def checkByte (x : Int) : Option RejectCode := if isByte x then none else some .eOperand

/-- Every element 0..255, else E_OPERAND. -/
def checkElems (xs : List Int) : Option RejectCode := if xs.all isByte then none else some .eOperand

/-- Kind a: 0..REG_ADDR_MAX, else E_REG_ADDR (41_register_port.md R145). -/
def checkReg (c : Params) (a : Int) : Option RejectCode :=
  if decide (0 ≤ a) && decide (a ≤ (c.regAddrMax : Int)) then none else some .eRegAddr

/-- Kind blk: 0..63, else E_BLK_ADDR. -/
def checkBlk (b : Int) : Option RejectCode := if decide (0 ≤ b) && decide (b ≤ 63) then none else some .eBlkAddr

/-- A list of a fixed length `n`, else `code`; then its elements. -/
def checkLen (n : Nat) (code : RejectCode) (xs : List Int) : Option RejectCode :=
  if xs.length = n then checkElems xs else some code

/-- Kind key. -/
def checkKey (c : Params) (key : List Int) : Option RejectCode := checkLen c.source.keyLen .eKeyLen key

/-- Kind uid. -/
def checkUid (c : Params) (uid : List Int) : Option RejectCode := checkLen c.source.uidLen .eUidLen uid

/-- Kind data. -/
def checkData (c : Params) (data : List Int) : Option RejectCode := checkLen c.source.dataLen .eDataLen data

/-- Kind buf: length ≥ 2, else E_CRC_LEN; then its elements. -/
def checkBuf (buf : List Int) : Option RejectCode := if buf.length < 2 then some .eCrcLen else checkElems buf

/-- Kind s of MKADDR: 0..NUM_SECTORS - 1, else E_SECTOR (40_value_types.md R120). -/
def checkSector (c : Params) (x : Int) : Option RejectCode :=
  if decide (0 ≤ x) && decide (x ≤ (c.source.numSectors : Int) - 1) then none else some .eSector

/-- Kind k of MKADDR: 0..NUM_BLOCKS - 1, else E_BLOCK (40_value_types.md R120). -/
def checkBlockIn (c : Params) (x : Int) : Option RejectCode :=
  if decide (0 ≤ x) && decide (x ≤ (c.source.numBlocks : Int) - 1) then none else some .eBlock

end Sys2Proof.Machine
end

