-- ==== Sys2Proof/Machine/Flags.lean ====
section
/-! DEFINITION. Every status, validity, count and violation computation of the spec, and the numeric encodings of the
statuses, session states and rejection codes. -/

namespace Sys2Proof.Machine

/-! ### Numeric encodings (30_encoding.md R96, R97; 60_exceptions.md R301) -/

/-- R96: OK = 0, NO-TAG = 1, GENERIC-ERROR = 2; 3 is never produced. -/
def statusCode : Status → BitVec 2
  | .ok => 0
  | .noTag => 1
  | .genericError => 2

/-- R97: UNAUTH = 0, SELECTED = 1, AUTH = 2. -/
def sessionCode : Session → BitVec 2
  | .unauth => 0
  | .selected => 1
  | .auth => 2

/-- R301: the rejection codes 1 to 11. -/
def rejectNumber : RejectCode → Nat
  | .eOpc => 1
  | .eSector => 2
  | .eBlock => 3
  | .eKeyLen => 4
  | .eUidLen => 5
  | .eDataLen => 6
  | .eCrcLen => 7
  | .eBlkAddr => 8
  | .eRegAddr => 9
  | .eBusy => 10
  | .eOperand => 11

/-! ### Identity validity (40_value_types.md R121) -/

/-- `valid(u)`: for `u = [d0 d1 d2 d3 c]`, `c == d0 ^ d1 ^ d2 ^ d3`. -/
def validUid (u : List Byte) : Bool :=
  match u with
  | [d0, d1, d2, d3, c] => c == d0 ^^^ d1 ^^^ d2 ^^^ d3
  | _ => false

/-! ### Dispatch decisions (43_command_channel.md) -/

/-- R180: the kind, by equality of the whole command byte. -/
def selectKind (c : Params) (cmd : Byte) : Kind :=
  if cmd = c.cmd.authent then .authent else if cmd = c.cmd.transceive then .transceive else .other

/-- R180: IRQ_EN by kind. -/
def irqEnOf (c : Params) : Kind → Byte
  | .authent => c.mask.authIrqEn
  | .transceive => c.mask.trxIrqEn
  | .other => 0x00

/-- R180: WAIT_IRQ by kind. -/
def waitIrqOf (c : Params) : Kind → Byte
  | .authent => c.mask.authWait
  | .transceive => c.mask.trxWait
  | .other => 0x00

/-- R185: a poll value that stops the poll, by the general bit or by the kind's wait mask. -/
def stopsPoll (c : Params) (waitIrq n : Byte) : Bool := (n &&& c.mask.pollStop) != 0 || (n &&& waitIrq) != 0

/-- R162: a poll value with the CRC-done flag. -/
def crcDone (c : Params) (n : Byte) : Bool := (n &&& c.mask.crcIrq) != 0

/-- R188: an error-register value with a framing, parity, buffer-overflow or collision bit. -/
def hasError (c : Params) (e : Byte) : Bool := (e &&& c.mask.errMask) != 0

/-- R189: OK, downgraded to NO-TAG by the timer bit of LAST_IRQ, the bit qualified by IRQ_EN only under NOTAG_QUALIFIED. -/
def timerStatus (c : Params) (irqEn lastIrq : Byte) : Status :=
  if (lastIrq &&& c.mask.timerBit &&& (if c.policy.notagQualified then irqEn else 0xFF)) != 0 then .noTag else .ok

/-- R190: the FIFO level under LEVEL_POLICY. -/
def levelOf (c : Params) (f : Byte) : Nat :=
  match c.policy.levelPolicy with
  | .unsigned => f.toNat
  | .mask7 => (f &&& 0x7F).toNat

/-- R190: the valid-bit count of the last byte. -/
def lastBitsOf (c : Params) (v : Byte) : Nat := (v &&& c.mask.rxLastBits).toNat

/-- R191: `(level - 1) * 8 + lb` if `lb ≠ 0`, else `level * 8`, on integers. -/
def bitCount (level lb : Nat) : Int := if lb = 0 then (level : Int) * 8 else ((level : Int) - 1) * 8 + lb

/-- R192: `min(level, MAX_LEN)`, or 1 at level 0 under ZERO_LEVEL_READS_ONE. -/
def byteCount (c : Params) (level : Nat) : Nat :=
  if min level c.source.maxLen = 0 ∧ c.policy.zeroLevelReadsOne = true then 1 else min level c.source.maxLen

/-- R192: "RESP[i] for i ≥ count keeps 0x00": the bytes read, then zeros up to MAX_LEN. -/
def padResp (c : Params) (bs : List Byte) : List Byte := bs ++ zeros (c.source.maxLen - bs.length)

/-! ### Sequencer decisions (44_discovery.md, 45_access.md) -/

/-- R269 AckOK: the status (unless WRITE_REQUIRES_OK is false), exactly 4 bits, and ACK in the low nibble. -/
def ackOk (c : Params) (st : Status) (bits : Int) (resp : List Byte) : Bool :=
  (decide (st = .ok) || !c.policy.writeRequiresOk) && decide (bits = c.source.ackBits) &&
    ((resp.headD 0 &&& 0x0F) == c.source.ack)

/-- R255 auth_match(blk): SESSION = AUTH and AUTH_BLK matches blk under AUTH_GRANULARITY. -/
def authMatch (c : Params) (r : Regs) (blk : Nat) : Bool :=
  decide (r.session = .auth) &&
    match c.policy.authGranularity with
    | .block => decide (r.authBlk.value = blk)
    | .sector => decide (r.authBlk.value / 4 = blk / 4)

/-! ### Contract violations (60_exceptions.md R305) -/

/-- V1: discovery while AUTH. -/
def violatesDiscovery (r : Regs) : Bool := decide (r.session = .auth)

/-- V1 or V4: SELECT while AUTH, or with an invalid identity. -/
def violatesSelect (r : Regs) (uid : List Byte) : Bool := violatesDiscovery r || !validUid uid

/-- V2 or V4: authentication or dump without select, or with an invalid identity. -/
def violatesAuth (r : Regs) (uid : List Byte) : Bool := decide (r.session ≠ .selected) || !validUid uid

/-- V3: read or write outside the authenticated block. -/
def violatesAccess (c : Params) (r : Regs) (blk : Nat) : Bool := !authMatch c r blk

end Sys2Proof.Machine
end

