-- ==== Sys2Proof/Machine/CommandChannel.lean ====
section
/-! DEFINITION. The command-dispatch state machine of 43_command_channel.md and its host operation EXEC. -/

namespace Sys2Proof.Machine

/-- What one dispatch returns: the status, and the values it gives RESP, RESP_LEN and RESP_BITS. -/
structure Reply where
  status : Status
  resp   : List Byte
  len    : Nat
  bits   : Int
deriving DecidableEq, Repr

/-- A reply with the result registers as R181 cleared them. -/
def clearedReply (c : Params) (st : Status) : Reply := ⟨st, zeros c.source.maxLen, 0, 0⟩

/-- The dispatch's results in the result registers (10_state.md R24, R25). -/
def putReply (r : Regs) (d : Reply) : Regs :=
  { r with resp := .put d.resp, respLen := .put d.len, respBits := .put d.bits }

/-- SETUP (R180 to R182): the working registers by kind, the interrupt-enable write, the pending-IRQ clear, the FIFO flush,
and the idle command. 10_state.md R33 gives KIND, IRQ_EN and WAIT_IRQ values only during a dispatch; that the registers
keep the last dispatch's after it, since nothing else writes them, is a DESIGN CHOICE (log 36). -/
def dispatchSetup (c : Params) (kd : Kind) : Prog Unit :=
  (setWork fun w => { w with kind := kd, irqEn := irqEnOf c kd, waitIrq := waitIrqOf c kd }).bind fun _ =>
  (if c.policy.writeIrqEnable then regWrite .setup c.reg.comIEn (irqEnOf c kd ||| c.mask.irqInv) else .done ()).bind fun _ =>
  (clearBits .setup c.reg.comIrq c.mask.comIrqSet1).bind fun _ =>
  (setBits .setup c.reg.fifoLevel c.mask.fifoFlush).bind fun _ =>
  regWrite .setup c.reg.command c.cmd.idle

/-- FILL and ISSUE (R183, R184): every output byte into the FIFO, the command byte unmodified, and for TRANSCEIVE the
start-send bit. -/
def dispatchIssue (c : Params) (kd : Kind) (cmd : Byte) (out : List Byte) : Prog Unit :=
  (writeAll .fill c.reg.fifoData out).bind fun _ =>
  (regWrite .issue c.reg.command cmd).bind fun _ =>
  if kd = .transceive then setBits .issue c.reg.bitFraming c.mask.startSend else .done ()

/-- POLL (R185) with `n` iterations left, `last` being LAST_IRQ so far: it answers CNT and LAST_IRQ at its exit. -/
def dispatchPollLoop (c : Params) (waitIrq : Byte) : Nat → Byte → Prog (Nat × Byte)
  | 0, last => .done (0, last)
  | n + 1, _ =>
    (regRead .poll c.reg.comIrq).bind fun v =>
    (setWork fun w => { w with lastIrq := v, cnt := n }).bind fun _ =>
    if n = 0 ∨ stopsPoll c waitIrq v = true then .done (n, v) else dispatchPollLoop c waitIrq n v

/-- POLL (R185): CNT starts at POLL_LIMIT; the final LAST_IRQ and CNT are kept as POLL_LAST_IRQ and POLL_REMAIN. -/
def dispatchPoll (c : Params) (waitIrq : Byte) : Prog (Nat × Byte) :=
  (setWork fun w => { w with cnt := c.pollLimit }).bind fun _ =>
  (dispatchPollLoop c waitIrq c.pollLimit 0).bind fun x =>
  (setWork fun w => { w with pollLastIrq := w.lastIrq, pollRemain := w.cnt }).bind fun _ =>
  .done x

/-- READBACK (R190 to R192): the level, the valid-bit count, the response bytes, the bit count and the byte count. -/
def dispatchReadback (c : Params) (st : Status) : Prog Reply :=
  (regRead .readback c.reg.fifoLevel).bind fun f =>
  (regRead .readback c.reg.control).bind fun v =>
  (readMany .readback c.reg.fifoData (byteCount c (levelOf c f))).bind fun bs =>
  .done ⟨st, padResp c bs, byteCount c (levelOf c f), bitCount (levelOf c f) (lastBitsOf c v)⟩

/-- ERRCHK and what follows (R188 to R192), after a poll that did not exhaust. -/
def dispatchResult (c : Params) (kd : Kind) (lastIrq : Byte) : Prog Reply :=
  (regRead .errchk c.reg.error).bind fun e =>
  if hasError c e then .done (clearedReply c .genericError)
  else if kd = .transceive then dispatchReadback c (timerStatus c (irqEnOf c kd) lastIrq)
  else .done (clearedReply c (timerStatus c (irqEnOf c kd) lastIrq))

/-- `Dispatch(cmd, out)` (R193): R180 to R192 in order. Exhaustion, CNT = 0, is GENERIC-ERROR with no further transfer
(R187); start-send is cleared whatever the poll saw (R186). -/
def dispatch (c : Params) (cmd : Byte) (out : List Byte) : Prog Reply :=
  (dispatchSetup c (selectKind c cmd)).bind fun _ =>
  (dispatchIssue c (selectKind c cmd) cmd out).bind fun _ =>
  (dispatchPoll c (waitIrqOf c (selectKind c cmd))).bind fun x =>
  (clearBits .finish c.reg.bitFraming c.mask.startSend).bind fun _ =>
  if x.1 = 0 then .done (clearedReply c .genericError) else dispatchResult c (selectKind c cmd) x.2

/-- EXEC: `STATUS <- Dispatch(cmd, out)` (R195). -/
def planExec (cmd : Int) (out : List Int) (c : Params) (r : Regs) : Plan where
  reject := (checkByte cmd).or (checkElems out)
  violates := false
  prog := (dispatch c (toByte cmd) (toBytes out)).bind fun d => .done { putReply r d with status := .put d.status }

/-- The meaning of EXEC (R195). -/
def execExec (cmd : Int) (out : List Int) (s : State) : Host.Outcome State Fault Refusal :=
  runPlan (planExec cmd out s.cfg s.regs) s

end Sys2Proof.Machine
end

