-- ==== Sys2Proof/Machine/CrcEngine.lean ====
section
/-! DEFINITION. The CRC-16 generator of 42_crc_engine.md, which delegates the CRC to the chip, its host operation CALCCRC,
and the CRC_A function of R166, which no rule of the block depends on (log 29). -/

namespace Sys2Proof.Machine

/-- Step 1 (R160): `ClearBits(REG_DIVIRQ, CRC_IRQ)`. -/
def crcClear (c : Params) : Prog Unit := clearBits .crcClear c.reg.divIrq c.mask.crcIrq

/-- Step 2 (R161): flush the FIFO, write all bytes but the last two, trigger the CRC command. -/
def crcLoad (c : Params) (body : List Byte) : Prog Unit :=
  (setBits .crcLoad c.reg.fifoLevel c.mask.fifoFlush).bind fun _ =>
  (writeAll .crcLoad c.reg.fifoData body).bind fun _ =>
  regWrite .crcLoad c.reg.command c.cmd.calcCrc

/-- Step 3 (R162): the poll with `n` iterations left: it ends when CRC_CNT reaches 0 or the done flag is read. -/
def crcPollLoop (c : Params) : Nat → Prog Unit
  | 0 => .done ()
  | n + 1 =>
    (regRead .crcPoll c.reg.divIrq).bind fun v =>
    (setWork fun w => { w with crcCnt := n }).bind fun _ =>
    if n = 0 ∨ crcDone c v = true then .done () else crcPollLoop c n

/-- Step 3 (R162): CRC_CNT starts at CRC_POLL_LIMIT, and its final value is kept as CRC_REMAIN. -/
def crcPoll (c : Params) : Prog Unit :=
  (setWork fun w => { w with crcCnt := c.crcPollLimit }).bind fun _ =>
  (crcPollLoop c c.crcPollLimit).bind fun _ =>
  setWork fun w => { w with crcRemain := w.crcCnt }

/-- Step 4 (R163): the two result registers, low byte first, into the last two positions. -/
def crcResult (c : Params) (body : List Byte) : Prog (List Byte) :=
  (regRead .crcResult c.reg.crcResultL).bind fun lo =>
  (regRead .crcResult c.reg.crcResultM).bind fun hi =>
  .done (body ++ [lo, hi])

/-- `Crc(buf)` (R164): R160 to R163 in order. The last two bytes of `buf` are placeholders, never sent and never read. -/
def crc (c : Params) (buf : List Byte) : Prog (List Byte) :=
  (crcClear c).bind fun _ =>
  (crcLoad c (buf.take (buf.length - 2))).bind fun _ =>
  (crcPoll c).bind fun _ =>
  crcResult c (buf.take (buf.length - 2))

/-- CALCCRC: `CRC_BUF <- Crc(buf)` (R165). -/
def planCalccrc (buf : List Int) (c : Params) (r : Regs) : Plan where
  reject := checkBuf buf
  violates := false
  prog := (crc c (toBytes buf)).bind fun out => .done { r with crcBuf := .put out }

/-- The meaning of CALCCRC (R165). -/
def execCalccrc (buf : List Int) (s : State) : Host.Outcome State Fault Refusal := runPlan (planCalccrc buf s.cfg s.regs) s

/-- One bit of CRC_A: the reflected polynomial 0x8408 (R166). -/
def crcABit (x : BitVec 16) : BitVec 16 := if x.getLsbD 0 then (x >>> 1) ^^^ 0x8408 else x >>> 1

/-- One byte of CRC_A, least significant bit first (R166). -/
def crcAByte (x : BitVec 16) (b : Byte) : BitVec 16 :=
  let x := x ^^^ b.setWidth 16
  crcABit (crcABit (crcABit (crcABit (crcABit (crcABit (crcABit (crcABit x)))))))

/-- CRC_A of ISO/IEC 14443-3 with initial value 0x6363 and no final XOR (R166). Informative: "The block's rules do not
depend on the CRC function". -/
def crcA (bs : List Byte) : BitVec 16 := bs.foldl crcAByte 0x6363

end Sys2Proof.Machine
end

