-- ==== Sys2Proof/Machine/Access.lean ====
section
/-! DEFINITION. The access operations of 45_access.md: AUTHA, AUTHB, READ, WRITE, STOPCRYPTO, DUMPA, DUMPB. -/

namespace Sys2Proof.Machine

/-! ### Authentication -/

/-- The 12-byte authentication frame (30_encoding.md R102): the checksum byte of the identity is not sent. -/
def authFrame (mode : Byte) (blk : Nat) (key uid : List Byte) : List Byte :=
  [mode, BitVec.ofNat 8 blk] ++ key ++ uid.take 4

/-- R250, R251: a clear crypto bit downgrades every status to GENERIC-ERROR; a set one passes it through. -/
def authStatus (c : Params) (st : Status) (s2 : Byte) : Status :=
  if (s2 &&& c.mask.crypto1On) = 0 then .genericError else st

/-- R250: SESSION and AUTH_BLK after an authentication with final status `st`. -/
def putAuth (blk : Nat) (st : Status) (r : Regs) : Regs :=
  if st = .ok then { r with session := .auth, authBlk := .put blk } else { r with session := .unauth }

/-- `AuthCore(mode, blk, key, uid)` (R250): the AUTHENT dispatch, then the Status2 read whatever its status. -/
def authCore (c : Params) (mode : Byte) (blk : Nat) (key uid : List Byte) (r : Regs) : Prog (Status × Regs) :=
  (dispatch c c.cmd.authent (authFrame mode blk key uid)).bind fun d =>
  (regRead .cryptoCheck c.reg.status2).bind fun s2 =>
  .done (authStatus c d.status s2, putAuth blk (authStatus c d.status s2) (putReply r d))

/-- The checks of AUTHA and AUTHB, in syntax order (R252, 60_exceptions.md R302). -/
def checkAuth (c : Params) (blk : Int) (key uid : List Int) : Option RejectCode := (checkBlk blk).or ((checkKey c key).or (checkUid c uid))

/-- `STATUS <- AuthCore(mode, blk, key, uid)` (R252, R253). -/
def authProg (c : Params) (mode : Byte) (blk : Int) (key uid : List Int) (r : Regs) : Prog Regs :=
  (authCore c mode blk.toNat (toBytes key) (toBytes uid) r).bind fun x => .done { x.2 with status := .put x.1 }

/-- AUTHA: key A (R252). -/
def planAutha (blk : Int) (key uid : List Int) (c : Params) (r : Regs) : Plan where
  reject := checkAuth c blk key uid
  violates := violatesAuth r (toBytes uid)
  prog := authProg c c.card.auth1A blk key uid r

/-- AUTHB: key B (R253). -/
def planAuthb (blk : Int) (key uid : List Int) (c : Params) (r : Regs) : Plan where
  reject := checkAuth c blk key uid
  violates := violatesAuth r (toBytes uid)
  prog := authProg c c.card.auth1B blk key uid r

/-! ### Read -/

/-- R259: the read succeeds on exactly DATA_LEN bytes after the clamp, and under READ_REQUIRES_OK on status OK too. -/
def readOk (c : Params) (d : Reply) : Bool :=
  decide (d.len = c.source.dataLen) && (decide (d.status = .ok) || !c.policy.readRequiresOk)

/-- R259: a failed read discards the partial bytes: RESP zeros, RESP_LEN 0, RESP_BITS kept (10_state.md R25). -/
def discardResp (c : Params) (r : Regs) : Regs := { r with resp := .put (zeros c.source.maxLen), respLen := .put 0 }

/-- `ReadCore(blk)` (R259): the CRC of the frame, its dispatch, and the block data, or zeros on failure. -/
def readCore (c : Params) (blk : Nat) (r : Regs) : Prog (Status × List Byte × Regs) :=
  (crc c [c.card.read, BitVec.ofNat 8 blk, 0x00, 0x00]).bind fun frame =>
  (dispatch c c.cmd.transceive frame).bind fun d =>
  .done (if readOk c d then (.ok, d.resp.take 16, putReply r d)
    else (.genericError, zeros 16, discardResp c (putReply r d)))

/-- READ: `(STATUS, BLOCK_OUT) <- ReadCore(blk)` (R260). -/
def planRead (blk : Int) (c : Params) (r : Regs) : Plan where
  reject := checkBlk blk
  violates := violatesAccess c r blk.toNat
  prog := (readCore c blk.toNat r).bind fun x => .done { x.2.2 with status := .put x.1, blockOut := .put x.2.1 }

/-! ### Write -/

/-- One phase of WRITE (R270): the CRC of the frame and its dispatch. -/
def writePhase (c : Params) (frame : List Byte) : Prog Reply :=
  (crc c frame).bind fun full => dispatch c c.cmd.transceive full

/-- R269 on a dispatch's reply. -/
def replyAcked (c : Params) (d : Reply) : Bool := ackOk c d.status d.bits d.resp

/-- The two phases of WRITE: the second only if the first was acknowledged (R270, R271). -/
def writeProg (c : Params) (blk : Nat) (data : List Byte) (r : Regs) : Prog Regs :=
  (writePhase c [c.card.write, BitVec.ofNat 8 blk, 0x00, 0x00]).bind fun d1 =>
  if replyAcked c d1 then
    (writePhase c (data ++ [0x00, 0x00])).bind fun d2 =>
    .done { putReply r d2 with status := .put (if replyAcked c d2 then .ok else .genericError) }
  else .done { putReply r d1 with status := .put .genericError }

/-- WRITE (R270). -/
def planWrite (blk : Int) (data : List Int) (c : Params) (r : Regs) : Plan where
  reject := (checkBlk blk).or (checkData c data)
  violates := violatesAccess c r blk.toNat
  prog := writeProg c blk.toNat (toBytes data) r

/-! ### Stop crypto -/

/-- STOPCRYPTO: `ClearBits(REG_STATUS2, CRYPTO1_ON)`, SESSION = UNAUTH from every state, STATUS = OK (R280, R281). -/
def planStopcrypto (c : Params) (r : Regs) : Plan where
  reject := none
  violates := false
  prog := (clearBits .port c.reg.status2 c.mask.crypto1On).bind fun _ =>
    .done { r with session := .unauth, status := .put .ok }

/-! ### Dump -/

/-- The registers, DUMP_OUT and DUMP_MASK as the dump's loop carries them (R290). -/
structure DumpAcc where
  regs : Regs
  out  : List (List Byte)
  mask : BitVec 64

/-- `DUMP_OUT[b] <- d; DUMP_MASK[b] <- 1` for a block that was read (R290). -/
def dumpPut (b : Nat) (x : Status × List Byte × Regs) (acc : DumpAcc) : DumpAcc :=
  if x.1 = .ok then { regs := x.2.2, out := acc.out.set b x.2.1, mask := acc.mask ||| (1#64 <<< b) }
  else { acc with regs := x.2.2 }

/-- The loop of R290 over the blocks given: AuthCore, and ReadCore only if it succeeded; no violation is checked. -/
def dumpBlocks (c : Params) (mode : Byte) (key uid : List Byte) : List Nat → DumpAcc → Prog DumpAcc
  | [], acc => .done acc
  | b :: bs, acc =>
    (authCore c mode b key uid acc.regs).bind fun a =>
    if a.1 = .ok then
      (readCore c b a.2).bind fun x => dumpBlocks c mode key uid bs (dumpPut b x acc)
    else dumpBlocks c mode key uid bs { acc with regs := a.2 }

/-- `Dump(mode, key, uid)` (R290): blocks 0 to 63 in ascending order; STATUS = OK always. -/
def dumpProg (c : Params) (mode : Byte) (key uid : List Int) (r : Regs) : Prog Regs :=
  (dumpBlocks c mode (toBytes key) (toBytes uid) (List.range Config.numAddrs)
    ⟨r, List.replicate Config.numAddrs (zeros 16), 0⟩).bind fun acc =>
  .done { acc.regs with dumpOut := .put acc.out, dumpMask := .put acc.mask, status := .put .ok }

/-- The checks of DUMPA and DUMPB, in syntax order (R291, 60_exceptions.md R302). -/
def checkDump (c : Params) (key uid : List Int) : Option RejectCode := (checkKey c key).or (checkUid c uid)

/-- DUMPA: key A (R291). -/
def planDumpa (key uid : List Int) (c : Params) (r : Regs) : Plan where
  reject := checkDump c key uid
  violates := violatesAuth r (toBytes uid)
  prog := dumpProg c c.card.auth1A key uid r

/-- DUMPB: key B (R292). -/
def planDumpb (key uid : List Int) (c : Params) (r : Regs) : Plan where
  reject := checkDump c key uid
  violates := violatesAuth r (toBytes uid)
  prog := dumpProg c c.card.auth1B key uid r

/-- The meaning of AUTHA (R252). -/
def execAutha (blk : Int) (key uid : List Int) (s : State) : Host.Outcome State Fault Refusal :=
  runPlan (planAutha blk key uid s.cfg s.regs) s

/-- The meaning of AUTHB (R253). -/
def execAuthb (blk : Int) (key uid : List Int) (s : State) : Host.Outcome State Fault Refusal :=
  runPlan (planAuthb blk key uid s.cfg s.regs) s

/-- The meaning of READ (R260). -/
def execRead (blk : Int) (s : State) : Host.Outcome State Fault Refusal := runPlan (planRead blk s.cfg s.regs) s

/-- The meaning of WRITE (R270). -/
def execWrite (blk : Int) (data : List Int) (s : State) : Host.Outcome State Fault Refusal :=
  runPlan (planWrite blk data s.cfg s.regs) s

/-- The meaning of STOPCRYPTO (R280). -/
def execStopcrypto (s : State) : Host.Outcome State Fault Refusal := runPlan (planStopcrypto s.cfg s.regs) s

/-- The meaning of DUMPA (R291). -/
def execDumpa (key uid : List Int) (s : State) : Host.Outcome State Fault Refusal :=
  runPlan (planDumpa key uid s.cfg s.regs) s

/-- The meaning of DUMPB (R292). -/
def execDumpb (key uid : List Int) (s : State) : Host.Outcome State Fault Refusal :=
  runPlan (planDumpb key uid s.cfg s.regs) s

end Sys2Proof.Machine
end

