-- ==== Sys2Proof/Machine/Discovery.lean ====
section
/-! DEFINITION. The discovery operations of 44_discovery.md: REQIDL, REQALL, ANTICOLL, SELECT. -/

namespace Sys2Proof.Machine

/-- R223: Request succeeds on dispatch status OK and exactly REQ_BITS bits; anything else is GENERIC-ERROR. -/
def requestStatus (c : Params) (d : Reply) : Status := if d.status = .ok ∧ d.bits = c.source.reqBits then .ok else .genericError

/-- `Request(t)` (R223): the 7-bit framing write, then one TRANSCEIVE of the type byte. -/
def requestProg (c : Params) (t : Byte) (r : Regs) : Prog Regs :=
  (regWrite .framing c.reg.bitFraming c.framing.req).bind fun _ =>
  (dispatch c c.cmd.transceive [t]).bind fun d =>
  .done { putReply r d with status := .put (requestStatus c d) }

/-- REQIDL: `Request(PICC_REQIDL)` (R221). -/
def planReqidl (c : Params) (r : Regs) : Plan where
  reject := none
  violates := violatesDiscovery r
  prog := requestProg c c.card.reqIdl r

/-- REQALL: `Request(PICC_REQALL)` (R222). -/
def planReqall (c : Params) (r : Regs) : Plan where
  reject := none
  violates := violatesDiscovery r
  prog := requestProg c c.card.reqAll r

/-- R225 to R227: an OK dispatch is kept only with exactly UID_LEN bytes whose checksum holds, the length tested first;
every other status passes through. -/
def antiCollStatus (c : Params) (d : Reply) : Status :=
  if d.status = .ok then
    if d.len ≠ c.source.uidLen then .genericError
    else if validUid (d.resp.take 5) then .ok else .genericError
  else d.status

/-- The anti-collision round (R225): the full-byte framing write, one TRANSCEIVE of the 2-byte command, and ID taken from
RESP[0..4] in every case. -/
def antiCollProg (c : Params) (r : Regs) : Prog Regs :=
  (regWrite .framing c.reg.bitFraming c.framing.full).bind fun _ =>
  (dispatch c c.cmd.transceive [c.card.antiColl, c.card.nvbAntiColl]).bind fun d =>
  .done { putReply r d with
    status := .put (antiCollStatus c d)
    id := .put (d.resp.take 5)
    idValid := .put (decide (antiCollStatus c d = .ok)) }

/-- ANTICOLL (R225). -/
def planAnticoll (c : Params) (r : Regs) : Plan where
  reject := none
  violates := violatesDiscovery r
  prog := antiCollProg c r

/-- The select frame before its CRC (R231, 30_encoding.md R101): 9 bytes with two placeholders. -/
def selectFrame (c : Params) (uid : List Byte) : List Byte := [c.card.select, c.card.nvbSelect] ++ uid ++ [0x00, 0x00]

/-- R230: Select succeeds on dispatch status OK and exactly SEL_BITS bits. -/
def selectOk (c : Params) (d : Reply) : Bool := decide (d.status = .ok) && decide (d.bits = c.source.selBits)

/-- SelectTag (R230, R233): the CRC of the frame, its dispatch, SAK or the sentinel 0x00, and SESSION. -/
def selectProg (c : Params) (uid : List Byte) (r : Regs) : Prog Regs :=
  (crc c (selectFrame c uid)).bind fun frame =>
  (dispatch c c.cmd.transceive frame).bind fun d =>
  .done { putReply r d with
    sak := .put (if selectOk c d then d.resp.headD 0 else 0x00)
    status := .put (if selectOk c d then .ok else .genericError)
    session := if selectOk c d then .selected else .unauth }

/-- SELECT (R230). -/
def planSelect (uid : List Int) (c : Params) (r : Regs) : Plan where
  reject := checkUid c uid
  violates := violatesSelect r (toBytes uid)
  prog := selectProg c (toBytes uid) r

/-- The meaning of REQIDL (R221). -/
def execReqidl (s : State) : Host.Outcome State Fault Refusal := runPlan (planReqidl s.cfg s.regs) s

/-- The meaning of REQALL (R222). -/
def execReqall (s : State) : Host.Outcome State Fault Refusal := runPlan (planReqall s.cfg s.regs) s

/-- The meaning of ANTICOLL (R225). -/
def execAnticoll (s : State) : Host.Outcome State Fault Refusal := runPlan (planAnticoll s.cfg s.regs) s

/-- The meaning of SELECT (R230). -/
def execSelect (uid : List Int) (s : State) : Host.Outcome State Fault Refusal := runPlan (planSelect uid s.cfg s.regs) s

end Sys2Proof.Machine
end

