-- ==== Sys2Proof/Machine/RegisterPort.lean ====
section
/-! DEFINITION. The host register operations of 41_register_port.md: RDREG, WRREG, SETBITS, CLRBITS. They never touch
SESSION and never flag a violation (R150). -/

namespace Sys2Proof.Machine

/-- RDREG: `REG_VAL <- RegRead(a)` (R147). -/
def planRdreg (a : Int) (c : Params) (r : Regs) : Plan where
  reject := checkReg c a
  violates := false
  prog := (regRead .port a.toNat).bind fun v => .done { r with regVal := .put v }

/-- WRREG: `RegWrite(a, v)` (R146). -/
def planWrreg (a v : Int) (c : Params) (r : Regs) : Plan where
  reject := (checkReg c a).or (checkByte v)
  violates := false
  prog := (regWrite .port a.toNat (toByte v)).bind fun _ => .done r

/-- SETBITS: `SetBits(a, m)` (R148, R142). -/
def planSetbits (a m : Int) (c : Params) (r : Regs) : Plan where
  reject := (checkReg c a).or (checkByte m)
  violates := false
  prog := (setBits .port a.toNat (toByte m)).bind fun _ => .done r

/-- CLRBITS: `ClearBits(a, m)` (R149, R143). -/
def planClrbits (a m : Int) (c : Params) (r : Regs) : Plan where
  reject := (checkReg c a).or (checkByte m)
  violates := false
  prog := (clearBits .port a.toNat (toByte m)).bind fun _ => .done r

/-- The meaning of RDREG (R147). -/
def execRdreg (a : Int) (s : State) : Host.Outcome State Fault Refusal := runPlan (planRdreg a s.cfg s.regs) s

/-- The meaning of WRREG (R146). -/
def execWrreg (a v : Int) (s : State) : Host.Outcome State Fault Refusal := runPlan (planWrreg a v s.cfg s.regs) s

/-- The meaning of SETBITS (R148). -/
def execSetbits (a m : Int) (s : State) : Host.Outcome State Fault Refusal := runPlan (planSetbits a m s.cfg s.regs) s

/-- The meaning of CLRBITS (R149). -/
def execClrbits (a m : Int) (s : State) : Host.Outcome State Fault Refusal := runPlan (planClrbits a m s.cfg s.regs) s

end Sys2Proof.Machine
end

