-- ==== Sys2Proof/Machine/ValueTypes.lean ====
section
/-! DEFINITION. The value-type operations of 40_value_types.md: MKADDR, MKUID, MKKEY, MKDATA. None performs a transfer. -/

namespace Sys2Proof.Machine

/-- MKADDR: `BLKADDR <- s * NUM_BLOCKS + k`, the sector checked first (R120). -/
def planMkaddr (s k : Int) (c : Params) (r : Regs) : Plan where
  reject := (checkSector c s).or (checkBlockIn c k)
  violates := false
  prog := .done { r with blkAddr := .put (s * (c.source.numBlocks : Int) + k).toNat }

/-- MKUID: `ID <- uid; ID_VALID <- valid(uid)` (R124). -/
def planMkuid (uid : List Int) (c : Params) (r : Regs) : Plan where
  reject := checkUid c uid
  violates := false
  prog := .done { r with id := .put (toBytes uid), idValid := .put (validUid (toBytes uid)) }

/-- MKKEY: the key check alone; "no result register is written" (R122). -/
def planMkkey (key : List Int) (c : Params) (r : Regs) : Plan where
  reject := checkKey c key
  violates := false
  prog := .done r

/-- MKDATA: the data-block check alone; "no result register is written" (R123). -/
def planMkdata (data : List Int) (c : Params) (r : Regs) : Plan where
  reject := checkData c data
  violates := false
  prog := .done r

/-- The meaning of MKADDR (R120). -/
def execMkaddr (s k : Int) (st : State) : Host.Outcome State Fault Refusal := runPlan (planMkaddr s k st.cfg st.regs) st

/-- The meaning of MKUID (R124). -/
def execMkuid (uid : List Int) (s : State) : Host.Outcome State Fault Refusal := runPlan (planMkuid uid s.cfg s.regs) s

/-- The meaning of MKKEY (R122). -/
def execMkkey (key : List Int) (s : State) : Host.Outcome State Fault Refusal := runPlan (planMkkey key s.cfg s.regs) s

/-- The meaning of MKDATA (R123). -/
def execMkdata (data : List Int) (s : State) : Host.Outcome State Fault Refusal := runPlan (planMkdata data s.cfg s.regs) s

end Sys2Proof.Machine
end

