-- ==== Sys2Proof/Machine/Dispatch.lean ====
section
/-! DEFINITION. One arm per operation of opcode_table.json: the whole operation as one step (00_scope.md R9). -/

namespace Sys2Proof.Machine

def exec (i : Instr) (s : State) : Host.Outcome State Fault Refusal :=
  match i with
  | .rdreg a => Sys2Proof.Machine.execRdreg a s
  | .wrreg a v => Sys2Proof.Machine.execWrreg a v s
  | .setbits a m => Sys2Proof.Machine.execSetbits a m s
  | .clrbits a m => Sys2Proof.Machine.execClrbits a m s
  | .calccrc buf => Sys2Proof.Machine.execCalccrc buf s
  | .exec cmd out => Sys2Proof.Machine.execExec cmd out s
  | .mkaddr n k => Sys2Proof.Machine.execMkaddr n k s
  | .mkuid uid => Sys2Proof.Machine.execMkuid uid s
  | .mkkey key => Sys2Proof.Machine.execMkkey key s
  | .mkdata data => Sys2Proof.Machine.execMkdata data s
  | .reqidl => Sys2Proof.Machine.execReqidl s
  | .reqall => Sys2Proof.Machine.execReqall s
  | .anticoll => Sys2Proof.Machine.execAnticoll s
  | .select uid => Sys2Proof.Machine.execSelect uid s
  | .autha blk key uid => Sys2Proof.Machine.execAutha blk key uid s
  | .authb blk key uid => Sys2Proof.Machine.execAuthb blk key uid s
  | .read blk => Sys2Proof.Machine.execRead blk s
  | .write blk data => Sys2Proof.Machine.execWrite blk data s
  | .stopcrypto => Sys2Proof.Machine.execStopcrypto s
  | .dumpa key uid => Sys2Proof.Machine.execDumpa key uid s
  | .dumpb key uid => Sys2Proof.Machine.execDumpb key uid s

end Sys2Proof.Machine
end

