-- ==== Sys2Proof/Machine/Transfers.lean ====
section
/-! DEFINITION. The block one transfer at a time (00_scope.md R8, 10_state.md R22, R23): an operation begun at IDLE, and the
next transfer of the one in progress. It uses the same plans as exec, so both run the same operation. -/

namespace Sys2Proof.Machine

/-- The plan of each operation: the one its meaning runs. -/
def planOf (i : Instr) (c : Params) (r : Regs) : Plan :=
  match i with
  | .rdreg a => planRdreg a c r
  | .wrreg a v => planWrreg a v c r
  | .setbits a m => planSetbits a m c r
  | .clrbits a m => planClrbits a m c r
  | .calccrc buf => planCalccrc buf c r
  | .exec cmd out => planExec cmd out c r
  | .mkaddr s k => planMkaddr s k c r
  | .mkuid uid => planMkuid uid c r
  | .mkkey key => planMkkey key c r
  | .mkdata data => planMkdata data c r
  | .reqidl => planReqidl c r
  | .reqall => planReqall c r
  | .anticoll => planAnticoll c r
  | .select uid => planSelect uid c r
  | .autha blk key uid => planAutha blk key uid c r
  | .authb blk key uid => planAuthb blk key uid c r
  | .read blk => planRead blk c r
  | .write blk data => planWrite blk data c r
  | .stopcrypto => planStopcrypto c r
  | .dumpa key uid => planDumpa key uid c r
  | .dumpb key uid => planDumpb key uid c r

/-- The operation offered and left to run one transfer per step (R22, R23). -/
def beginOp (i : Instr) (s : State) : Host.Outcome State Fault Refusal :=
  guarded s (.next (beginPlan i (planOf i s.cfg s.regs) s))

/-- What is left of the operation in progress (R22); its start state's registers are the state's, since they are written
only at the end of the operation (00_scope.md R9). -/
def remaining (i : Instr) (pos : Nat) (answers : List Byte) (s : State) : Prog Regs :=
  (planOf i s.cfg s.regs).prog.replay pos answers

/-- One step with nothing new from the host: a BUSY block performs its next transfer; an IDLE block waits
(70_reset_and_hazards.md R341). -/
def advance (s : State) : State :=
  match s.phase with
  | .idle => s
  | .busy i pos answers => transferStep i pos answers (remaining i pos answers s) s

/-- The stage of the next transfer of the operation in progress, the phase name of 43_command_channel.md R196; none at
IDLE. -/
def nextStage (s : State) : Option Stage :=
  match s.phase with
  | .idle => none
  | .busy i pos answers =>
    match remaining i pos answers s with
    | .read st _ _ => some st
    | .write st _ _ _ => some st
    | .done _ => none
    | .work _ _ => none

end Sys2Proof.Machine
end

