-- ==== Sys2Proof/Machine/HostPort.lean ====
section
/-! DEFINITION. The upward interface (00_scope.md R8 (3)): operations offered, the block reset, and result registers read by
the host. -/

namespace Sys2Proof.Machine

/-- What an offer holds: the operation, or why there is none (30_encoding.md R94). The bytes after a serial operation are
not part of it (log 13). -/
def readOffer (o : Offer) : Decoded :=
  match o with
  | .serial bytes => decode bytes
  | .text i => .op i []

/-- A reserved descriptor: REJECTED(E_OPC) before any transfer, after the E_BUSY check (30_encoding.md R93,
60_exceptions.md R302). -/
def rejectReserved (s : State) : State :=
  match s.phase with
  | .busy _ _ _ => rejectBusy s
  | .idle => reject .eOpc s

/-- An operation offered and run to its end in this step: `exec` of it (R9). -/
def offerOp (o : Offer) (s : State) : Host.Outcome State Fault Refusal :=
  match readOffer o with
  | .op i _ => exec i s
  | .reserved _ => guarded s (.next (rejectReserved s))
  | .incomplete => guarded s (.refused .incompleteOffer)

/-- An operation offered and begun: one step per transfer follows (R8). -/
def beginOffer (o : Offer) (s : State) : Host.Outcome State Fault Refusal :=
  match readOffer o with
  | .op i _ => beginOp i s
  | .reserved _ => guarded s (.next (rejectReserved s))
  | .incomplete => guarded s (.refused .incompleteOffer)

/-- Whether a result register has been written since reset (10_state.md R24, R36). -/
def resultWritten (r : ResultReg) (s : State) : Bool :=
  match r with
  | .outcome => s.outcome.written
  | .status => s.regs.status.written
  | .resp => s.regs.resp.written
  | .respLen => s.regs.respLen.written
  | .respBits => s.regs.respBits.written
  | .regVal => s.regs.regVal.written
  | .crcBuf => s.regs.crcBuf.written
  | .blkAddr => s.regs.blkAddr.written
  | .id => s.regs.id.written
  | .idValid => s.regs.idValid.written
  | .sak => s.regs.sak.written
  | .blockOut => s.regs.blockOut.written
  | .dumpOut => s.regs.dumpOut.written
  | .dumpMask => s.regs.dumpMask.written

/-- The value of a result register, as the host reads it (10_state.md R24). -/
def resultValue (r : ResultReg) (s : State) : HostData :=
  match r with
  | .outcome => .outcome s.outcome.value
  | .status => .status s.regs.status.value
  | .resp => .bytes s.regs.resp.value
  | .respLen => .integer s.regs.respLen.value
  | .respBits => .integer s.regs.respBits.value
  | .regVal => .byte s.regs.regVal.value
  | .crcBuf => .bytes s.regs.crcBuf.value
  | .blkAddr => .integer s.regs.blkAddr.value
  | .id => .bytes s.regs.id.value
  | .idValid => .flag s.regs.idValid.value
  | .sak => .byte s.regs.sak.value
  | .blockOut => .bytes s.regs.blockOut.value
  | .dumpOut => .blocks s.regs.dumpOut.value
  | .dumpMask => .mask s.regs.dumpMask.value

/-- A host read of a result register: only at IDLE, and a fault where nothing has written it since reset (R24). -/
def hostRead (r : ResultReg) (s : State) : Host.Outcome State Fault Refusal :=
  match s.phase with
  | .busy _ _ _ => .fault (.readWhileBusy r)
  | .idle =>
    if resultWritten r s then .next { s with hostData := resultValue r s } else .fault (.unwrittenRead r)

/-- One step with the host input `ev`, already taken off the queue. -/
def hostEvent (ev : HostEvent) (s : State) : Host.Outcome State Fault Refusal :=
  match ev with
  | .offer o => offerOp o s
  | .begin o => beginOffer o s
  | .tick => guarded s (.next (advance s))
  | .reset => guarded s (.next (resetBlock s))
  | .read r => guarded s (hostRead r s)

/-- One step with no host input. -/
def quietStep (s : State) : Host.Outcome State Fault Refusal := guarded s (.next (advance s))

/-- The machine with a serial operation as the host's next input (log 20). -/
def placeOffer (bytes : List Byte) (s : State) : State := { s with host := .offer (.serial bytes) :: s.host }

end Sys2Proof.Machine
end

