-- ==== Sys2Proof/Machine/Step.lean ====
section
/-! DEFINITION. One step of the machine: the host's next input, or none. -/

namespace Sys2Proof.Machine

/-- One step: with an input pending the block takes it; with none, BUSY performs a transfer and IDLE waits. -/
def step (s : State) : Host.Outcome State Fault Refusal :=
  match s.host with
  | [] => quietStep s
  | ev :: rest => hostEvent ev { s with host := rest }

/-- `s` with the operation of bits `w` as the host's next offer, so that the very next step runs it (log 20, log 22). -/
def State.withFetchWord (s : State) (nbits w : Nat) : State := placeOffer (serialBytes nbits w) s

end Sys2Proof.Machine
end

