-- ==== Sys2Proof/Safety.lean ====
section
/-! DEFINITION. What claims about this machine speak of: a state that can accept an operation, what a bus transfer shows,
which registers an operation may write, and the invariant that every step keeps. -/

namespace Sys2Proof.Machine

/-- The block accepts an operation: its configuration is legal (00_scope.md R11) and PHASE = IDLE (10_state.md R23). -/
def State.Ready (s : State) : Prop := paramsLegal s.cfg = true ∧ s.phase = .idle

/-- A claim's premise "VIOLATION = 0" (10_state.md R28, 60_exceptions.md R307). -/
def State.Clean (s : State) : Prop := s.violation = false

/-! ### What a transfer shows -/

/-- The transport failed the transfer (41_register_port.md R144). -/
def Xfer.failed : Xfer → Bool
  | .write _ _ _ _ f => f
  | .read _ _ _ _ _ f => f

/-- The chip register the transfer is for. -/
def Xfer.reg : Xfer → Nat
  | .write _ a _ _ _ => a
  | .read _ a _ _ _ _ => a

/-- The stage of the transfer. -/
def Xfer.stage : Xfer → Stage
  | .write st _ _ _ _ => st
  | .read st _ _ _ _ _ => st

/-- The transfer with its transport outcome forgotten. -/
def Xfer.content : Xfer → Xfer
  | .write st a ab v _ => .write st a ab v false
  | .read st a ab pb v _ => .read st a ab pb v false

/-- The two bytes sent are those of 20_memory.md R61 for the transfer's register. -/
def Xfer.WireOk (c : Params) : Xfer → Prop
  | .write _ a ab _ _ => ab = busWriteAddr c a
  | .read _ a ab pb _ _ => ab = busReadAddr c a ∧ pb = c.bus.dummy

/-- The payload, if the transfer is a write in the FILL phase of a dispatch: a frame byte (43_command_channel.md R183). -/
def Xfer.fillByte : Xfer → Option Byte
  | .write .fill _ _ v _ => some v
  | _ => none

/-- The frame bytes among transfers given newest first, in the order they were sent. -/
def fillBytes (xs : List Xfer) : List Byte := xs.reverse.filterMap Xfer.fillByte

/-- The chip registers of 20_memory.md R66 to R76, the only ones a sequencer operation touches (R77). -/
def sequencerRegs (c : Params) : List Nat :=
  [c.reg.command, c.reg.comIEn, c.reg.comIrq, c.reg.divIrq, c.reg.error, c.reg.status2, c.reg.fifoData, c.reg.fifoLevel,
    c.reg.control, c.reg.bitFraming, c.reg.crcResultM, c.reg.crcResultL]

/-- A transfer as the traces of 95_test_vectors.md write it: `WRaa=vv` or `RDaa=vv`. -/
inductive BusOp where
  | wr (reg : Nat) (v : Byte)
  | rd (reg : Nat) (v : Byte)
deriving DecidableEq, Repr

/-- The transfer's direction, register and byte. -/
def Xfer.busOp : Xfer → BusOp
  | .write _ a _ v _ => .wr a v
  | .read _ a _ _ v _ => .rd a v

/-- The transfers seen so far, in the order they were made. -/
def busLog (p : Port) : List BusOp := p.trace.reverse.map Xfer.busOp

/-- The two transfers of a read-modify-write that read `v` and wrote `v'` (41_register_port.md R142, R143). -/
def rmwLog (a : Nat) (v v' : Byte) : List BusOp := [.rd a v, .wr a v']

/-! ### A chip that answers as scripted -/

/-- The chip's answers to one CRC run: the two clearing reads, the polls without the done flag, the last poll, and the
two result bytes (42_crc_engine.md R160 to R163). -/
structure CrcScript where
  clear : Byte
  flush : Byte
  quiet : List Byte
  last  : Byte
  lo    : Byte
  hi    : Byte
deriving DecidableEq, Repr

/-- The answers in the order the run reads them. -/
def CrcScript.answers (k : CrcScript) : List Byte := k.clear :: k.flush :: (k.quiet ++ [k.last, k.lo, k.hi])

/-- The poll ends at `last` (R162): no earlier answer has the done flag, and `last` has it or is poll CRC_POLL_LIMIT. -/
def CrcScript.Ok (c : Params) (k : CrcScript) : Prop :=
  (∀ n ∈ k.quiet, crcDone c n = false) ∧
  (k.quiet.length + 1 = c.crcPollLimit ∨ (k.quiet.length + 1 < c.crcPollLimit ∧ crcDone c k.last = true))

/-- The transfers of a CRC run over `body` (the buffer without its last two bytes), in order. -/
def CrcScript.log (c : Params) (k : CrcScript) (body : List Byte) : List BusOp :=
  rmwLog c.reg.divIrq k.clear (k.clear &&& ~~~c.mask.crcIrq) ++
  rmwLog c.reg.fifoLevel k.flush (k.flush ||| c.mask.fifoFlush) ++
  body.map (.wr c.reg.fifoData) ++ [.wr c.reg.command c.cmd.calcCrc] ++
  (k.quiet ++ [k.last]).map (.rd c.reg.divIrq) ++
  [.rd c.reg.crcResultL k.lo, .rd c.reg.crcResultM k.hi]

/-- The chip's answers to one dispatch that its poll does not exhaust: the two clearing reads, the framing read of
start-send, the polls that do not stop, the one that does, the framing read of the final clear, the error register, and
the level, the valid-bit count and the FIFO bytes (43_command_channel.md R182 to R192). -/
structure DispatchScript where
  irq    : Byte
  flush  : Byte
  frame  : Byte
  quiet  : List Byte
  stop   : Byte
  frame2 : Byte
  err    : Byte
  level  : Byte
  ctl    : Byte
  fifo   : List Byte
deriving DecidableEq, Repr

/-- The answers up to the end of the poll and the final clear, in the order the dispatch reads them. -/
def DispatchScript.pollAnswers (kd : Kind) (x : DispatchScript) : List Byte :=
  x.irq :: x.flush :: ((if kd = .transceive then [x.frame] else []) ++ (x.quiet ++ [x.stop, x.frame2]))

/-- All the answers of a successful dispatch, in order. -/
def DispatchScript.answers (kd : Kind) (x : DispatchScript) : List Byte :=
  x.pollAnswers kd ++ (x.err :: if kd = .transceive then x.level :: x.ctl :: x.fifo else [])

/-- The poll stops at `stop`, before POLL_LIMIT (R185). -/
def DispatchScript.Stops (c : Params) (kd : Kind) (x : DispatchScript) : Prop :=
  (∀ n ∈ x.quiet, stopsPoll c (waitIrqOf c kd) n = false) ∧ stopsPoll c (waitIrqOf c kd) x.stop = true ∧
  x.quiet.length + 1 < c.pollLimit

/-- The dispatch succeeds: the poll stops, no error bit is set, and the FIFO gives as many bytes as the level says (R188,
R192). -/
def DispatchScript.Ok (c : Params) (kd : Kind) (x : DispatchScript) : Prop :=
  x.Stops c kd ∧ hasError c x.err = false ∧ x.fifo.length = byteCount c (levelOf c x.level)

/-- The reply of a successful dispatch (R189 to R192); no readback but for TRANSCEIVE (R199). -/
def DispatchScript.reply (c : Params) (kd : Kind) (x : DispatchScript) : Reply :=
  if kd = .transceive then
    ⟨timerStatus c (irqEnOf c kd) x.stop, padResp c x.fifo, byteCount c (levelOf c x.level),
      bitCount (levelOf c x.level) (lastBitsOf c x.ctl)⟩
  else ⟨timerStatus c (irqEnOf c kd) x.stop, zeros c.source.maxLen, 0, 0⟩

/-- The transfers of a dispatch up to the final clear of start-send (R181 to R186), in order. -/
def DispatchScript.pollLog (c : Params) (kd : Kind) (cmd : Byte) (out : List Byte) (x : DispatchScript) : List BusOp :=
  (if c.policy.writeIrqEnable then [.wr c.reg.comIEn (irqEnOf c kd ||| c.mask.irqInv)] else []) ++
  rmwLog c.reg.comIrq x.irq (x.irq &&& ~~~c.mask.comIrqSet1) ++
  rmwLog c.reg.fifoLevel x.flush (x.flush ||| c.mask.fifoFlush) ++
  [.wr c.reg.command c.cmd.idle] ++ out.map (.wr c.reg.fifoData) ++ [.wr c.reg.command cmd] ++
  (if kd = .transceive then rmwLog c.reg.bitFraming x.frame (x.frame ||| c.mask.startSend) else []) ++
  (x.quiet ++ [x.stop]).map (.rd c.reg.comIrq) ++
  rmwLog c.reg.bitFraming x.frame2 (x.frame2 &&& ~~~c.mask.startSend)

/-- The transfers of a successful dispatch, in order. -/
def DispatchScript.log (c : Params) (kd : Kind) (cmd : Byte) (out : List Byte) (x : DispatchScript) : List BusOp :=
  x.pollLog c kd cmd out ++ (.rd c.reg.error x.err ::
    if kd = .transceive then
      .rd c.reg.fifoLevel x.level :: .rd c.reg.control x.ctl :: x.fifo.map (.rd c.reg.fifoData)
    else [])

/-! Any end of a dispatch: exhaustion, an error bit, or success. -/

/-- The poll runs to POLL_LIMIT: exhaustion, whatever its last answer (R187). -/
def DispatchScript.exhausts (c : Params) (x : DispatchScript) : Bool := decide (x.quiet.length + 1 = c.pollLimit)

/-- The dispatch runs as scripted, to any of its ends: no answer but the last stops the poll, the last is poll POLL_LIMIT or
stops it earlier, and a readback finds as many FIFO bytes as the level says. -/
def DispatchScript.Runs (c : Params) (kd : Kind) (x : DispatchScript) : Prop :=
  (∀ n ∈ x.quiet, stopsPoll c (waitIrqOf c kd) n = false) ∧
  (x.exhausts c = true ∨
    (stopsPoll c (waitIrqOf c kd) x.stop = true ∧ x.quiet.length + 1 < c.pollLimit ∧
      (hasError c x.err = false → kd = .transceive → x.fifo.length = byteCount c (levelOf c x.level))))

/-- The answers the dispatch reads, in order. -/
def DispatchScript.endAnswers (c : Params) (kd : Kind) (x : DispatchScript) : List Byte :=
  if x.exhausts c then x.pollAnswers kd
  else if hasError c x.err then x.pollAnswers kd ++ [x.err]
  else x.answers kd

/-- Its reply (R187 to R192). -/
def DispatchScript.endReply (c : Params) (kd : Kind) (x : DispatchScript) : Reply :=
  if x.exhausts c || hasError c x.err then clearedReply c .genericError else x.reply c kd

/-- Its transfers, in order. -/
def DispatchScript.endLog (c : Params) (kd : Kind) (cmd : Byte) (out : List Byte) (x : DispatchScript) : List BusOp :=
  if x.exhausts c then x.pollLog c kd cmd out
  else if hasError c x.err then x.pollLog c kd cmd out ++ [.rd c.reg.error x.err]
  else x.log c kd cmd out

/-- The dispatch working registers after its poll ended at `last` with `remain` iterations left: LAST_IRQ and CNT keep their
final values (10_state.md R33); that KIND, IRQ_EN and WAIT_IRQ keep theirs is the model's choice (log 36). -/
def workAfterPoll (c : Params) (kd : Kind) (last : Byte) (remain : Nat) (w : Work) : Work :=
  { w with kind := kd, irqEn := irqEnOf c kd, waitIrq := waitIrqOf c kd, cnt := remain, lastIrq := last,
           pollLastIrq := last, pollRemain := remain }

/-- A list of bytes as operands. -/
def ints (bs : List Byte) : List Int := bs.map byteVal

/-- The chip's answers to one block of a dump: the authentication's dispatch and Status2 byte and, where that ends OK, the
read's CRC run and dispatch (45_access.md R290). -/
structure BlockScript where
  auth : DispatchScript
  s2   : Byte
  crc  : CrcScript
  read : DispatchScript
deriving DecidableEq, Repr

/-- The kind of the dispatch of a read: TRANSCEIVE, unless the configuration gives AUTHENT the same code (R180). -/
def readKind (c : Params) : Kind := selectKind c c.cmd.transceive

/-- The authentication ends OK: the crypto bit is set and the dispatch is OK (R250, R251). -/
def BlockScript.authed (c : Params) (b : BlockScript) : Bool :=
  decide (b.s2 &&& c.mask.crypto1On ≠ 0) && decide ((b.auth.endReply c .authent).status = .ok)

/-- The block is read: it is authenticated, and the read's dispatch gives 16 bytes (and status OK under READ_REQUIRES_OK,
R259). -/
def BlockScript.got (c : Params) (b : BlockScript) : Bool :=
  b.authed c && decide ((b.read.endReply c (readKind c)).len = 16) &&
    (decide ((b.read.endReply c (readKind c)).status = .ok) || !c.policy.readRequiresOk)

/-- The reply of the last dispatch of the block. -/
def BlockScript.lastReply (c : Params) (b : BlockScript) : Reply :=
  if b.authed c then b.read.endReply c (readKind c) else b.auth.endReply c .authent

/-- All the answers for one block, in order. -/
def BlockScript.answers (c : Params) (b : BlockScript) : List Byte :=
  b.auth.endAnswers c .authent ++ b.s2 :: if b.authed c then b.crc.answers ++ b.read.endAnswers c (readKind c) else []

/-- The transfers of block n of a dump, in order: the authentication frame and, if it succeeds, the read frame (R250, R259,
30_encoding.md R102, R103). -/
def BlockScript.log (c : Params) (mode : Byte) (key uid : List Byte) (n : Nat) (b : BlockScript) : List BusOp :=
  b.auth.endLog c .authent c.cmd.authent ([mode, BitVec.ofNat 8 n] ++ key ++ uid.take 4) ++ .rd c.reg.status2 b.s2 ::
    if b.authed c then
      b.crc.log c [c.card.read, BitVec.ofNat 8 n] ++
      b.read.endLog c (readKind c) c.cmd.transceive [c.card.read, BitVec.ofNat 8 n, b.crc.lo, b.crc.hi]
    else []

/-- The block's runs are as scripted, whatever they end in; the read runs only in an authenticated block. -/
structure BlockScript.Ok (c : Params) (b : BlockScript) : Prop where
  auth : b.auth.Runs c .authent
  crc : b.authed c = true → b.crc.Ok c
  read : b.authed c = true → b.read.Runs c (readKind c)

/-- The frame bytes of block n of a dump: the authentication frame and, where a read follows, the read frame with its CRC
bytes (30_encoding.md R102, R103). -/
def dumpFrames (c : Params) (mode : Byte) (key uid : List Byte) (n : Nat) (read : Option (Byte × Byte)) : List Byte :=
  [mode, BitVec.ofNat 8 n] ++ key ++ uid.take 4 ++
    match read with
    | none => []
    | some (lo, hi) => [c.card.read, BitVec.ofNat 8 n, lo, hi]

/-! ### Host inputs at BUSY -/

/-- The host does nothing for a step. -/
def HostEvent.isTick : HostEvent → Bool
  | .tick => true
  | .offer _ => false
  | .begin _ => false
  | .reset => false
  | .read _ => false

/-- The host offers an operation or a reserved descriptor, to run whole or to begin (not the bytes of neither, log 14). -/
def HostEvent.offers : HostEvent → Bool
  | .offer o => decide (readOffer o ≠ .incomplete)
  | .begin o => decide (readOffer o ≠ .incomplete)
  | .tick => false
  | .reset => false
  | .read _ => false

/-- An operation's violation condition at its start, the cases V1 to V4 of 60_exceptions.md R305. -/
def violationCase (c : Params) (r : Regs) (i : Instr) : Prop :=
  match i with
  | .reqidl | .reqall | .anticoll => r.session = .auth
  | .select uid => r.session = .auth ∨ validUid (toBytes uid) = false
  | .autha _ _ uid | .authb _ _ uid => r.session ≠ .selected ∨ validUid (toBytes uid) = false
  | .dumpa _ uid | .dumpb _ uid => r.session ≠ .selected ∨ validUid (toBytes uid) = false
  | .read blk | .write blk _ =>
    r.session ≠ .auth ∨ (c.policy.authGranularity = .block ∧ r.authBlk.value ≠ blk.toNat) ∨
      (c.policy.authGranularity = .sector ∧ r.authBlk.value / 4 ≠ blk.toNat / 4)
  | _ => False

/-! ### Which registers an operation may write -/

/-- The "written by" column of 10_state.md R24, with OUTCOME left to every operation. -/
def mayWrite (i : Instr) (r : ResultReg) : Bool :=
  match i, r with
  | _, .outcome => true
  | .rdreg _, .regVal => true
  | .calccrc _, .crcBuf => true
  | .exec _ _, .status | .exec _ _, .resp | .exec _ _, .respLen | .exec _ _, .respBits => true
  | .mkaddr _ _, .blkAddr => true
  | .mkuid _, .id | .mkuid _, .idValid => true
  | .reqidl, .status | .reqidl, .resp | .reqidl, .respLen | .reqidl, .respBits => true
  | .reqall, .status | .reqall, .resp | .reqall, .respLen | .reqall, .respBits => true
  | .anticoll, .status | .anticoll, .resp | .anticoll, .respLen | .anticoll, .respBits => true
  | .anticoll, .id | .anticoll, .idValid => true
  | .select _, .status | .select _, .resp | .select _, .respLen | .select _, .respBits | .select _, .sak => true
  | .autha _ _ _, .status | .autha _ _ _, .resp | .autha _ _ _, .respLen | .autha _ _ _, .respBits => true
  | .authb _ _ _, .status | .authb _ _ _, .resp | .authb _ _ _, .respLen | .authb _ _ _, .respBits => true
  | .read _, .status | .read _, .resp | .read _, .respLen | .read _, .respBits | .read _, .blockOut => true
  | .write _ _, .status | .write _ _, .resp | .write _ _, .respLen | .write _ _, .respBits => true
  | .stopcrypto, .status => true
  | .dumpa _ _, .status | .dumpa _ _, .resp | .dumpa _ _, .respLen | .dumpa _ _, .respBits => true
  | .dumpa _ _, .dumpOut | .dumpa _ _, .dumpMask => true
  | .dumpb _ _, .status | .dumpb _ _, .resp | .dumpb _ _, .respLen | .dumpb _ _, .respBits => true
  | .dumpb _ _, .dumpOut | .dumpb _ _, .dumpMask => true
  | _, _ => false

/-- The operation is one of those that may change SESSION (60_exceptions.md R320). -/
def mayChangeSession (i : Instr) : Bool :=
  match i with
  | .select _ => true
  | .autha _ _ _ => true
  | .authb _ _ _ => true
  | .stopcrypto => true
  | .dumpa _ _ => true
  | .dumpb _ _ => true
  | _ => false

/-- One of the host register operations, which can reach any chip register (20_memory.md R77). -/
def isRegisterOp (i : Instr) : Bool :=
  match i with
  | .rdreg _ => true
  | .wrreg _ _ => true
  | .setbits _ _ => true
  | .clrbits _ _ => true
  | _ => false

/-! ### The invariant -/

/-- The session and result registers are as 10_state.md R24 and R30 give them: RESP is 16 bytes with zeros from RESP_LEN on,
RESP_LEN ≤ 16, BLKADDR and AUTH_BLK below 64, AUTH_BLK written while AUTH, ID 5 bytes and valid where ID_VALID says so,
BLOCK_OUT 16 bytes, DUMP_OUT 64 slots of 16 bytes, each zero where DUMP_MASK has a 0. -/
structure RegsOk (r : Regs) : Prop where
  respLength : r.resp.value.length = 16
  respLen : r.respLen.value ≤ 16
  respPad : r.resp.value.drop r.respLen.value = zeros (16 - r.respLen.value)
  blkAddr : r.blkAddr.value < 64
  authBlk : r.authBlk.value < 64
  authWritten : r.session = .auth → r.authBlk.written = true
  idLength : r.id.value.length = 5
  idValid : r.idValid.value = true → validUid r.id.value = true
  blockOut : r.blockOut.value.length = 16
  dumpLength : r.dumpOut.value.length = 64
  dumpSlots : ∀ b, b < 64 → (r.dumpOut.value.getD b []).length = 16
  dumpZero : ∀ b, b < 64 → r.dumpMask.value.getLsbD b = false → r.dumpOut.value.getD b [] = zeros 16

/-- The counters of the working registers are within their bounds (10_state.md R33, R34). -/
structure WorkOk (c : Params) (w : Work) : Prop where
  cnt : w.cnt ≤ c.pollLimit
  pollRemain : w.pollRemain ≤ c.pollLimit
  crcCnt : w.crcCnt ≤ c.crcPollLimit
  crcRemain : w.crcRemain ≤ c.crcPollLimit

/-- The bus interface: every transfer seen is counted, has the wire bytes of R61, and XFER_FAILS counts no more than the
failed ones. -/
structure PortOk (c : Params) (p : Port) : Prop where
  count : p.count = p.trace.length
  wire : ∀ x ∈ p.trace, x.WireOk c
  fails : p.xferFails ≤ p.trace.countP Xfer.failed

/-- The operation in progress, if there is one, passed its operand checks (60_exceptions.md R300). -/
def PhaseOk (s : State) : Prop :=
  ∀ i pos answers, s.phase = .busy i pos answers → (planOf i s.cfg s.regs).reject = none

/-- The invariant of the machine. -/
structure State.Inv (s : State) : Prop where
  legal : paramsLegal s.cfg = true
  regs : RegsOk s.regs
  work : WorkOk s.cfg s.work
  port : PortOk s.cfg s.port
  phase : PhaseOk s

end Sys2Proof.Machine
end

