-- ==== Sys2Proof/Certificates/Slice0/Obligations.lean ====
section
/-! DEFINITION. The statements for the provers, from the numbered rules of the spec. -/

open Sys2Proof Sys2Proof.Machine

/-! ### Encoding (30_encoding.md) -/

/-- R92, R95: serial words of every family, written out from the spec's own examples (95_test_vectors.md P1 to P7),
decode to the operation they stand for. -/
def Obligations.SpecWordsDecode : Prop :=
  decode [0x02, 0x0D, 0x07] = .op (.wrreg 0x0D 0x07) [] ∧
  decode [0x10, 0x04, 0x30, 0x02, 0x00, 0x00] = .op (.calccrc [0x30, 0x02, 0x00, 0x00]) [] ∧
  decode [0x11, 0x0C, 0x01, 0x26] = .op (.exec 0x0C [0x26]) [] ∧
  decode [0x20, 0xFF, 0x00] = .op (.mkaddr (-1) 0) [] ∧
  decode [0x33, 0x05, 0xDE, 0xAD, 0xBE, 0xEF, 0x22] = .op (.select [0xDE, 0xAD, 0xBE, 0xEF, 0x22]) [] ∧
  decode [0x40, 0x02, 0x06, 0xFF, 0xFF, 0xFF, 0xFF, 0xFF, 0xFF, 0x05, 0xDE, 0xAD, 0xBE, 0xEF, 0x22] =
    .op (.autha 2 [0xFF, 0xFF, 0xFF, 0xFF, 0xFF, 0xFF] [0xDE, 0xAD, 0xBE, 0xEF, 0x22]) [] ∧
  decode [0x50, 0x00, 0x00] = .op (.dumpa [] []) []

/-- R95: the serial form drops no bit of a serial operation: decoding its encoding gives it back, with the bytes after
it. -/
def Obligations.DecodeOfEncode : Prop :=
  ∀ (i : Instr) (rest : List Byte), i.wellFormed = true → decode (encode i ++ rest) = .op i rest

/-- R94, R95: no two byte strings stand for one operation: what decodes is well formed and encodes back to the bytes
taken. -/
def Obligations.EncodeOfDecode : Prop :=
  ∀ (bs rest : List Byte) (i : Instr), decode bs = .op i rest → i.wellFormed = true ∧ encode i ++ rest = bs

/-- R93: the reserved descriptors are exactly 0x00, 0x05 to 0x0F, 0x12 to 0x1F, 0x24 to 0x2F, 0x34 to 0x3F, 0x45 to 0x4F
and 0x52 to 0xFF, and one offered to a ready block is rejected with E_OPC, without a transfer and without any other
change. -/
def Obligations.ReservedDescriptorsRejected : Prop :=
  (∀ (b : Byte) (rest : List Byte), decode (b :: rest) = .reserved b ↔
    (b.toNat = 0x00 ∨ (0x05 ≤ b.toNat ∧ b.toNat ≤ 0x0F) ∨ (0x12 ≤ b.toNat ∧ b.toNat ≤ 0x1F) ∨
      (0x24 ≤ b.toNat ∧ b.toNat ≤ 0x2F) ∨ (0x34 ≤ b.toNat ∧ b.toNat ≤ 0x3F) ∨ (0x45 ≤ b.toNat ∧ b.toNat ≤ 0x4F) ∨
      0x52 ≤ b.toNat)) ∧
  (∀ (s : State) (bytes : List Byte) (b : Byte) (rest : List HostEvent), s.Ready →
    (s.host = .offer (.serial bytes) :: rest ∨ s.host = .begin (.serial bytes) :: rest) → decode bytes = .reserved b →
    step s = .next { s with host := rest, outcome := .put (.rejected .eOpc) })

/-! ### Steps, the host and reset (00_scope.md R8, R9; 10_state.md R22 to R24; 70_reset_and_hazards.md R340, R341) -/

/-- A step runs the decoded operation: with a serial offer next, step is exec of the operation its bytes decode to, at the
state without that offer; with a textual offer, exec of the operation offered; with an operation offered to begin (log 33),
in either form, beginOp of it; with a tick, or with nothing from the host (log 32), `advance`: the next transfer of the
operation in progress. `withFetchWord` places an offer (log 20). -/
def Obligations.StepRunsOfferedOperation : Prop :=
  (∀ (s : State) (bytes tail : List Byte) (i : Instr) (rest : List HostEvent),
    s.host = .offer (.serial bytes) :: rest → decode bytes = .op i tail → step s = exec i { s with host := rest }) ∧
  (∀ (s : State) (i : Instr) (rest : List HostEvent),
    s.host = .offer (.text i) :: rest → step s = exec i { s with host := rest }) ∧
  (∀ (s : State) (bytes tail : List Byte) (i : Instr) (rest : List HostEvent),
    s.host = .begin (.serial bytes) :: rest → decode bytes = .op i tail → step s = beginOp i { s with host := rest }) ∧
  (∀ (s : State) (i : Instr) (rest : List HostEvent),
    s.host = .begin (.text i) :: rest → step s = beginOp i { s with host := rest }) ∧
  (∀ (s : State) (rest : List HostEvent), paramsLegal s.cfg = true →
    (s.host = .tick :: rest ∨ (s.host = [] ∧ rest = [])) → step s = .next (advance { s with host := rest })) ∧
  (∀ (s : State) (nbits w : Nat) (i : Instr), decodeTableWord nbits w = some i →
    step (s.withFetchWord nbits w) = exec i s)

/-- R306: an operation offered while PHASE = BUSY, whole or begun, is rejected with E_BUSY and sets VIOLATION, and nothing
else changes: the operation in progress, its position and its answers stay. So is a reserved descriptor, by the model's
reading of R302's order of checks (log 28). That OUTCOME is written at once is the model's reading (log 18). How the
operation in progress goes on is `OperationContinuesAmongHostInputs`. -/
def Obligations.BusyOfferRejected : Prop :=
  ∀ (s : State) (op : Instr) (pos : Nat) (answers : List Byte), paramsLegal s.cfg = true →
    s.phase = .busy op pos answers →
    (∀ i : Instr, exec i s = .next { s with outcome := .put (.rejected .eBusy), violation := true } ∧
      beginOp i s = .next { s with outcome := .put (.rejected .eBusy), violation := true }) ∧
    (∀ (o : Offer) (rest : List HostEvent), (s.host = .offer o :: rest ∨ s.host = .begin o :: rest) →
      readOffer o ≠ .incomplete →
      step s = .next { s with host := rest, outcome := .put (.rejected .eBusy), violation := true })

/-- R11: a configuration with a poll bound of 0 or a register address above REG_ADDR_MAX is refused as a whole: no step has
a meaning. -/
def Obligations.IllegalConfigRefused : Prop :=
  ∀ (s : State), (s.cfg.pollLimit = 0 ∨ s.cfg.crcPollLimit = 0 ∨ ∃ a ∈ sequencerRegs s.cfg, s.cfg.regAddrMax < a) →
    step s = .refused .illegalConfig

/-- R24: a host read at IDLE of a result register that nothing has written since reset faults; of one that something has
written, it gives the register's value and changes nothing else. A host read at BUSY faults, which is the model's choice
(log 17). -/
def Obligations.HostReadFaultsOrReturns : Prop :=
  ∀ (s : State) (r : ResultReg) (rest : List HostEvent), paramsLegal s.cfg = true → s.host = .read r :: rest →
    (s.phase = .idle → step s = if resultWritten r s then .next { s with host := rest, hostData := resultValue r s }
      else .fault (.unwrittenRead r)) ∧
    (s.phase ≠ .idle → step s = .fault (.readWhileBusy r))

/-- R36: right after reset PHASE = IDLE, SESSION = UNAUTH, VIOLATION = 0, XFER_FAILS = 0, AUTH_BLK is unwritten, and a host
read of any result register faults. -/
def Obligations.StateAfterReset : Prop :=
  State.reset.phase = .idle ∧ State.reset.regs.session = .unauth ∧ State.reset.violation = false ∧
  State.reset.port.xferFails = 0 ∧ State.reset.regs.authBlk.written = false ∧
  ∀ r : ResultReg, step { State.reset with host := [.read r] } = .fault (.unwrittenRead r)

/-- R340: a block reset, in any phase, leaves PHASE = IDLE, SESSION = UNAUTH, VIOLATION = 0, XFER_FAILS = 0, every result
register and AUTH_BLK unwritten, the configuration unchanged, and makes no transfer. -/
def Obligations.ResetEventResets : Prop :=
  ∀ (s : State) (rest : List HostEvent), paramsLegal s.cfg = true → s.host = .reset :: rest →
    ∃ t, step s = .next t ∧ t.phase = .idle ∧ t.regs.session = .unauth ∧ t.violation = false ∧ t.port.xferFails = 0 ∧
      t.regs.authBlk.written = false ∧ (∀ r, resultWritten r t = false) ∧ t.cfg = s.cfg ∧
      t.port.trace = s.port.trace ∧ t.port.answers = s.port.answers ∧ t.host = rest

/-- R341: with nothing from the host, an IDLE block waits: a step changes nothing. -/
def Obligations.IdleBlockWaits : Prop :=
  ∀ (s : State), s.Ready → s.host = [] → step s = .next s

/-- R9: the step-by-step machine and the whole operation are the same relation. An operation begun at a ready block, by a
step that takes the host's offer, and left to itself is BUSY with pos = n after n transfers, its registers as at its start
(log 24), and after its last transfer the state is the one exec gives. Runs in which the host acts between two transfers
are in `OperationContinuesAmongHostInputs`. -/
def Obligations.TransferStepsAgreeWithExec : Prop :=
  ∀ (i : Instr) (s t : State), s.Ready → s.host = [] → exec i s = .next t →
    ∃ u, step { s with host := [.begin (.text i)] } = .next u ∧
      Host.Core.run Sys2Proof.core (t.port.count - s.port.count) u = .next t ∧
      ∀ n, n < t.port.count - s.port.count →
        ∃ v answers, Host.Core.run Sys2Proof.core n u = .next v ∧ v.phase = .busy i n answers ∧ v.regs = s.regs ∧
          v.port.count = s.port.count + n

/-- R306: offers and ticks between the transfers of an operation do not disturb it. The host begins an operation that makes
N transfers, and before the N-th is made it has taken the steps `evs`, each a tick (which lets one transfer happen, log 33)
or the offer of another operation or of a reserved descriptor. Every such offer leaves VIOLATION set, and the operation
continues to its end: the state after it is the one exec gives, with the same transfers, registers and OUTCOME (DONE
replaces E_BUSY at the end, log 18). R306 speaks of an operation offered; that a reserved descriptor offered at BUSY is
rejected with E_BUSY and sets VIOLATION too is the model's reading of the order of checks in R302 (log 28). -/
def Obligations.OperationContinuesAmongHostInputs : Prop :=
  ∀ (i : Instr) (s t : State) (evs : List HostEvent), s.Ready → s.host = .begin (.text i) :: evs →
    exec i { s with host := [] } = .next t → (∀ ev ∈ evs, ev.isTick = true ∨ ev.offers = true) →
    evs.countP HostEvent.isTick < t.port.count - s.port.count →
    Host.Core.run Sys2Proof.core
        (1 + evs.length + (t.port.count - s.port.count - evs.countP HostEvent.isTick)) s =
      .next { t with violation := t.violation || evs.any HostEvent.offers }

/-! ### Rejections (60_exceptions.md R300 to R302) -/

/-- R300: every operation ends with OUTCOME = DONE or REJECTED(code), and a rejected one writes no block state except OUTCOME
(and VIOLATION for E_BUSY): no transfer, no session change, no result, PHASE as it was. -/
def Obligations.RejectionWritesOnlyOutcome : Prop :=
  ∀ (i : Instr) (s t : State), exec i s = .next t →
    (t.outcome = .put .done ∨ ∃ code, t.outcome = .put (.rejected code)) ∧
    ∀ code, t.outcome = .put (.rejected code) →
      t = { s with outcome := .put (.rejected code), violation := s.violation || decide (code = .eBusy) }

/-- R145: the register operations reject an address outside 0..REG_ADDR_MAX with E_REG_ADDR, whatever their other
operand. -/
def Obligations.RegisterAddressRejected : Prop :=
  ∀ (s : State) (a v : Int), s.Ready → (a < 0 ∨ (s.cfg.regAddrMax : Int) < a) →
    ∀ i, (i = .rdreg a ∨ i = .wrreg a v ∨ i = .setbits a v ∨ i = .clrbits a v) →
      exec i s = .next { s with outcome := .put (.rejected .eRegAddr) }

/-- R91: a byte operand outside 0..255 is rejected with E_OPERAND, once the operand before it passed; so is an EXEC command
byte, and an EXEC list with an element outside. -/
def Obligations.ByteOperandRejected : Prop :=
  ∀ (s : State) (a v : Int) (out : List Int), s.Ready → (v < 0 ∨ 255 < v) →
    (0 ≤ a → a ≤ (s.cfg.regAddrMax : Int) → ∀ i, (i = .wrreg a v ∨ i = .setbits a v ∨ i = .clrbits a v) →
      exec i s = .next { s with outcome := .put (.rejected .eOperand) }) ∧
    exec (.exec v out) s = .next { s with outcome := .put (.rejected .eOperand) } ∧
    (∀ cmd : Byte, v ∈ out → exec (.exec (byteVal cmd) out) s = .next { s with outcome := .put (.rejected .eOperand) })

/-- R122, R123, R124, R165, R230: a key not 6 long, a data block not 16 long, an identity not 5 long and a CRC buffer
shorter than 2 are rejected with their own codes, whatever the elements; of the right length, an element outside 0..255
is rejected with E_OPERAND. -/
def Obligations.ListOperandsChecked : Prop :=
  ∀ (s : State) (xs : List Int), s.Ready →
    (xs.length ≠ 6 → exec (.mkkey xs) s = .next { s with outcome := .put (.rejected .eKeyLen) }) ∧
    (xs.length ≠ 16 → exec (.mkdata xs) s = .next { s with outcome := .put (.rejected .eDataLen) }) ∧
    (xs.length ≠ 5 → ∀ i, (i = .mkuid xs ∨ i = .select xs) →
      exec i s = .next { s with outcome := .put (.rejected .eUidLen) }) ∧
    (xs.length < 2 → exec (.calccrc xs) s = .next { s with outcome := .put (.rejected .eCrcLen) }) ∧
    ((∃ x ∈ xs, x < 0 ∨ 255 < x) →
      ∀ i, ((i = .mkkey xs ∧ xs.length = 6) ∨ (i = .mkdata xs ∧ xs.length = 16) ∨ (i = .mkuid xs ∧ xs.length = 5) ∨
          (i = .select xs ∧ xs.length = 5) ∨ (i = .calccrc xs ∧ 2 ≤ xs.length)) →
        exec i s = .next { s with outcome := .put (.rejected .eOperand) })

/-- R302: AUTHA, AUTHB, DUMPA and DUMPB check their operands in syntax order, a list's length before its elements: blk, then
key, then uid; the first check that fails gives the code. -/
def Obligations.AuthOperandsCheckedInOrder : Prop :=
  ∀ (s : State) (blk : Int) (key uid : List Int), s.Ready →
    let badKey : Option RejectCode :=
      if key.length ≠ 6 then some .eKeyLen else if ∃ x ∈ key, x < 0 ∨ 255 < x then some .eOperand else none
    let badUid : Option RejectCode :=
      if uid.length ≠ 5 then some .eUidLen else if ∃ x ∈ uid, x < 0 ∨ 255 < x then some .eOperand else none
    (∀ code, (if blk < 0 ∨ 63 < blk then some .eBlkAddr else badKey.or badUid) = some code →
      exec (.autha blk key uid) s = .next { s with outcome := .put (.rejected code) } ∧
      exec (.authb blk key uid) s = .next { s with outcome := .put (.rejected code) }) ∧
    (∀ code, badKey.or badUid = some code →
      exec (.dumpa key uid) s = .next { s with outcome := .put (.rejected code) } ∧
      exec (.dumpb key uid) s = .next { s with outcome := .put (.rejected code) })

/-- R260, R270: READ and WRITE reject a flat block address outside 0..63 with E_BLK_ADDR; WRITE then rejects data not 16
long with E_DATA_LEN, then an element outside 0..255 with E_OPERAND. -/
def Obligations.ReadWriteOperandsChecked : Prop :=
  ∀ (s : State) (blk : Int) (data : List Int), s.Ready →
    ((blk < 0 ∨ 63 < blk) →
      exec (.read blk) s = .next { s with outcome := .put (.rejected .eBlkAddr) } ∧
      exec (.write blk data) s = .next { s with outcome := .put (.rejected .eBlkAddr) }) ∧
    (0 ≤ blk → blk ≤ 63 → data.length ≠ 16 →
      exec (.write blk data) s = .next { s with outcome := .put (.rejected .eDataLen) }) ∧
    (0 ≤ blk → blk ≤ 63 → data.length = 16 → (∃ x ∈ data, x < 0 ∨ 255 < x) →
      exec (.write blk data) s = .next { s with outcome := .put (.rejected .eOperand) })

/-! ### Value types (40_value_types.md) -/

/-- R125: the flat addresses 4s + k of the sectors 0..15 and blocks 0..3 are 0..63, each of one pair only, with s and k given
back by division by 4. -/
def Obligations.FlatAddressesDistinct : Prop :=
  (∀ s k : Nat, s ≤ 15 → k ≤ 3 → 4 * s + k < 64 ∧ (4 * s + k) / 4 = s ∧ (4 * s + k) % 4 = k) ∧
  (∀ (st : State) (a : Nat), st.Ready → a < 64 →
    exec (.mkaddr (a / 4 : Nat) (a % 4 : Nat)) st = .next { st with
      outcome := .put .done, regs := { st.regs with blkAddr := .put a } })

/-- R120: MKADDR of a sector in 0..15 and a block in 0..3 writes BLKADDR = 4s + k and nothing else but OUTCOME; a sector
outside its range is rejected with E_SECTOR whatever the block, and with a good sector a block outside its range with
E_BLOCK. -/
def Obligations.MkaddrComputesFlatAddress : Prop :=
  ∀ (st : State) (s k : Int), st.Ready →
    (0 ≤ s → s ≤ 15 → 0 ≤ k → k ≤ 3 →
      exec (.mkaddr s k) st = .next { st with
        outcome := .put .done, regs := { st.regs with blkAddr := .put (4 * s + k).toNat } }) ∧
    ((s < 0 ∨ 15 < s) → exec (.mkaddr s k) st = .next { st with outcome := .put (.rejected .eSector) }) ∧
    (0 ≤ s → s ≤ 15 → (k < 0 ∨ 3 < k) →
      exec (.mkaddr s k) st = .next { st with outcome := .put (.rejected .eBlock) })

/-- R124, R121: MKUID of five bytes writes ID, and ID_VALID says whether the fifth is the XOR of the first four; nothing
else changes but OUTCOME. -/
def Obligations.MkuidMarksValidity : Prop :=
  ∀ (s : State) (d0 d1 d2 d3 c : Byte), s.Ready →
    exec (.mkuid (ints [d0, d1, d2, d3, c])) s = .next { s with
      outcome := .put .done
      regs := { s.regs with id := .put [d0, d1, d2, d3, c], idValid := .put (decide (c = d0 ^^^ d1 ^^^ d2 ^^^ d3)) } }

/-- R122, R123: MKKEY of 6 bytes and MKDATA of 16 bytes write no result register: only OUTCOME = DONE. -/
def Obligations.MkkeyMkdataWriteNothing : Prop :=
  ∀ (s : State) (bs : List Byte), s.Ready →
    (bs.length = 6 → exec (.mkkey (ints bs)) s = .next { s with outcome := .put .done }) ∧
    (bs.length = 16 → exec (.mkdata (ints bs)) s = .next { s with outcome := .put .done })

/-! ### RegisterPort (41_register_port.md, 20_memory.md R61) -/

/-- R61: with the default bus form a write of v to a sends [(a << 1) & 0x7E, v], and a read of a sends
[((a << 1) & 0x7E) | 0x80, 0x00] and gives the byte received. -/
def Obligations.TransferWireBytes : Prop :=
  ∀ (c : Params) (st : Stage) (a : Nat) (v : Byte) (p : Port), c.bus = {} →
    (portWrite c st a v p).trace = .write st a ((BitVec.ofNat 8 a <<< 1) &&& 0x7E) v (drawFailure p) :: p.trace ∧
    (portRead c st a p).trace =
      .read st a (((BitVec.ofNat 8 a <<< 1) &&& 0x7E) ||| 0x80) 0x00 (drawAnswer p) (drawFailure p) :: p.trace ∧
    (regRead st a).run c p = fun w => ⟨portRead c st a p, w, drawAnswer p⟩

/-- R147: RDREG of an address in range makes one read transfer and writes its answer to REG_VAL; nothing else changes but
OUTCOME and the bus. -/
def Obligations.RdregReadsOnce : Prop :=
  ∀ (s : State) (a : Nat), s.Ready → a ≤ s.cfg.regAddrMax →
    exec (.rdreg a) s = .next { s with
      outcome := .put .done
      regs := { s.regs with regVal := .put (drawAnswer s.port) }
      port := portRead s.cfg .port a s.port }

/-- R146: WRREG of an address in range makes one write transfer of v; nothing else changes but OUTCOME and the bus. -/
def Obligations.WrregWritesOnce : Prop :=
  ∀ (s : State) (a : Nat) (v : Byte), s.Ready → a ≤ s.cfg.regAddrMax →
    exec (.wrreg a (byteVal v)) s = .next { s with outcome := .put .done, port := portWrite s.cfg .port a v s.port }

/-- R148, R142: SETBITS makes two transfers, a read and then a write of the value read with the mask's bits set; no result
register is written. -/
def Obligations.SetbitsReadsThenWrites : Prop :=
  ∀ (s : State) (a : Nat) (m : Byte), s.Ready → a ≤ s.cfg.regAddrMax →
    exec (.setbits a (byteVal m)) s = .next { s with
      outcome := .put .done
      port := portWrite s.cfg .port a (drawAnswer s.port ||| m) (portRead s.cfg .port a s.port) }

/-- R149, R143: CLRBITS makes two transfers, a read and then a write of the value read with the mask's bits cleared; no
result register is written. -/
def Obligations.ClrbitsReadsThenWrites : Prop :=
  ∀ (s : State) (a : Nat) (m : Byte), s.Ready → a ≤ s.cfg.regAddrMax →
    exec (.clrbits a (byteVal m)) s = .next { s with
      outcome := .put .done
      port := portWrite s.cfg .port a (drawAnswer s.port &&& ~~~m) (portRead s.cfg .port a s.port) }

/-! ### CrcEngine (42_crc_engine.md) -/

/-- R165, R160 to R164: CALCCRC against any chip whose poll ends at poll p (the first with the done flag, or poll
CRC_POLL_LIMIT): the exact transfers, 5 + L + p of them, CRC_BUF with the low byte at L-2 and the high byte at L-1, and
CRC_REMAIN; STATUS, RESP, SESSION and VIOLATION are unchanged, also when the flag was never seen. -/
def Obligations.CalccrcAgainstChip : Prop :=
  ∀ (s : State) (buf rest : List Byte) (k : CrcScript), s.Ready → 2 ≤ buf.length → k.Ok s.cfg →
    s.port.answers = k.answers ++ rest →
    ∃ t, exec (.calccrc (ints buf)) s = .next t ∧
      t = { s with
        outcome := .put .done
        regs := { s.regs with crcBuf := .put (buf.take (buf.length - 2) ++ [k.lo, k.hi]) }
        work := { s.work with
          crcCnt := s.cfg.crcPollLimit - (k.quiet.length + 1)
          crcRemain := s.cfg.crcPollLimit - (k.quiet.length + 1) }
        port := t.port } ∧
      t.port.answers = rest ∧
      busLog t.port = busLog s.port ++ k.log s.cfg (buf.take (buf.length - 2)) ∧
      t.port.count = s.port.count + 5 + buf.length + (k.quiet.length + 1)

/-- R165: CALCCRC of a buffer of bytes, at least 2 long, always completes, whatever the chip answers: CRC_BUF keeps the
bytes but the last two, and nothing but CRC_BUF, OUTCOME, the CRC working registers and the bus changes. -/
def Obligations.CalccrcCompletes : Prop :=
  ∀ (s : State) (buf : List Byte), s.Ready → 2 ≤ buf.length →
    ∃ t lo hi, exec (.calccrc (ints buf)) s = .next t ∧
      t = { s with
        outcome := .put .done
        regs := { s.regs with crcBuf := .put (buf.take (buf.length - 2) ++ [lo, hi]) }
        work := { s.work with crcCnt := t.work.crcCnt, crcRemain := t.work.crcRemain }
        port := t.port }

/-! ### CommandChannel (43_command_channel.md) -/

/-- R195, R188 to R194: EXEC against any chip on which the poll stops before POLL_LIMIT at poll p with no error bit: the
exact transfers (13 + w + N + p + c for TRANSCEIVE, 9 + w + N + p otherwise), STATUS by the timer bit, the response bytes
and counts for TRANSCEIVE only, POLL_LAST_IRQ and POLL_REMAIN; SESSION and VIOLATION are unchanged. That KIND,
IRQ_EN and WAIT_IRQ keep the dispatch's values after it is the model's choice (log 36). -/
def Obligations.ExecSucceedsAgainstChip : Prop :=
  ∀ (s : State) (cmd : Byte) (out rest : List Byte) (x : DispatchScript), s.Ready →
    x.Ok s.cfg (selectKind s.cfg cmd) → s.port.answers = x.answers (selectKind s.cfg cmd) ++ rest →
    ∃ t, exec (.exec (byteVal cmd) (ints out)) s = .next t ∧
      t = { s with
        outcome := .put .done
        regs := { putReply s.regs (x.reply s.cfg (selectKind s.cfg cmd)) with
          status := .put (timerStatus s.cfg (irqEnOf s.cfg (selectKind s.cfg cmd)) x.stop) }
        work := workAfterPoll s.cfg (selectKind s.cfg cmd) x.stop (s.cfg.pollLimit - (x.quiet.length + 1)) s.work
        port := t.port } ∧
      t.port.answers = rest ∧
      busLog t.port = busLog s.port ++ x.log s.cfg (selectKind s.cfg cmd) cmd out ∧
      t.port.count = s.port.count + (if s.cfg.policy.writeIrqEnable then 1 else 0) + out.length + (x.quiet.length + 1) +
        (if selectKind s.cfg cmd = .transceive then 13 + byteCount s.cfg (levelOf s.cfg x.level) else 9)

/-- R187, R185: EXEC against a chip none of whose first POLL_LIMIT - 1 poll answers stops the poll: after poll POLL_LIMIT,
whatever it answers, start-send is cleared and the dispatch ends with GENERIC-ERROR, RESP zeros, RESP_LEN 0 and RESP_BITS
0, in 10 + w + N + POLL_LIMIT transfers for TRANSCEIVE and 8 + w + N + POLL_LIMIT otherwise. That KIND,
IRQ_EN and WAIT_IRQ keep the dispatch's values after it is the model's choice (log 36). -/
def Obligations.ExecExhaustsAgainstChip : Prop :=
  ∀ (s : State) (cmd : Byte) (out rest : List Byte) (x : DispatchScript), s.Ready →
    x.quiet.length + 1 = s.cfg.pollLimit →
    (∀ n ∈ x.quiet, stopsPoll s.cfg (waitIrqOf s.cfg (selectKind s.cfg cmd)) n = false) →
    s.port.answers = x.pollAnswers (selectKind s.cfg cmd) ++ rest →
    ∃ t, exec (.exec (byteVal cmd) (ints out)) s = .next t ∧
      t = { s with
        outcome := .put .done
        regs := { s.regs with
          status := .put .genericError, resp := .put (zeros 16), respLen := .put 0, respBits := .put 0 }
        work := workAfterPoll s.cfg (selectKind s.cfg cmd) x.stop 0 s.work
        port := t.port } ∧
      t.port.answers = rest ∧
      busLog t.port = busLog s.port ++ x.pollLog s.cfg (selectKind s.cfg cmd) cmd out ∧
      t.port.count = s.port.count + (if s.cfg.policy.writeIrqEnable then 1 else 0) + out.length + s.cfg.pollLimit +
        (if selectKind s.cfg cmd = .transceive then 10 else 8)

/-- R188: EXEC against a chip on which the poll stops and the error register has a bit of ERR_MASK: GENERIC-ERROR with no
further transfer, RESP, RESP_LEN and RESP_BITS cleared, even if the timer bit is set. That KIND,
IRQ_EN and WAIT_IRQ keep the dispatch's values after it is the model's choice (log 36). -/
def Obligations.ExecErrorBitFails : Prop :=
  ∀ (s : State) (cmd : Byte) (out rest : List Byte) (x : DispatchScript), s.Ready →
    x.Stops s.cfg (selectKind s.cfg cmd) → hasError s.cfg x.err = true →
    s.port.answers = x.pollAnswers (selectKind s.cfg cmd) ++ x.err :: rest →
    ∃ t, exec (.exec (byteVal cmd) (ints out)) s = .next t ∧
      t = { s with
        outcome := .put .done
        regs := { s.regs with
          status := .put .genericError, resp := .put (zeros 16), respLen := .put 0, respBits := .put 0 }
        work := workAfterPoll s.cfg (selectKind s.cfg cmd) x.stop (s.cfg.pollLimit - (x.quiet.length + 1)) s.work
        port := t.port } ∧
      t.port.answers = rest ∧
      busLog t.port = busLog s.port ++ x.pollLog s.cfg (selectKind s.cfg cmd) cmd out ++ [.rd s.cfg.reg.error x.err]

/-- R195: EXEC of any command byte and any list of bytes always completes, whatever the chip answers: STATUS, RESP, RESP_LEN
and RESP_BITS are those of the dispatch's reply, and SESSION, VIOLATION, the CRC working registers and every other result
register keep their values. -/
def Obligations.ExecCompletes : Prop :=
  ∀ (s : State) (cmd : Byte) (out : List Byte), s.Ready →
    let d := (dispatch s.cfg cmd out).run s.cfg s.port s.work
    exec (.exec (byteVal cmd) (ints out)) s = .next { s with
      outcome := .put .done
      regs := { s.regs with
        status := .put d.val.status, resp := .put d.val.resp, respLen := .put d.val.len, respBits := .put d.val.bits }
      work := { d.work with crcCnt := s.work.crcCnt, crcRemain := s.work.crcRemain }
      port := d.port }

/-- R196, R194, R185: whatever the chip answers, the transfers of an EXEC are SETUP, FILL, ISSUE, POLL, FINISH and then, if
fewer than POLL_LIMIT polls were made, one ERRCHK and a READBACK that is empty or, for TRANSCEIVE only, of 2 + RESP_LEN
transfers. -/
def Obligations.DispatchPhasesInOrder : Prop :=
  ∀ (s : State) (cmd : Byte) (out : List Byte), s.Ready →
    ∃ t new p r, exec (.exec (byteVal cmd) (ints out)) s = .next t ∧ t.port.trace = new ++ s.port.trace ∧
      1 ≤ p ∧ p ≤ s.cfg.pollLimit ∧
      (r = 0 ∨ selectKind s.cfg cmd = .transceive ∧ r = 2 + t.regs.respLen.value) ∧
      new.reverse.map Xfer.stage =
        List.replicate ((if s.cfg.policy.writeIrqEnable then 1 else 0) + 5) Stage.setup ++
        List.replicate out.length Stage.fill ++
        List.replicate (if selectKind s.cfg cmd = .transceive then 3 else 1) Stage.issue ++
        List.replicate p Stage.poll ++ List.replicate 2 Stage.finish ++
        (if p = s.cfg.pollLimit then [] else Stage.errchk :: List.replicate r Stage.readback)

/-- R198: under the default masks an EXEC of kind OTHER ends in NO-TAG or GENERIC-ERROR, never OK, and reads no response.
That KIND keeps the dispatch's value after it is the model's choice (log 36). -/
def Obligations.OtherKindNeverOk : Prop :=
  ∀ (s : State) (cmd : Byte) (out : List Byte), s.Ready → s.cfg = Config.defaultParams →
    cmd ≠ 0x0C → cmd ≠ 0x0E →
    ∃ t, exec (.exec (byteVal cmd) (ints out)) s = .next t ∧ t.work.kind = .other ∧
      (t.regs.status = .put .noTag ∨ t.regs.status = .put .genericError) ∧
      t.regs.respLen = .put 0 ∧ t.regs.respBits = .put 0 ∧ t.regs.resp = .put (zeros 16)

/-! ### Discovery (44_discovery.md) -/

/-- R223, R221, R222: Request writes FRAMING_REQ, transceives its one type byte, and STATUS is OK exactly when the
dispatch is OK with 16 bits, GENERIC-ERROR otherwise; it flags VIOLATION if SESSION = AUTH, and SESSION is unchanged. -/
def Obligations.RequestResult : Prop :=
  ∀ (s : State) (i : Instr) (t : Byte), s.Ready →
    (i = .reqidl ∧ t = s.cfg.card.reqIdl ∨ i = .reqall ∧ t = s.cfg.card.reqAll) →
    let p := portWrite s.cfg .framing s.cfg.reg.bitFraming s.cfg.framing.req s.port
    let d := (dispatch s.cfg s.cfg.cmd.transceive [t]).run s.cfg p s.work
    exec i s = .next { s with
      violation := s.violation || decide (s.regs.session = .auth)
      outcome := .put .done
      regs := { putReply s.regs d.val with
        status := .put (if d.val.status = .ok ∧ d.val.bits = 16 then .ok else .genericError) }
      work := d.work
      port := d.port }

/-- R225 to R227: AntiColl writes FRAMING_FULL and transceives the two-byte command. An OK dispatch gives OK only with
exactly 5 bytes whose fifth is the XOR of the first four, GENERIC-ERROR otherwise; NO-TAG and GENERIC-ERROR pass through.
ID takes RESP[0..4] in every case, and ID_VALID is whether STATUS is OK. -/
def Obligations.AnticollResult : Prop :=
  ∀ (s : State), s.Ready →
    let p := portWrite s.cfg .framing s.cfg.reg.bitFraming s.cfg.framing.full s.port
    let d := (dispatch s.cfg s.cfg.cmd.transceive [s.cfg.card.antiColl, s.cfg.card.nvbAntiColl]).run s.cfg p s.work
    ∃ st d0 d1 d2 d3 c, d.val.resp.take 5 = [d0, d1, d2, d3, c] ∧
      (d.val.status = .ok → st = if d.val.len = 5 ∧ c = d0 ^^^ d1 ^^^ d2 ^^^ d3 then .ok else .genericError) ∧
      (d.val.status ≠ .ok → st = d.val.status) ∧
      exec .anticoll s = .next { s with
        violation := s.violation || decide (s.regs.session = .auth)
        outcome := .put .done
        regs := { putReply s.regs d.val with
          status := .put st, id := .put [d0, d1, d2, d3, c], idValid := .put (decide (st = .ok)) }
        work := d.work
        port := d.port }

/-- R230, R231, R233: SELECT runs the CRC over the 9-byte frame and transceives the result. With dispatch OK and exactly 24
bits, SAK = RESP[0], STATUS = OK and SESSION = SELECTED; otherwise SAK = 0x00, STATUS = GENERIC-ERROR and SESSION =
UNAUTH. It flags VIOLATION while AUTH or with an invalid identity, and sends the frame anyway. -/
def Obligations.SelectResult : Prop :=
  ∀ (s : State) (uid : List Byte), s.Ready → uid.length = 5 →
    let k := (crc s.cfg ([s.cfg.card.select, s.cfg.card.nvbSelect] ++ uid ++ [0x00, 0x00])).run s.cfg s.port s.work
    let d := (dispatch s.cfg s.cfg.cmd.transceive k.val).run s.cfg k.port k.work
    let ok : Prop := d.val.status = .ok ∧ d.val.bits = 24
    (∃ lo hi, k.val = [s.cfg.card.select, s.cfg.card.nvbSelect] ++ uid ++ [lo, hi]) ∧
    exec (.select (ints uid)) s = .next { s with
      violation := s.violation || decide (s.regs.session = .auth) || !validUid uid
      outcome := .put .done
      regs := { putReply s.regs d.val with
        sak := .put (if ok then d.val.resp.headD 0 else 0x00)
        status := .put (if ok then .ok else .genericError)
        session := if ok then .selected else .unauth }
      work := d.work
      port := d.port }

/-! ### Access (45_access.md) -/

/-- R250 to R253: AUTHA and AUTHB dispatch AUTHENT with the 12-byte frame (mode, blk, six key bytes, four identity bytes),
then always read Status2 once. A clear crypto bit gives GENERIC-ERROR, a set one passes the dispatch status through. OK
gives SESSION = AUTH and AUTH_BLK = blk, everything else SESSION = UNAUTH with AUTH_BLK kept; VIOLATION is flagged unless
SESSION was SELECTED and the identity is valid. -/
def Obligations.AuthResult : Prop :=
  ∀ (s : State) (i : Instr) (mode : Byte) (blk : Nat) (key uid : List Byte), s.Ready → blk < 64 → key.length = 6 →
    uid.length = 5 →
    (i = .autha blk (ints key) (ints uid) ∧ mode = s.cfg.card.auth1A ∨
      i = .authb blk (ints key) (ints uid) ∧ mode = s.cfg.card.auth1B) →
    let d := (dispatch s.cfg s.cfg.cmd.authent ([mode, BitVec.ofNat 8 blk] ++ key ++ uid.take 4)).run s.cfg s.port s.work
    let st := if drawAnswer d.port &&& s.cfg.mask.crypto1On = 0 then .genericError else d.val.status
    exec i s = .next { s with
      violation := s.violation || (decide (s.regs.session ≠ .selected) || !validUid uid)
      outcome := .put .done
      regs := { putReply s.regs d.val with
        status := .put st
        session := if st = .ok then .auth else .unauth
        authBlk := if st = .ok then .put blk else s.regs.authBlk }
      work := d.work
      port := portRead s.cfg .cryptoCheck s.cfg.reg.status2 d.port }

/-- R259, R260: READ runs the CRC over its 4-byte frame and transceives it. With RESP_LEN = 16 (and dispatch OK, if
READ_REQUIRES_OK) STATUS = OK and BLOCK_OUT is the response; otherwise STATUS = GENERIC-ERROR, BLOCK_OUT and RESP are
zeros and RESP_LEN = 0, RESP_BITS kept. VIOLATION is flagged outside the authenticated block; SESSION is unchanged. -/
def Obligations.ReadResult : Prop :=
  ∀ (s : State) (blk : Nat), s.Ready → blk < 64 →
    let k := (crc s.cfg [s.cfg.card.read, BitVec.ofNat 8 blk, 0x00, 0x00]).run s.cfg s.port s.work
    let d := (dispatch s.cfg s.cfg.cmd.transceive k.val).run s.cfg k.port k.work
    let ok : Prop := d.val.len = 16 ∧ (d.val.status = .ok ∨ s.cfg.policy.readRequiresOk = false)
    exec (.read blk) s = .next { s with
      violation := s.violation || !authMatch s.cfg s.regs blk
      outcome := .put .done
      regs := { s.regs with
        status := .put (if ok then .ok else .genericError)
        blockOut := .put (if ok then d.val.resp else zeros 16)
        resp := .put (if ok then d.val.resp else zeros 16)
        respLen := .put (if ok then d.val.len else 0)
        respBits := .put d.val.bits }
      work := d.work
      port := d.port }

/-- R269, R270: WRITE sends the write-intent frame and, only if the card acknowledged it (dispatch OK unless
WRITE_REQUIRES_OK is false, exactly 4 bits, low nibble 0x0A), the payload frame; STATUS is OK exactly if both were
acknowledged; SESSION is unchanged, VIOLATION is flagged outside the authenticated block. -/
def Obligations.WriteResult : Prop :=
  ∀ (s : State) (blk : Nat) (data : List Byte), s.Ready → blk < 64 → data.length = 16 →
    let acked : Reply → Prop := fun d => (d.status = .ok ∨ s.cfg.policy.writeRequiresOk = false) ∧ d.bits = 4 ∧
      d.resp.headD 0 &&& 0x0F = 0x0A
    let k1 := (crc s.cfg [s.cfg.card.write, BitVec.ofNat 8 blk, 0x00, 0x00]).run s.cfg s.port s.work
    let d1 := (dispatch s.cfg s.cfg.cmd.transceive k1.val).run s.cfg k1.port k1.work
    let k2 := (crc s.cfg (data ++ [0x00, 0x00])).run s.cfg d1.port d1.work
    let d2 := (dispatch s.cfg s.cfg.cmd.transceive k2.val).run s.cfg k2.port k2.work
    ∃ t, exec (.write blk (ints data)) s = .next t ∧
      (¬acked d1.val → t = { s with
        violation := s.violation || !authMatch s.cfg s.regs blk
        outcome := .put .done
        regs := { putReply s.regs d1.val with status := .put .genericError }
        work := d1.work
        port := d1.port }) ∧
      (∀ st, acked d1.val → (acked d2.val ∧ st = .ok ∨ ¬acked d2.val ∧ st = .genericError) → t = { s with
        violation := s.violation || !authMatch s.cfg s.regs blk
        outcome := .put .done
        regs := { putReply s.regs d2.val with status := .put st }
        work := d2.work
        port := d2.port })

/-- R280, R281: STOPCRYPTO reads Status2 and writes it back with the crypto bit cleared; SESSION = UNAUTH and STATUS = OK
from every state, whatever the transport does; AUTH_BLK keeps its value and no violation is flagged. -/
def Obligations.StopcryptoResult : Prop :=
  ∀ (s : State), s.Ready →
    exec .stopcrypto s = .next { s with
      outcome := .put .done
      regs := { s.regs with session := .unauth, status := .put .ok }
      port := portWrite s.cfg .port s.cfg.reg.status2 (drawAnswer s.port &&& ~~~s.cfg.mask.crypto1On)
        (portRead s.cfg .port s.cfg.reg.status2 s.port) }

/-- R290 to R293: a dump always completes with STATUS = OK, whatever the chip answers; DUMP_OUT has 64 slots of 16 bytes,
all zero where DUMP_MASK has a 0; the final SESSION is AUTH with AUTH_BLK = 63, or UNAUTH; VIOLATION is flagged at the
start unless SESSION was SELECTED and the identity is valid. -/
def Obligations.DumpResult : Prop :=
  ∀ (s : State) (i : Instr) (key uid : List Byte), s.Ready → key.length = 6 → uid.length = 5 →
    (i = .dumpa (ints key) (ints uid) ∨ i = .dumpb (ints key) (ints uid)) →
    ∃ t out mask, exec i s = .next t ∧ t.outcome = .put .done ∧ t.regs.status = .put .ok ∧
      t.regs.dumpOut = .put out ∧ t.regs.dumpMask = .put mask ∧ out.length = 64 ∧
      (∀ b, b < 64 → (out.getD b []).length = 16 ∧ (mask.getLsbD b = false → out.getD b [] = zeros 16)) ∧
      (t.regs.session = .auth ∧ t.regs.authBlk = .put 63 ∨ t.regs.session = .unauth) ∧
      t.violation = (s.violation || (decide (s.regs.session ≠ .selected) || !validUid uid))

/-- R290: DUMPA and DUMPB against a chip that answers as scripted, block after block in ascending order, whatever each of
its dispatches ends in (exhaustion, an error bit, NO-TAG or OK): the exact transfers, with the key of the mode, the number
of each block and the key and identity bytes in the authentication frames. A block whose authentication ends OK and whose
read gives 16 bytes is in its slot and its mask bit is set; any other is skipped, its slot zero and its bit 0, and the loop
goes on. STATUS = OK; SESSION and AUTH_BLK are as the authentications left them (R250); RESP, RESP_LEN and RESP_BITS are
those of the last dispatch, the first two cleared if it was a failed read (10_state.md R25). -/
def Obligations.DumpAgainstChip : Prop :=
  ∀ (s : State) (i : Instr) (mode : Byte) (key uid rest : List Byte) (bs : List BlockScript), s.Ready → key.length = 6 →
    uid.length = 5 →
    (i = .dumpa (ints key) (ints uid) ∧ mode = s.cfg.card.auth1A ∨
      i = .dumpb (ints key) (ints uid) ∧ mode = s.cfg.card.auth1B) →
    bs.length = 64 → (∀ b ∈ bs, b.Ok s.cfg) →
    s.port.answers = bs.flatMap (BlockScript.answers s.cfg) ++ rest →
    ∃ t mask, exec i s = .next t ∧ t.regs.status = .put .ok ∧ t.port.answers = rest ∧
      busLog t.port = busLog s.port ++ bs.zipIdx.flatMap (fun x => x.1.log s.cfg mode key uid x.2) ∧
      t.regs.dumpOut = .put (bs.map fun b => if b.got s.cfg then (b.read.endReply s.cfg (readKind s.cfg)).resp else zeros 16) ∧
      t.regs.dumpMask = .put mask ∧
      (∀ n (h : n < bs.length), mask.getLsbD n = bs[n].got s.cfg) ∧
      (∀ h : 63 < bs.length,
        t.regs.session = (if bs[63].authed s.cfg then .auth else .unauth) ∧
        t.regs.resp = .put (if bs[63].got s.cfg then (bs[63].lastReply s.cfg).resp else zeros 16) ∧
        t.regs.respLen = .put (if bs[63].got s.cfg then 16 else 0) ∧
        t.regs.respBits = .put (bs[63].lastReply s.cfg).bits) ∧
      (∀ n (h : n < bs.length), bs[n].authed s.cfg = true →
        (∀ m (_ : m < bs.length), n < m → bs[m].authed s.cfg = false) → t.regs.authBlk = .put n) ∧
      ((∀ b ∈ bs, b.authed s.cfg = false) → t.regs.authBlk = s.regs.authBlk)

/-- R290: a dump makes at most 64 × ((21 + w + POLL_LIMIT) + (9 + CRC_POLL_LIMIT) + (16 + w + POLL_LIMIT + MAX_LEN))
transfers, which is 276416 with the defaults. -/
def Obligations.DumpTransferBound : Prop :=
  ∀ (s t : State) (i : Instr) (key uid : List Int), s.Ready → (i = .dumpa key uid ∨ i = .dumpb key uid) →
    exec i s = .next t →
    t.port.count ≤ s.port.count +
      64 * ((21 + (if s.cfg.policy.writeIrqEnable then 1 else 0) + s.cfg.pollLimit) + (9 + s.cfg.crcPollLimit) +
        (16 + (if s.cfg.policy.writeIrqEnable then 1 else 0) + s.cfg.pollLimit + 16)) ∧
    (s.cfg = Config.defaultParams → t.port.count ≤ s.port.count + 276416)

/-- R272: if the chip acknowledges both phases of a WRITE of `data` and then answers a READ of the block with a level of at
least 16 whose FIFO bytes are `data`, both end in OK and BLOCK_OUT is `data`. -/
def Obligations.WriteThenReadRoundTrip : Prop :=
  ∀ (s : State) (blk : Nat) (data rest : List Byte) (k1 k2 k3 : CrcScript) (x1 x2 x3 : DispatchScript), s.Ready →
    blk < 64 → data.length = 16 → s.cfg.cmd.transceive ≠ s.cfg.cmd.authent →
    k1.Ok s.cfg → k2.Ok s.cfg → k3.Ok s.cfg →
    x1.Ok s.cfg .transceive → x2.Ok s.cfg .transceive → x3.Ok s.cfg .transceive →
    (∀ x, (x = x1 ∨ x = x2) → levelOf s.cfg x.level = 1 ∧ lastBitsOf s.cfg x.ctl = 4 ∧ x.fifo.headD 0 &&& 0x0F = 0x0A ∧
      (timerStatus s.cfg s.cfg.mask.trxIrqEn x.stop = .ok ∨ s.cfg.policy.writeRequiresOk = false)) →
    (timerStatus s.cfg s.cfg.mask.trxIrqEn x3.stop = .ok ∨ s.cfg.policy.readRequiresOk = false) →
    x3.fifo = data →
    s.port.answers = k1.answers ++ x1.answers .transceive ++ (k2.answers ++ x2.answers .transceive) ++
      (k3.answers ++ x3.answers .transceive) ++ rest →
    ∃ t u, exec (.write blk (ints data)) s = .next t ∧ t.regs.status = .put .ok ∧
      exec (.read blk) t = .next u ∧ u.regs.status = .put .ok ∧ u.regs.blockOut = .put data ∧ u.port.answers = rest

/-- R99, R100, R102 to R106: the frame bytes the sequencer writes to the FIFO in its dispatches, whatever the chip answers,
for every sequencer operation: the request byte, the anti-collision pair, the 9-byte select frame, the 12-byte
authentication frame without the identity's checksum byte, the 4-byte read frame, the write-intent frame followed, if at
all, by the 18-byte payload frame, and, for a dump, block after block from 0 to 63, the authentication frame of the block
with the mode byte of its key and, if at all, the read frame of the same block: at least where the block's mask bit ends
up set. -/
def Obligations.SequencerFrames : Prop :=
  ∀ (s t : State) (i : Instr) (new : List Xfer), s.Ready → exec i s = .next t → t.outcome = .put .done →
    t.port.trace = new ++ s.port.trace →
    (i = .reqidl → fillBytes new = [s.cfg.card.reqIdl]) ∧
    (i = .reqall → fillBytes new = [s.cfg.card.reqAll]) ∧
    (i = .anticoll → fillBytes new = [s.cfg.card.antiColl, s.cfg.card.nvbAntiColl]) ∧
    (∀ uid, i = .select (ints uid) → ∃ lo hi,
      fillBytes new = [s.cfg.card.select, s.cfg.card.nvbSelect] ++ uid ++ [lo, hi]) ∧
    (∀ (blk : Nat) (key uid : List Byte), i = .autha blk (ints key) (ints uid) →
      fillBytes new = [s.cfg.card.auth1A, BitVec.ofNat 8 blk] ++ key ++ uid.take 4) ∧
    (∀ (blk : Nat) (key uid : List Byte), i = .authb blk (ints key) (ints uid) →
      fillBytes new = [s.cfg.card.auth1B, BitVec.ofNat 8 blk] ++ key ++ uid.take 4) ∧
    (∀ blk : Nat, i = .read blk → ∃ lo hi, fillBytes new = [s.cfg.card.read, BitVec.ofNat 8 blk, lo, hi]) ∧
    (∀ (blk : Nat) (data : List Byte), i = .write blk (ints data) → ∃ lo hi,
      fillBytes new = [s.cfg.card.write, BitVec.ofNat 8 blk, lo, hi] ∨
      ∃ lo' hi', fillBytes new = [s.cfg.card.write, BitVec.ofNat 8 blk, lo, hi] ++ data ++ [lo', hi']) ∧
    (∀ (mode : Byte) (key uid : List Byte),
      (i = .dumpa (ints key) (ints uid) ∧ mode = s.cfg.card.auth1A ∨
        i = .dumpb (ints key) (ints uid) ∧ mode = s.cfg.card.auth1B) →
      ∃ reads : List (Option (Byte × Byte)), reads.length = 64 ∧
        fillBytes new = reads.zipIdx.flatMap (fun x => dumpFrames s.cfg mode key uid x.2 x.1) ∧
        ∀ n (h : n < reads.length), t.regs.dumpMask.value.getLsbD n = true → reads[n] ≠ none)

/-! ### The whole machine -/

/-- The state right after reset meets the invariant. -/
def Obligations.ResetMeetsInvariant : Prop := State.reset.Inv

/-- 10_state.md R24, R30, R33, R34 as an invariant of every step from every state that meets it: the shapes and ranges of
the result registers, AUTH_BLK written while AUTH, ID valid where ID_VALID says so, DUMP_OUT zero where DUMP_MASK is, the
counters within their bounds, the bus trace counted and in the wire form of R61, and the operation in progress accepted. -/
def Obligations.StepKeepsInvariant : Prop :=
  ∀ (s t : State), s.Inv → step s = .next t → t.Inv

/-- R29, R36: no step changes the configuration. -/
def Obligations.ConfigurationFixed : Prop :=
  ∀ (s t : State), step s = .next t → t.cfg = s.cfg

/-- R320: the session transitions of every operation. A rejected operation changes neither SESSION nor AUTH_BLK; nor does
any operation but SELECT, AUTHA, AUTHB, STOPCRYPTO, DUMPA and DUMPB; SELECT gives SELECTED on OK and UNAUTH otherwise;
AUTHA and AUTHB give AUTH with AUTH_BLK = blk on OK and UNAUTH otherwise; STOPCRYPTO gives UNAUTH; a dump ends in AUTH
with AUTH_BLK = 63 or in UNAUTH. -/
def Obligations.SessionTransitions : Prop :=
  ∀ (i : Instr) (s t : State), exec i s = .next t →
    (t.outcome ≠ .put .done → t.regs.session = s.regs.session ∧ t.regs.authBlk = s.regs.authBlk) ∧
    (t.outcome = .put .done →
      match i with
      | .select _ =>
        t.regs.session = (if t.regs.status.value = .ok then .selected else .unauth) ∧ t.regs.authBlk = s.regs.authBlk
      | .autha blk _ _ | .authb blk _ _ =>
        if t.regs.status.value = .ok then t.regs.session = .auth ∧ t.regs.authBlk = .put blk.toNat
        else t.regs.session = .unauth ∧ t.regs.authBlk = s.regs.authBlk
      | .stopcrypto => t.regs.session = .unauth ∧ t.regs.authBlk = s.regs.authBlk
      | .dumpa _ _ | .dumpb _ _ =>
        t.regs.session = .auth ∧ t.regs.authBlk = .put 63 ∨ t.regs.session = .unauth
      | _ => t.regs.session = s.regs.session ∧ t.regs.authBlk = s.regs.authBlk)

/-- R305: an operation sets VIOLATION exactly where it is accepted in one of the cases V1 to V4 at its start, or is offered
while PHASE = BUSY (V5), and otherwise leaves it. That it is set when the operation is accepted is log 27. -/
def Obligations.ViolationExactlyInItsCases : Prop :=
  ∀ (i : Instr) (s t : State), exec i s = .next t →
    (t.violation = true ↔ s.violation = true ∨ (t.outcome = .put .done ∧ violationCase s.cfg s.regs i) ∨ s.phase ≠ .idle)

/-- R28: VIOLATION is sticky: no step clears it but a block reset. -/
def Obligations.ViolationSticky : Prop :=
  ∀ (s t : State), step s = .next t → s.violation = true → (∀ rest, s.host ≠ .reset :: rest) → t.violation = true

/-- R307: a violation changes no transfer, no status and no session transition: whatever VIOLATION was, an operation does
the same, but for VIOLATION itself. -/
def Obligations.ViolationDoesNotGate : Prop :=
  ∀ (i : Instr) (s t : State) (v : Bool), exec i s = .next t →
    ∃ t', exec i { s with violation := v } = .next t' ∧ t' = { t with violation := t'.violation }

/-- R31, R26: SESSION does not gate bus traffic, and no operation reads a result register: from any session and result
registers an operation makes the same transfers, with the same outcome and working registers. -/
def Obligations.RegistersDoNotSteerBus : Prop :=
  ∀ (i : Instr) (s t : State) (r : Regs), exec i s = .next t →
    ∃ t', exec i { s with regs := r } = .next t' ∧ t'.port = t.port ∧ t'.work = t.work ∧ t'.outcome = t.outcome

/-- R144: transport failures change no status, outcome or session and take no other branch: whatever the transport does, an
operation makes the same transfers and leaves the same registers; only XFER_FAILS and the failure marks differ. -/
def Obligations.TransportFailuresDoNotSteer : Prop :=
  ∀ (i : Instr) (s t : State) (fails : List Bool) (n : Nat), exec i s = .next t →
    ∃ t', exec i { s with port := { s.port with fails := fails, xferFails := n } } = .next t' ∧
      t'.regs = t.regs ∧ t'.outcome = t.outcome ∧ t'.violation = t.violation ∧ t'.work = t.work ∧ t'.phase = t.phase ∧
      t'.port.answers = t.port.answers ∧ t'.port.count = t.port.count ∧
      t'.port.trace.map Xfer.content = t.port.trace.map Xfer.content

/-- R32, R144, R61: an operation adds its transfers to the bus, each with the wire bytes of its register, and increments
XFER_FAILS by exactly the number of them that failed. -/
def Obligations.FailedTransfersCounted : Prop :=
  ∀ (i : Instr) (s t : State), exec i s = .next t →
    ∃ new, t.port.trace = new ++ s.port.trace ∧ t.port.count = s.port.count + new.length ∧
      t.port.xferFails = s.port.xferFails + new.countP Xfer.failed ∧ ∀ x ∈ new, x.WireOk s.cfg

/-- R77: no operation but the four register operations touches a chip register outside R66 to R76. -/
def Obligations.SequencerTouchesOnlyItsRegisters : Prop :=
  ∀ (i : Instr) (s t : State) (new : List Xfer), exec i s = .next t → isRegisterOp i = false →
    t.port.trace = new ++ s.port.trace → ∀ x ∈ new, x.reg ∈ sequencerRegs s.cfg

/-- R24: each result register is written only by the operations of its row; and no operation changes the configuration,
what the host has pending or what it has read. -/
def Obligations.WritesOnlyItsRegisters : Prop :=
  ∀ (i : Instr) (s t : State), exec i s = .next t →
    (∀ r, mayWrite i r = false → resultValue r t = resultValue r s ∧ resultWritten r t = resultWritten r s) ∧
    t.cfg = s.cfg ∧ t.host = s.host ∧ t.hostData = s.hostData
end

