-- ==== Sys2Proof/Laws/State.lean ====
section
/-! SUPPORT. One lemma per field per update of State, Regs and Port, each true by rfl, so that no proof unfolds an update. -/

namespace Sys2Proof.Machine

section States

variable (s : State)

/-! `reject` -/

@[simp] theorem reject_cfg (code : RejectCode) : (reject code s).cfg = s.cfg := rfl
@[simp] theorem reject_phase (code : RejectCode) : (reject code s).phase = s.phase := rfl
@[simp] theorem reject_violation (code : RejectCode) : (reject code s).violation = s.violation := rfl
@[simp] theorem reject_outcome (code : RejectCode) : (reject code s).outcome = .put (.rejected code) := rfl
@[simp] theorem reject_regs (code : RejectCode) : (reject code s).regs = s.regs := rfl
@[simp] theorem reject_work (code : RejectCode) : (reject code s).work = s.work := rfl
@[simp] theorem reject_port (code : RejectCode) : (reject code s).port = s.port := rfl
@[simp] theorem reject_host (code : RejectCode) : (reject code s).host = s.host := rfl
@[simp] theorem reject_hostData (code : RejectCode) : (reject code s).hostData = s.hostData := rfl

/-! `rejectBusy` -/

@[simp] theorem rejectBusy_cfg : (rejectBusy s).cfg = s.cfg := rfl
@[simp] theorem rejectBusy_phase : (rejectBusy s).phase = s.phase := rfl
@[simp] theorem rejectBusy_violation : (rejectBusy s).violation = true := rfl
@[simp] theorem rejectBusy_outcome : (rejectBusy s).outcome = .put (.rejected .eBusy) := rfl
@[simp] theorem rejectBusy_regs : (rejectBusy s).regs = s.regs := rfl
@[simp] theorem rejectBusy_work : (rejectBusy s).work = s.work := rfl
@[simp] theorem rejectBusy_port : (rejectBusy s).port = s.port := rfl
@[simp] theorem rejectBusy_host : (rejectBusy s).host = s.host := rfl
@[simp] theorem rejectBusy_hostData : (rejectBusy s).hostData = s.hostData := rfl

/-! `flagViolation` -/

@[simp] theorem flagViolation_cfg (v : Bool) : (flagViolation v s).cfg = s.cfg := rfl
@[simp] theorem flagViolation_phase (v : Bool) : (flagViolation v s).phase = s.phase := rfl
@[simp] theorem flagViolation_violation (v : Bool) : (flagViolation v s).violation = (s.violation || v) := rfl
@[simp] theorem flagViolation_outcome (v : Bool) : (flagViolation v s).outcome = s.outcome := rfl
@[simp] theorem flagViolation_regs (v : Bool) : (flagViolation v s).regs = s.regs := rfl
@[simp] theorem flagViolation_work (v : Bool) : (flagViolation v s).work = s.work := rfl
@[simp] theorem flagViolation_port (v : Bool) : (flagViolation v s).port = s.port := rfl
@[simp] theorem flagViolation_host (v : Bool) : (flagViolation v s).host = s.host := rfl
@[simp] theorem flagViolation_hostData (v : Bool) : (flagViolation v s).hostData = s.hostData := rfl

/-! `finish` -/

@[simp] theorem finish_cfg (r : Regs) : (finish r s).cfg = s.cfg := rfl
@[simp] theorem finish_phase (r : Regs) : (finish r s).phase = .idle := rfl
@[simp] theorem finish_violation (r : Regs) : (finish r s).violation = s.violation := rfl
@[simp] theorem finish_outcome (r : Regs) : (finish r s).outcome = .put .done := rfl
@[simp] theorem finish_regs (r : Regs) : (finish r s).regs = r := rfl
@[simp] theorem finish_work (r : Regs) : (finish r s).work = s.work := rfl
@[simp] theorem finish_port (r : Regs) : (finish r s).port = s.port := rfl
@[simp] theorem finish_host (r : Regs) : (finish r s).host = s.host := rfl
@[simp] theorem finish_hostData (r : Regs) : (finish r s).hostData = s.hostData := rfl

/-! `resetBlock` -/

@[simp] theorem resetBlock_cfg : (resetBlock s).cfg = s.cfg := rfl
@[simp] theorem resetBlock_phase : (resetBlock s).phase = .idle := rfl
@[simp] theorem resetBlock_violation : (resetBlock s).violation = false := rfl
@[simp] theorem resetBlock_outcome : (resetBlock s).outcome = .fresh .done := rfl
@[simp] theorem resetBlock_regs : (resetBlock s).regs = .reset := rfl
@[simp] theorem resetBlock_work : (resetBlock s).work = .reset := rfl
@[simp] theorem resetBlock_port : (resetBlock s).port = { s.port with xferFails := 0 } := rfl
@[simp] theorem resetBlock_host : (resetBlock s).host = s.host := rfl
@[simp] theorem resetBlock_hostData : (resetBlock s).hostData = s.hostData := rfl

/-! `placeOffer` -/

@[simp] theorem placeOffer_cfg (bytes : List Byte) : (placeOffer bytes s).cfg = s.cfg := rfl
@[simp] theorem placeOffer_phase (bytes : List Byte) : (placeOffer bytes s).phase = s.phase := rfl
@[simp] theorem placeOffer_violation (bytes : List Byte) : (placeOffer bytes s).violation = s.violation := rfl
@[simp] theorem placeOffer_outcome (bytes : List Byte) : (placeOffer bytes s).outcome = s.outcome := rfl
@[simp] theorem placeOffer_regs (bytes : List Byte) : (placeOffer bytes s).regs = s.regs := rfl
@[simp] theorem placeOffer_work (bytes : List Byte) : (placeOffer bytes s).work = s.work := rfl
@[simp] theorem placeOffer_port (bytes : List Byte) : (placeOffer bytes s).port = s.port := rfl
@[simp] theorem placeOffer_host (bytes : List Byte) : (placeOffer bytes s).host = .offer (.serial bytes) :: s.host := rfl
@[simp] theorem placeOffer_hostData (bytes : List Byte) : (placeOffer bytes s).hostData = s.hostData := rfl

end States

section Registers

variable (c : Params) (r : Regs)

/-! `putReply` -/

@[simp] theorem putReply_session (d : Reply) : (putReply r d).session = r.session := rfl
@[simp] theorem putReply_authBlk (d : Reply) : (putReply r d).authBlk = r.authBlk := rfl
@[simp] theorem putReply_status (d : Reply) : (putReply r d).status = r.status := rfl
@[simp] theorem putReply_resp (d : Reply) : (putReply r d).resp = .put d.resp := rfl
@[simp] theorem putReply_respLen (d : Reply) : (putReply r d).respLen = .put d.len := rfl
@[simp] theorem putReply_respBits (d : Reply) : (putReply r d).respBits = .put d.bits := rfl
@[simp] theorem putReply_regVal (d : Reply) : (putReply r d).regVal = r.regVal := rfl
@[simp] theorem putReply_crcBuf (d : Reply) : (putReply r d).crcBuf = r.crcBuf := rfl
@[simp] theorem putReply_blkAddr (d : Reply) : (putReply r d).blkAddr = r.blkAddr := rfl
@[simp] theorem putReply_id (d : Reply) : (putReply r d).id = r.id := rfl
@[simp] theorem putReply_idValid (d : Reply) : (putReply r d).idValid = r.idValid := rfl
@[simp] theorem putReply_sak (d : Reply) : (putReply r d).sak = r.sak := rfl
@[simp] theorem putReply_blockOut (d : Reply) : (putReply r d).blockOut = r.blockOut := rfl
@[simp] theorem putReply_dumpOut (d : Reply) : (putReply r d).dumpOut = r.dumpOut := rfl
@[simp] theorem putReply_dumpMask (d : Reply) : (putReply r d).dumpMask = r.dumpMask := rfl

/-! `discardResp` -/

@[simp] theorem discardResp_session : (discardResp c r).session = r.session := rfl
@[simp] theorem discardResp_authBlk : (discardResp c r).authBlk = r.authBlk := rfl
@[simp] theorem discardResp_status : (discardResp c r).status = r.status := rfl
@[simp] theorem discardResp_resp : (discardResp c r).resp = .put (zeros c.source.maxLen) := rfl
@[simp] theorem discardResp_respLen : (discardResp c r).respLen = .put 0 := rfl
@[simp] theorem discardResp_respBits : (discardResp c r).respBits = r.respBits := rfl
@[simp] theorem discardResp_regVal : (discardResp c r).regVal = r.regVal := rfl
@[simp] theorem discardResp_crcBuf : (discardResp c r).crcBuf = r.crcBuf := rfl
@[simp] theorem discardResp_blkAddr : (discardResp c r).blkAddr = r.blkAddr := rfl
@[simp] theorem discardResp_id : (discardResp c r).id = r.id := rfl
@[simp] theorem discardResp_idValid : (discardResp c r).idValid = r.idValid := rfl
@[simp] theorem discardResp_sak : (discardResp c r).sak = r.sak := rfl
@[simp] theorem discardResp_blockOut : (discardResp c r).blockOut = r.blockOut := rfl
@[simp] theorem discardResp_dumpOut : (discardResp c r).dumpOut = r.dumpOut := rfl
@[simp] theorem discardResp_dumpMask : (discardResp c r).dumpMask = r.dumpMask := rfl

/-! `putAuth`: only SESSION and AUTH_BLK change. -/

@[simp] theorem putAuth_status (blk : Nat) (st : Status) : (putAuth blk st r).status = r.status := by
  unfold putAuth; split <;> rfl
@[simp] theorem putAuth_resp (blk : Nat) (st : Status) : (putAuth blk st r).resp = r.resp := by
  unfold putAuth; split <;> rfl
@[simp] theorem putAuth_respLen (blk : Nat) (st : Status) : (putAuth blk st r).respLen = r.respLen := by
  unfold putAuth; split <;> rfl
@[simp] theorem putAuth_respBits (blk : Nat) (st : Status) : (putAuth blk st r).respBits = r.respBits := by
  unfold putAuth; split <;> rfl
@[simp] theorem putAuth_regVal (blk : Nat) (st : Status) : (putAuth blk st r).regVal = r.regVal := by
  unfold putAuth; split <;> rfl
@[simp] theorem putAuth_crcBuf (blk : Nat) (st : Status) : (putAuth blk st r).crcBuf = r.crcBuf := by
  unfold putAuth; split <;> rfl
@[simp] theorem putAuth_blkAddr (blk : Nat) (st : Status) : (putAuth blk st r).blkAddr = r.blkAddr := by
  unfold putAuth; split <;> rfl
@[simp] theorem putAuth_id (blk : Nat) (st : Status) : (putAuth blk st r).id = r.id := by
  unfold putAuth; split <;> rfl
@[simp] theorem putAuth_idValid (blk : Nat) (st : Status) : (putAuth blk st r).idValid = r.idValid := by
  unfold putAuth; split <;> rfl
@[simp] theorem putAuth_sak (blk : Nat) (st : Status) : (putAuth blk st r).sak = r.sak := by
  unfold putAuth; split <;> rfl
@[simp] theorem putAuth_blockOut (blk : Nat) (st : Status) : (putAuth blk st r).blockOut = r.blockOut := by
  unfold putAuth; split <;> rfl
@[simp] theorem putAuth_dumpOut (blk : Nat) (st : Status) : (putAuth blk st r).dumpOut = r.dumpOut := by
  unfold putAuth; split <;> rfl
@[simp] theorem putAuth_dumpMask (blk : Nat) (st : Status) : (putAuth blk st r).dumpMask = r.dumpMask := by
  unfold putAuth; split <;> rfl

/-- SESSION after an authentication (45_access.md R250). -/
theorem putAuth_session (blk : Nat) (st : Status) :
    (putAuth blk st r).session = if st = .ok then .auth else .unauth := by
  unfold putAuth; split <;> rfl

/-- AUTH_BLK after an authentication (45_access.md R250). -/
theorem putAuth_authBlk (blk : Nat) (st : Status) :
    (putAuth blk st r).authBlk = if st = .ok then .put blk else r.authBlk := by
  unfold putAuth; split <;> rfl

end Registers

section Held

@[simp] theorem held_put_value {α : Type} (v : α) : (Held.put v).value = v := rfl
@[simp] theorem held_put_written {α : Type} (v : α) : (Held.put v).written = true := rfl
@[simp] theorem held_fresh_value {α : Type} (v : α) : (Held.fresh v).value = v := rfl
@[simp] theorem held_fresh_written {α : Type} (v : α) : (Held.fresh v).written = false := rfl

end Held

section Ports

variable (c : Params) (stage : Stage) (a : Nat) (p : Port)

/-! `portWrite` -/

@[simp] theorem portWrite_answers (v : Byte) : (portWrite c stage a v p).answers = p.answers := rfl
@[simp] theorem portWrite_fails (v : Byte) : (portWrite c stage a v p).fails = p.fails.tail := rfl
@[simp] theorem portWrite_count (v : Byte) : (portWrite c stage a v p).count = p.count + 1 := rfl
@[simp] theorem portWrite_trace (v : Byte) : (portWrite c stage a v p).trace =
    .write stage a (busWriteAddr c a) v (drawFailure p) :: p.trace := rfl
@[simp] theorem portWrite_xferFails (v : Byte) : (portWrite c stage a v p).xferFails = countFailure (drawFailure p) p.xferFails := rfl

/-! `portRead` -/

@[simp] theorem portRead_answers : (portRead c stage a p).answers = p.answers.tail := rfl
@[simp] theorem portRead_fails : (portRead c stage a p).fails = p.fails.tail := rfl
@[simp] theorem portRead_count : (portRead c stage a p).count = p.count + 1 := rfl
@[simp] theorem portRead_trace : (portRead c stage a p).trace =
    .read stage a (busReadAddr c a) c.bus.dummy (drawAnswer p) (drawFailure p) :: p.trace := rfl
@[simp] theorem portRead_xferFails : (portRead c stage a p).xferFails = countFailure (drawFailure p) p.xferFails := rfl

/-- A scripted answer is the one drawn. -/
theorem drawAnswer_scripted (v : Byte) (vs : List Byte) (h : p.answers = v :: vs) : drawAnswer p = v := by
  simp [drawAnswer, h]

end Ports

end Sys2Proof.Machine
end

