-- ==== Sys2Proof/Laws/Prog.lean ====
section
/-! SUPPORT. What running a program does: one lemma per way of building one, and, said once for every program, what a run
does to the bus (`run_port`), which values it can end in (`Ends`), which properties of the working registers it keeps
(`Keeps`) and which chip registers it touches (`Touches`). -/

namespace Sys2Proof.Machine

variable {α β : Type}

/-! ### Sequencing -/

@[simp] theorem bind_done (a : α) (f : α → Prog β) : (Prog.done a).bind f = f a := rfl
@[simp] theorem bind_read (st : Stage) (r : Nat) (k : Byte → Prog α) (f : α → Prog β) :
    (Prog.read st r k).bind f = .read st r fun v => (k v).bind f := rfl
@[simp] theorem bind_write (st : Stage) (r : Nat) (v : Byte) (k : Prog α) (f : α → Prog β) :
    (Prog.write st r v k).bind f = .write st r v (k.bind f) := rfl
@[simp] theorem bind_work (g : Work → Work) (k : Prog α) (f : α → Prog β) :
    (Prog.work g k).bind f = .work g (k.bind f) := rfl

@[simp] theorem run_done (c : Params) (a : α) (p : Port) (w : Work) : (Prog.done a).run c p w = ⟨p, w, a⟩ := rfl
@[simp] theorem run_read (c : Params) (st : Stage) (r : Nat) (k : Byte → Prog α) (p : Port) (w : Work) :
    (Prog.read st r k).run c p w = (k (drawAnswer p)).run c (portRead c st r p) w := rfl
@[simp] theorem run_write (c : Params) (st : Stage) (r : Nat) (v : Byte) (k : Prog α) (p : Port) (w : Work) :
    (Prog.write st r v k).run c p w = k.run c (portWrite c st r v p) w := rfl
@[simp] theorem run_work (c : Params) (f : Work → Work) (k : Prog α) (p : Port) (w : Work) :
    (Prog.work f k).run c p w = k.run c p (f w) := rfl

/-- A sequence runs its first part, then its second from where the first left off. -/
theorem run_bind (c : Params) (x : Prog α) (f : α → Prog β) (p : Port) (w : Work) :
    (x.bind f).run c p w = (f (x.run c p w).val).run c (x.run c p w).port (x.run c p w).work := by
  induction x generalizing p w with
  | done a => rfl
  | read st r k ih => simp [ih]
  | write st r v k ih => simp [ih]
  | work g k ih => simp [ih]

/-- Sequencing is associative. -/
theorem bind_assoc {γ : Type} (x : Prog α) (f : α → Prog β) (g : β → Prog γ) :
    (x.bind f).bind g = x.bind fun a => (f a).bind g := by
  induction x with
  | done a => rfl
  | read st r k ih => simp [ih]
  | write st r v k ih => simp [ih]
  | work h k ih => simp [ih]

/-! ### The transfer helpers (41_register_port.md R140 to R143) -/

@[simp] theorem run_regRead (c : Params) (st : Stage) (a : Nat) (p : Port) (w : Work) :
    (regRead st a).run c p w = ⟨portRead c st a p, w, drawAnswer p⟩ := rfl
@[simp] theorem run_regWrite (c : Params) (st : Stage) (a : Nat) (v : Byte) (p : Port) (w : Work) :
    (regWrite st a v).run c p w = ⟨portWrite c st a v p, w, ()⟩ := rfl
@[simp] theorem run_setWork (c : Params) (f : Work → Work) (p : Port) (w : Work) :
    (setWork f).run c p w = ⟨p, f w, ()⟩ := rfl

/-- SetBits: the read, then a write of the value read with the mask's bits set (R142). -/
theorem run_setBits (c : Params) (st : Stage) (a : Nat) (m : Byte) (p : Port) (w : Work) :
    (setBits st a m).run c p w = ⟨portWrite c st a (drawAnswer p ||| m) (portRead c st a p), w, ()⟩ := rfl

/-- ClearBits: the read, then a write of the value read with the mask's bits cleared (R143). -/
theorem run_clearBits (c : Params) (st : Stage) (a : Nat) (m : Byte) (p : Port) (w : Work) :
    (clearBits st a m).run c p w = ⟨portWrite c st a (drawAnswer p &&& ~~~m) (portRead c st a p), w, ()⟩ := rfl

/-! ### What a run does to the bus -/

/-- A run adds transfers to the trace, counts them, counts the failed ones in XFER_FAILS, sends the wire bytes of R61,
and consumes scripted answers and outcomes from the front. -/
structure PortStep (c : Params) (p q : Port) : Prop where
  out : ∃ new, q.trace = new ++ p.trace ∧ q.count = p.count + new.length ∧
    q.xferFails = p.xferFails + new.countP Xfer.failed ∧ (∀ x ∈ new, x.WireOk c)
  answers : ∃ n, q.answers = p.answers.drop n
  fails : ∃ n, q.fails = p.fails.drop n

theorem PortStep.refl (c : Params) (p : Port) : PortStep c p p :=
  ⟨⟨[], by simp⟩, ⟨0, rfl⟩, ⟨0, rfl⟩⟩

theorem PortStep.trans {c : Params} {p q r : Port} (h : PortStep c p q) (k : PortStep c q r) : PortStep c p r := by
  obtain ⟨⟨n, hn, hc, hf, hw⟩, ⟨i, hi⟩, ⟨j, hj⟩⟩ := h
  obtain ⟨⟨n', hn', hc', hf', hw'⟩, ⟨i', hi'⟩, ⟨j', hj'⟩⟩ := k
  refine ⟨⟨n' ++ n, by simp [hn, hn'], by simp [hc, hc']; omega, by simp [hf, hf']; omega, ?_⟩, ⟨i + i', ?_⟩, ⟨j + j', ?_⟩⟩
  · intro x hx
    rcases List.mem_append.1 hx with h | h
    · exact hw' x h
    · exact hw x h
  · rw [hi', hi, List.drop_drop]
  · rw [hj', hj, List.drop_drop]

theorem portStep_write (c : Params) (st : Stage) (a : Nat) (v : Byte) (p : Port) : PortStep c p (portWrite c st a v p) := by
  refine ⟨⟨[_], rfl, rfl, ?_, ?_⟩, ⟨0, rfl⟩, ⟨1, by simp⟩⟩
  · cases h : drawFailure p <;> simp [countFailure, Xfer.failed, h]
  · intro x hx; rw [List.mem_singleton] at hx; subst hx; exact rfl

theorem portStep_read (c : Params) (st : Stage) (a : Nat) (p : Port) : PortStep c p (portRead c st a p) := by
  refine ⟨⟨[_], rfl, rfl, ?_, ?_⟩, ⟨1, by simp⟩, ⟨1, by simp⟩⟩
  · cases h : drawFailure p <;> simp [countFailure, Xfer.failed, h]
  · intro x hx; rw [List.mem_singleton] at hx; subst hx; exact ⟨rfl, rfl⟩

/-- Everything a run can do to the bus interface. -/
theorem run_port (c : Params) (x : Prog α) (p : Port) (w : Work) : PortStep c p (x.run c p w).port := by
  induction x generalizing p w with
  | done a => exact .refl c p
  | read st r k ih => exact (portStep_read c st r p).trans (ih ..)
  | write st r v k ih => exact (portStep_write c st r v p).trans (ih ..)
  | work g k ih => exact ih ..

/-! ### The values a program can end in -/

/-- Every value the program can end in, whatever the answers, has the property. -/
def Prog.Ends (Q : α → Prop) : Prog α → Prop
  | .done a => Q a
  | .read _ _ k => ∀ v, (k v).Ends Q
  | .write _ _ _ k => k.Ends Q
  | .work _ k => k.Ends Q

theorem ends_run {Q : α → Prop} {x : Prog α} (h : x.Ends Q) (c : Params) (p : Port) (w : Work) : Q (x.run c p w).val := by
  induction x generalizing p w with
  | done a => exact h
  | read st r k ih => exact ih _ (h _) ..
  | write st r v k ih => exact ih h ..
  | work g k ih => exact ih h ..

theorem ends_mono {P Q : α → Prop} {x : Prog α} (h : x.Ends P) (hpq : ∀ a, P a → Q a) : x.Ends Q := by
  induction x with
  | done a => exact hpq a h
  | read st r k ih => exact fun v => ih v (h v)
  | write st r v k ih => exact ih h
  | work g k ih => exact ih h

theorem ends_trivial (x : Prog α) : x.Ends fun _ => True := by
  induction x with
  | done a => trivial
  | read st r k ih => exact fun v => ih v
  | write st r v k ih => exact ih
  | work g k ih => exact ih

theorem ends_bind {P : α → Prop} {Q : β → Prop} {x : Prog α} {f : α → Prog β} (h : x.Ends P)
    (hf : ∀ a, P a → (f a).Ends Q) : (x.bind f).Ends Q := by
  induction x with
  | done a => exact hf a h
  | read st r k ih => exact fun v => ih v (h v)
  | write st r v k ih => exact ih h
  | work g k ih => exact ih h

/-- A sequence ends well if its second part does, whatever the first ends in. -/
theorem ends_bind_any {Q : β → Prop} {x : Prog α} {f : α → Prog β} (hf : ∀ a, (f a).Ends Q) : (x.bind f).Ends Q :=
  ends_bind (ends_trivial x) fun a _ => hf a

theorem ends_replay {Q : α → Prop} {x : Prog α} (h : x.Ends Q) (n : Nat) (vs : List Byte) : (x.replay n vs).Ends Q := by
  induction x generalizing n vs with
  | done a => cases n <;> exact h
  | read st r k ih =>
    cases n with
    | zero => exact h
    | succ n => cases vs with
      | nil => exact h
      | cons v vs => exact ih v (h v) n vs
  | write st r v k ih =>
    cases n with
    | zero => exact h
    | succ n => exact ih h n vs
  | work g k ih => exact ih h n vs

/-! ### Properties of the working registers that a program keeps -/

/-- Every update of the working registers in the program keeps the property. -/
def Prog.Keeps (P : Work → Prop) : Prog α → Prop
  | .done _ => True
  | .read _ _ k => ∀ v, (k v).Keeps P
  | .write _ _ _ k => k.Keeps P
  | .work f k => (∀ w, P w → P (f w)) ∧ k.Keeps P

theorem keeps_run {P : Work → Prop} {x : Prog α} (h : x.Keeps P) (c : Params) (p : Port) {w : Work} (hw : P w) :
    P (x.run c p w).work := by
  induction x generalizing p w with
  | done a => exact hw
  | read st r k ih => exact ih _ (h _) _ hw
  | write st r v k ih => exact ih h _ hw
  | work g k ih => exact ih h.2 _ (h.1 _ hw)

theorem keeps_bind {P : Work → Prop} {x : Prog α} {f : α → Prog β} (h : x.Keeps P) (hf : ∀ a, (f a).Keeps P) :
    (x.bind f).Keeps P := by
  induction x with
  | done a => exact hf a
  | read st r k ih => exact fun v => ih v (h v)
  | write st r v k ih => exact ih h
  | work g k ih => exact ⟨h.1, ih h.2⟩

theorem keeps_replay {P : Work → Prop} {x : Prog α} (h : x.Keeps P) (n : Nat) (vs : List Byte) :
    (x.replay n vs).Keeps P := by
  induction x generalizing n vs with
  | done a => cases n <;> exact h
  | read st r k ih =>
    cases n with
    | zero => exact h
    | succ n => cases vs with
      | nil => exact h
      | cons v vs => exact ih v (h v) n vs
  | write st r v k ih =>
    cases n with
    | zero => exact h
    | succ n => exact ih h n vs
  | work g k ih => exact ih h.2 n vs

/-! ### Settling -/

/-- Settling makes the leading updates: the property is kept, and what is left ends as before. -/
theorem settle_keeps {P : Work → Prop} {x : Prog α} (h : x.Keeps P) {w : Work} (hw : P w) : P (x.settle w).2 := by
  induction x generalizing w with
  | done a => exact hw
  | read st r k ih => exact hw
  | write st r v k ih => exact hw
  | work g k ih => exact ih h.2 (h.1 _ hw)

theorem settle_ends {Q : α → Prop} {x : Prog α} (h : x.Ends Q) (w : Work) : (x.settle w).1.Ends Q := by
  induction x generalizing w with
  | done a => exact h
  | read st r k ih => exact h
  | write st r v k ih => exact h
  | work g k ih => exact ih h _

/-- A settled program runs as the program did. -/
theorem run_settle (c : Params) (x : Prog α) (p : Port) (w : Work) :
    (x.settle w).1.run c p (x.settle w).2 = x.run c p w := by
  induction x generalizing w with
  | done a => rfl
  | read st r k ih => rfl
  | write st r v k ih => rfl
  | work g k ih => exact ih _

/-! ### The chip registers a program touches -/

/-- Every transfer of the program is for a register with the property. -/
def Prog.Touches (R : Nat → Prop) : Prog α → Prop
  | .done _ => True
  | .read _ a k => R a ∧ ∀ v, (k v).Touches R
  | .write _ a _ k => R a ∧ k.Touches R
  | .work _ k => k.Touches R

theorem touches_bind {R : Nat → Prop} {x : Prog α} {f : α → Prog β} (h : x.Touches R) (hf : ∀ a, (f a).Touches R) :
    (x.bind f).Touches R := by
  induction x with
  | done a => exact hf a
  | read st r k ih => exact ⟨h.1, fun v => ih v (h.2 v)⟩
  | write st r v k ih => exact ⟨h.1, ih h.2⟩
  | work g k ih => exact ih h

/-- The transfers a run adds to the trace are for registers with the property. -/
theorem touches_run {R : Nat → Prop} {x : Prog α} (h : x.Touches R) (c : Params) (p : Port) (w : Work) :
    ∃ new, (x.run c p w).port.trace = new ++ p.trace ∧ ∀ t ∈ new, R t.reg := by
  induction x generalizing p w with
  | done a => exact ⟨[], rfl, by simp⟩
  | read st r k ih =>
    obtain ⟨new, h1, h2⟩ := ih _ (h.2 (drawAnswer p)) (portRead c st r p) w
    refine ⟨new ++ [_], by rw [run_read, h1, portRead_trace, List.append_assoc]; rfl, ?_⟩
    intro t ht
    rcases List.mem_append.1 ht with h' | h'
    · exact h2 t h'
    · rw [List.mem_singleton] at h'; subst h'; exact h.1
  | write st r v k ih =>
    obtain ⟨new, h1, h2⟩ := ih h.2 (portWrite c st r v p) w
    refine ⟨new ++ [_], by rw [run_write, h1, portWrite_trace, List.append_assoc]; rfl, ?_⟩
    intro t ht
    rcases List.mem_append.1 ht with h' | h'
    · exact h2 t h'
    · rw [List.mem_singleton] at h'; subst h'; exact h.1
  | work g k ih => exact ih h p (g w)

end Sys2Proof.Machine
end

