-- ==== Sys2Proof/Laws/Exec.lean ====
section
/-! SUPPORT. What an operation can do, said once: exec runs the operation's plan (`exec_eq`), a plan is turned away or
completes (`serve_cases`), and a step answers in one of a few ways. -/

namespace Sys2Proof.Machine

/-- The rows the source fixes have the source's values in a legal configuration (00_scope.md R10, log 5). -/
theorem source_of_legal {c : Params} (h : paramsLegal c = true) : c.source = {} := by
  simp only [paramsLegal, Bool.and_eq_true, decide_eq_true_eq] at h
  exact h.1.1.1

/-- A bus address function listed for the addresses 0..n is the function listed: every one is an argument (log 6). -/
theorem busAddr_listed (f : Nat → Byte) {n a : Nat} (h : a ≤ n) :
    busAddr (.listed ((List.range (n + 1)).map f)) a = f a := by
  simp [busAddr, List.getD, Nat.lt_succ_of_le h]

/-- exec of an operation is its plan, run whole. -/
theorem exec_eq (i : Instr) (s : State) : exec i s = runPlan (planOf i s.cfg s.regs) s := by
  cases i <;> rfl

/-- A block with a legal configuration answers a next state. -/
theorem runPlan_legal {s : State} (h : paramsLegal s.cfg = true) (p : Plan) : runPlan p s = .next (serve p s) := by
  simp [runPlan, guarded, h]

/-- A block with an illegal configuration is refused (00_scope.md R11). -/
theorem runPlan_illegal {s : State} (h : paramsLegal s.cfg = false) (p : Plan) : runPlan p s = .refused .illegalConfig := by
  simp [runPlan, guarded, h]

/-- exec of an operation in a legal configuration. -/
theorem exec_legal {s : State} (h : paramsLegal s.cfg = true) (i : Instr) :
    exec i s = .next (serve (planOf i s.cfg s.regs) s) := by
  rw [exec_eq, runPlan_legal h]

/-- A next state of exec is the plan served, in a legal configuration. -/
theorem exec_next {i : Instr} {s t : State} (h : exec i s = .next t) :
    paramsLegal s.cfg = true ∧ t = serve (planOf i s.cfg s.regs) s := by
  rw [exec_eq] at h
  unfold runPlan guarded at h
  split at h
  · exact ⟨‹_›, by injection h with h; exact h.symm⟩
  · cases h

theorem serve_busy {s : State} {op : Instr} {n : Nat} {vs : List Byte} (h : s.phase = .busy op n vs) (p : Plan) :
    serve p s = rejectBusy s := by
  simp [serve, h]

theorem serve_reject {s : State} (h : s.phase = .idle) {p : Plan} {code : RejectCode} (hr : p.reject = some code) :
    serve p s = reject code s := by
  simp [serve, h, hr]

theorem serve_complete {s : State} (h : s.phase = .idle) {p : Plan} (hr : p.reject = none) : serve p s = complete p s := by
  simp [serve, h, hr]

/-- Everything serving a plan can do: E_BUSY, another rejection, or the whole operation (60_exceptions.md R300, R302). -/
theorem serve_cases (p : Plan) (s : State) :
    (∃ op n vs, s.phase = .busy op n vs ∧ serve p s = rejectBusy s) ∨
    (∃ code, s.phase = .idle ∧ p.reject = some code ∧ serve p s = reject code s) ∨
    (s.phase = .idle ∧ p.reject = none ∧ serve p s = complete p s) := by
  cases h : s.phase with
  | busy op n vs => exact .inl ⟨op, n, vs, rfl, serve_busy h p⟩
  | idle =>
    cases hr : p.reject with
    | some code => exact .inr (.inl ⟨code, rfl, rfl, serve_reject h hr⟩)
    | none => exact .inr (.inr ⟨rfl, rfl, serve_complete h hr⟩)

/-- The fields of a completed operation. -/
theorem complete_eq (p : Plan) (s : State) :
    complete p s = { s with
      phase := .idle
      violation := s.violation || p.violates
      outcome := .put .done
      regs := (p.prog.run s.cfg s.port s.work).val
      work := (p.prog.run s.cfg s.port s.work).work
      port := (p.prog.run s.cfg s.port s.work).port } := rfl

/-- An operation accepted by a ready block. -/
theorem exec_complete {s : State} (h : s.Ready) {i : Instr} (hr : (planOf i s.cfg s.regs).reject = none) :
    exec i s = .next (complete (planOf i s.cfg s.regs) s) := by
  rw [exec_legal h.1, serve_complete h.2 hr]

/-- An operation rejected by a ready block (R300). -/
theorem exec_reject {s : State} (h : s.Ready) {i : Instr} {code : RejectCode}
    (hr : (planOf i s.cfg s.regs).reject = some code) : exec i s = .next (reject code s) := by
  rw [exec_legal h.1, serve_reject h.2 hr]

/-- Whether an operation is rejected does not depend on the registers. -/
theorem planOf_reject_regs (i : Instr) (c : Params) (r r' : Regs) : (planOf i c r).reject = (planOf i c r').reject := by
  cases i <;> rfl

/-! ### Steps -/

theorem step_offer {s : State} {o : Offer} {rest : List HostEvent} (h : s.host = .offer o :: rest) :
    step s = offerOp o { s with host := rest } := by
  simp [step, h, hostEvent]

theorem step_quiet {s : State} (h : s.host = []) : step s = quietStep s := by
  simp [step, h]

/-- A quiet block with a legal configuration advances. -/
theorem quietStep_legal {s : State} (h : paramsLegal s.cfg = true) : quietStep s = .next (advance s) := by
  simp [quietStep, guarded, h]

theorem advance_idle {s : State} (h : s.phase = .idle) : advance s = s := by
  simp [advance, h]

theorem advance_busy {s : State} {i : Instr} {n : Nat} {vs : List Byte} (h : s.phase = .busy i n vs) :
    advance s = transferStep i n vs (remaining i n vs s) s := by
  simp [advance, h]

/-- Everything settling into a program can do: the operation ends, or the block waits before a transfer. -/
theorem settleInto_cases (i : Instr) (n : Nat) (vs : List Byte) (x : Prog Regs) (s : State) :
    (∃ r, x.settle s.work = (.done r, (x.settle s.work).2) ∧
      settleInto i n vs x s = finish r { s with work := (x.settle s.work).2 }) ∨
    settleInto i n vs x s = { s with work := (x.settle s.work).2, phase := .busy i n vs } := by
  unfold settleInto
  generalize x.settle s.work = y
  obtain ⟨y, w⟩ := y
  cases y with
  | done r => exact .inl ⟨r, rfl, rfl⟩
  | read st a k => exact .inr rfl
  | write st a v k => exact .inr rfl
  | work f k => exact .inr rfl

end Sys2Proof.Machine
end

