-- ==== Sys2Proof/Laws/Frames.lean ====
section
/-! SUPPORT. The frame bytes a program writes in the FILL phases of its dispatches, whatever the chip answers: `Fills`, one
lemma per way of building a program, and the frames of the shared operations. -/

namespace Sys2Proof.Machine

variable {c : Params} {α β : Type}

/-- Every way the program can run, with the frame bytes it writes (43_command_channel.md R183) and the value it ends in, is in
`Q`. -/
def Fills : Prog α → (List Byte → α → Prop) → Prop
  | .done a, Q => Q [] a
  | .read _ _ k, Q => ∀ v, Fills (k v) Q
  | .write st _ v k, Q => Fills k fun bs a => Q ((if st = .fill then [v] else []) ++ bs) a
  | .work _ k, Q => Fills k Q

theorem fills_mono {x : Prog α} {P Q : List Byte → α → Prop} (h : Fills x P) (hpq : ∀ bs a, P bs a → Q bs a) : Fills x Q := by
  induction x generalizing P Q with
  | done a => exact hpq _ _ h
  | read st r k ih => exact fun v => ih v (h v) hpq
  | write st r v k ih => exact ih h fun bs a => hpq _ _
  | work g k ih => exact ih h hpq

/-- Frames of a sequence. -/
theorem fills_bind {x : Prog α} {f : α → Prog β} {P : List Byte → α → Prop} {Q : List Byte → β → Prop} (h : Fills x P)
    (hf : ∀ bs a, P bs a → Fills (f a) fun cs b => Q (bs ++ cs) b) :
    Fills (x.bind f) Q := by
  induction x generalizing P Q with
  | done a => exact hf [] a h
  | read st r k ih => exact fun v => ih v (h v) hf
  | write st r v k ih => exact ih h fun bs a hp => by simpa using hf _ a hp
  | work g k ih => exact ih h hf

/-- The frame bytes of transfers after an older one. -/
theorem fill_snoc (new : List Xfer) (x : Xfer) : fillBytes (new ++ [x]) = x.fillByte.toList ++ fillBytes new := by
  cases h : x.fillByte <;> simp [fillBytes, h]

/-- A run adds transfers whose frame bytes, with the value, are in `Q`. -/
theorem fills_run {x : Prog α} {Q : List Byte → α → Prop} (h : Fills x Q) (p : Port) (w : Work) :
    ∃ new, (x.run c p w).port.trace = new ++ p.trace ∧ Q (fillBytes new) (x.run c p w).val := by
  induction x generalizing p w Q with
  | done a => exact ⟨[], rfl, h⟩
  | read st r k ih =>
    obtain ⟨new, h1, h2⟩ := ih _ (h (drawAnswer p)) (portRead c st r p) w
    refine ⟨new ++ [_], by rw [run_read, h1, portRead_trace, List.append_assoc]; rfl, ?_⟩
    rw [fill_snoc]; exact h2
  | write st r v k ih =>
    obtain ⟨new, h1, h2⟩ := ih h (portWrite c st r v p) w
    refine ⟨new ++ [_], by rw [run_write, h1, portWrite_trace, List.append_assoc]; rfl, ?_⟩
    rw [fill_snoc]; cases st <;> exact h2
  | work g k ih => exact ih h p (g w)

/-- The program writes no frame byte. -/
abbrev Silent (x : Prog α) : Prop := Fills x fun bs _ => bs = []
/-- A silent program first adds no frame byte. -/
theorem silent_bind {x : Prog α} {f : α → Prog β} {Q : List Byte → β → Prop} (h : Silent x)
    (hf : ∀ a, Fills (f a) Q) : Fills (x.bind f) Q :=
  fills_bind h fun bs a hb => by subst hb; exact hf a
theorem silent_regRead (st : Stage) (a : Nat) : Silent (regRead st a) := fun _ => rfl
theorem silent_regWrite (st : Stage) (a : Nat) (v : Byte) (h : st ≠ .fill) : Silent (regWrite st a v) := by
  simp [Silent, regWrite, Fills, h]
theorem silent_setBits (st : Stage) (a : Nat) (v : Byte) (h : st ≠ .fill) : Silent (setBits st a v) :=
  silent_bind (silent_regRead _ _) fun _ => silent_regWrite _ _ _ h
theorem silent_clearBits (st : Stage) (a : Nat) (v : Byte) (h : st ≠ .fill) : Silent (clearBits st a v) :=
  silent_bind (silent_regRead _ _) fun _ => silent_regWrite _ _ _ h
theorem silent_setWork (f : Work → Work) : Silent (setWork f) := rfl
theorem silent_done (a : α) : Silent (.done a) := rfl
theorem silent_writeAll (st : Stage) (a : Nat) (bs : List Byte) (h : st ≠ .fill) : Silent (writeAll st a bs) := by
  induction bs with | nil => rfl | cons b bs ih => exact silent_bind (silent_regWrite _ _ _ h) fun _ => ih
/-- The FILL phase writes the bytes given. -/
theorem fills_writeAll (a : Nat) (bs : List Byte) : Fills (writeAll .fill a bs) fun cs _ => cs = bs := by
  induction bs with
  | nil => rfl
  | cons b bs ih => exact fills_bind (P := fun cs _ => cs = [b]) rfl fun cs _ hc => fills_mono ih fun ds _ hd => by simp [hc, hd]
theorem silent_readMany (st : Stage) (a n : Nat) : Silent (readMany st a n) := by
  induction n with | zero => rfl | succ n ih => exact silent_bind (silent_regRead _ _) fun _ => silent_bind ih fun _ => rfl

/-- A CRC run writes no frame byte, and answers the buffer with its last two bytes replaced. -/
theorem fills_crc (buf : List Byte) :
    Fills (crc c buf) fun bs out => bs = [] ∧ ∃ lo hi, out = buf.take (buf.length - 2) ++ [lo, hi] := by
  have hl : ∀ n, Silent (crcPollLoop c n) := by
    intro n; induction n with
    | zero => rfl
    | succ n ih =>
      refine silent_bind (silent_regRead _ _) fun v => silent_bind (silent_setWork _) fun _ => ?_
      split
      · rfl
      · exact ih
  refine silent_bind (silent_clearBits _ _ _ (by decide)) fun _ => silent_bind ?_ fun _ => silent_bind ?_ fun _ =>
    silent_bind (silent_regRead _ _) fun lo => silent_bind (silent_regRead _ _) fun hi => ⟨rfl, lo, hi, rfl⟩
  · exact silent_bind (silent_setBits _ _ _ (by decide)) fun _ =>
      silent_bind (silent_writeAll _ _ _ (by decide)) fun _ => silent_regWrite _ _ _ (by decide)
  · exact silent_bind (silent_setWork _) fun _ => silent_bind (hl _) fun _ => silent_setWork _

/-- A dispatch writes exactly its frame (R183). -/
theorem fills_dispatch (cmd : Byte) (out : List Byte) : Fills (dispatch c cmd out) fun bs _ => bs = out := by
  have hl : ∀ wt n l, Silent (dispatchPollLoop c wt n l) := by
    intro wt n; induction n with
    | zero => intro l; rfl
    | succ n ih =>
      intro l
      refine silent_bind (silent_regRead _ _) fun v => silent_bind (silent_setWork _) fun _ => ?_
      split
      · rfl
      · exact ih v
  refine silent_bind (silent_bind (silent_setWork _) fun _ => silent_bind ?_ fun _ =>
    silent_bind (silent_clearBits _ _ _ (by decide)) fun _ => silent_bind (silent_setBits _ _ _ (by decide)) fun _ =>
    silent_regWrite _ _ _ (by decide)) fun _ => ?_
  · split
    · exact silent_regWrite _ _ _ (by decide)
    · rfl
  refine fills_bind (P := fun bs _ => bs = out) ?_ fun bs _ hb => ?_
  · refine fills_bind (fills_writeAll _ _) fun bs _ hb => ?_
    subst hb
    refine fills_mono (P := fun cs _ => cs = []) ?_ fun cs _ h => by simp [h]
    exact silent_bind (silent_regWrite _ _ _ (by decide)) fun _ => by
      split
      · exact silent_setBits _ _ _ (by decide)
      · rfl
  · subst hb
    refine fills_mono (P := fun cs _ => cs = []) ?_ fun cs _ h => by simp [h]
    refine silent_bind (silent_bind (silent_setWork _) fun _ => silent_bind (hl _ _ _) fun _ =>
      silent_bind (silent_setWork _) fun _ => rfl) fun x => silent_bind (silent_clearBits _ _ _ (by decide)) fun _ => ?_
    split
    · rfl
    · refine silent_bind (silent_regRead _ _) fun e => ?_
      split
      · rfl
      · split
        · exact silent_bind (silent_regRead _ _) fun _ => silent_bind (silent_regRead _ _) fun _ =>
            silent_bind (silent_readMany _ _ _) fun _ => rfl
        · rfl

/-- An authentication sends the 12-byte frame (30_encoding.md R102). -/
theorem fills_authCore (mode : Byte) (blk : Nat) (key uid : List Byte) (r : Regs) :
    Fills (authCore c mode blk key uid r) fun bs _ => bs = [mode, BitVec.ofNat 8 blk] ++ key ++ uid.take 4 := by
  refine fills_bind (fills_dispatch _ _) fun bs _ hb => silent_bind (silent_regRead _ _) fun _ => ?_
  simpa [Fills, authFrame] using hb
/-- A read sends its 4-byte frame (R103). -/
theorem fills_readCore (blk : Nat) (r : Regs) :
    Fills (readCore c blk r) fun bs _ => ∃ lo hi, bs = [c.card.read, BitVec.ofNat 8 blk, lo, hi] := by
  refine fills_bind (fills_crc _) fun bs out ⟨hb, lo, hi, ho⟩ => fills_bind (fills_dispatch _ _) fun cs _ hc => ?_
  subst hb ho; exact ⟨lo, hi, by simp [hc]⟩
/-- A phase of WRITE sends its frame with the two CRC bytes (R104, R105). -/
theorem fills_writePhase (fr : List Byte) :
    Fills (writePhase c fr) fun bs _ => ∃ lo hi, bs = fr.take (fr.length - 2) ++ [lo, hi] := by
  refine fills_bind (fills_crc _) fun bs out ⟨hb, lo, hi, ho⟩ => fills_mono (fills_dispatch _ _) fun cs _ hc => ?_
  subst hb ho; exact ⟨lo, hi, by simp [hc]⟩

end Sys2Proof.Machine
end

