-- ==== Sys2Proof/Laws/Operands.lean ====
section
/-! SUPPORT. What each operand check answers, said once: the domain in which it passes, the code outside it, and that no
check answers E_BUSY; and what an operand that is a byte is worth. -/

namespace Sys2Proof.Machine

/-! ### Bytes as operands -/

@[simp] theorem toByte_byteVal (b : Byte) : toByte (byteVal b) = b := by simp [toByte, byteVal]

@[simp] theorem toBytes_ints (bs : List Byte) : toBytes (ints bs) = bs := by
  simp [toBytes, ints, Function.comp_def]

@[simp] theorem length_ints (bs : List Byte) : (ints bs).length = bs.length := by simp [ints]

theorem isByte_iff (x : Int) : isByte x = true ↔ 0 ≤ x ∧ x ≤ 255 := by simp [isByte]

@[simp] theorem isByte_byteVal (b : Byte) : isByte (byteVal b) = true := by
  have := b.isLt
  rw [isByte_iff]
  simp only [byteVal, Int.ofNat_eq_natCast]
  omega

/-! ### Each check -/

theorem checkByte_ok {x : Int} (h : 0 ≤ x ∧ x ≤ 255) : checkByte x = none := by
  simp [checkByte, (isByte_iff x).2 h]

theorem checkByte_bad {x : Int} (h : x < 0 ∨ 255 < x) : checkByte x = some .eOperand := by
  have : ¬isByte x = true := by rw [isByte_iff]; omega
  simp [checkByte, this]

@[simp] theorem checkByte_byteVal (b : Byte) : checkByte (byteVal b) = none := by simp [checkByte]

theorem checkElems_ok {xs : List Int} (h : ∀ x ∈ xs, 0 ≤ x ∧ x ≤ 255) : checkElems xs = none := by
  have : xs.all isByte = true := List.all_eq_true.2 fun x hx => (isByte_iff x).2 (h x hx)
  simp [checkElems, this]

theorem checkElems_bad {xs : List Int} (h : ∃ x ∈ xs, x < 0 ∨ 255 < x) : checkElems xs = some .eOperand := by
  obtain ⟨x, hx, hv⟩ := h
  have : ¬xs.all isByte = true := fun hh => by
    have := (isByte_iff x).1 (List.all_eq_true.1 hh x hx)
    omega
  simp only [checkElems, if_neg this]

@[simp] theorem checkElems_ints (bs : List Byte) : checkElems (ints bs) = none := by
  have : (ints bs).all isByte = true := by simp [ints]
  simp only [checkElems, if_pos this]

theorem checkReg_ok {c : Params} {a : Int} (h : 0 ≤ a ∧ a ≤ (c.regAddrMax : Int)) : checkReg c a = none := by
  simp [checkReg, h.1, h.2]

theorem checkReg_bad {c : Params} {a : Int} (h : a < 0 ∨ (c.regAddrMax : Int) < a) : checkReg c a = some .eRegAddr := by
  have : ¬(decide (0 ≤ a) && decide (a ≤ (c.regAddrMax : Int))) = true := by simp; omega
  simp only [checkReg, if_neg this]

theorem checkBlk_ok {b : Int} (h : 0 ≤ b ∧ b ≤ 63) : checkBlk b = none := by
  simp [checkBlk, h.1, h.2]

theorem checkBlk_bad {b : Int} (h : b < 0 ∨ 63 < b) : checkBlk b = some .eBlkAddr := by
  have : ¬(decide (0 ≤ b) && decide (b ≤ 63)) = true := by simp; omega
  simp only [checkBlk, if_neg this]

theorem checkBlk_natCast {b : Nat} (h : b < 64) : checkBlk (b : Int) = none := checkBlk_ok ⟨by omega, by omega⟩

theorem checkLen_bad {n : Nat} {code : RejectCode} {xs : List Int} (h : xs.length ≠ n) :
    checkLen n code xs = some code := by
  simp [checkLen, h]

theorem checkLen_ints {n : Nat} {code : RejectCode} {bs : List Byte} (h : bs.length = n) :
    checkLen n code (ints bs) = none := by
  simp [checkLen, h]

theorem checkKey_ints {c : Params} (hs : c.source = {}) {bs : List Byte} (h : bs.length = 6) : checkKey c (ints bs) = none :=
  checkLen_ints (by rw [h, hs])
theorem checkUid_ints {c : Params} (hs : c.source = {}) {bs : List Byte} (h : bs.length = 5) : checkUid c (ints bs) = none :=
  checkLen_ints (by rw [h, hs])
theorem checkData_ints {c : Params} (hs : c.source = {}) {bs : List Byte} (h : bs.length = 16) : checkData c (ints bs) = none :=
  checkLen_ints (by rw [h, hs])

theorem checkBuf_ints {bs : List Byte} (h : 2 ≤ bs.length) : checkBuf (ints bs) = none := by
  simp [checkBuf, Nat.not_lt.2 h]

theorem checkBuf_short {xs : List Int} (h : xs.length < 2) : checkBuf xs = some .eCrcLen := by
  simp [checkBuf, h]

theorem checkSector_ok {c : Params} (hs : c.source = {}) {x : Int} (h : 0 ≤ x ∧ x ≤ 15) : checkSector c x = none := by
  have : (decide (0 ≤ x) && decide (x ≤ (c.source.numSectors : Int) - 1)) = true := by
    have h16 : (c.source.numSectors : Int) = 16 := by rw [hs]; rfl
    simp only [Bool.and_eq_true, decide_eq_true_eq]
    omega
  simp only [checkSector, if_pos this]

theorem checkSector_bad {c : Params} (hs : c.source = {}) {x : Int} (h : x < 0 ∨ 15 < x) : checkSector c x = some .eSector := by
  have : ¬(decide (0 ≤ x) && decide (x ≤ (c.source.numSectors : Int) - 1)) = true := by
    have h16 : (c.source.numSectors : Int) = 16 := by rw [hs]; rfl
    simp only [Bool.and_eq_true, decide_eq_true_eq]
    omega
  simp only [checkSector, if_neg this]

theorem checkBlockIn_ok {c : Params} (hs : c.source = {}) {x : Int} (h : 0 ≤ x ∧ x ≤ 3) : checkBlockIn c x = none := by
  have : (decide (0 ≤ x) && decide (x ≤ (c.source.numBlocks : Int) - 1)) = true := by
    have h4 : (c.source.numBlocks : Int) = 4 := by rw [hs]; rfl
    simp only [Bool.and_eq_true, decide_eq_true_eq]
    omega
  simp only [checkBlockIn, if_pos this]

theorem checkBlockIn_bad {c : Params} (hs : c.source = {}) {x : Int} (h : x < 0 ∨ 3 < x) : checkBlockIn c x = some .eBlock := by
  have : ¬(decide (0 ≤ x) && decide (x ≤ (c.source.numBlocks : Int) - 1)) = true := by
    have h4 : (c.source.numBlocks : Int) = 4 := by rw [hs]; rfl
    simp only [Bool.and_eq_true, decide_eq_true_eq]
    omega
  simp only [checkBlockIn, if_neg this]

/-! ### No operand check answers E_BUSY (60_exceptions.md R301) -/

theorem or_ne_some {a b : Option RejectCode} {code : RejectCode} (ha : a ≠ some code) (hb : b ≠ some code) :
    a.or b ≠ some code := by
  cases a <;> simp_all

theorem checkElems_not_busy (xs : List Int) : checkElems xs ≠ some .eBusy := by unfold checkElems; split <;> simp

theorem checkLen_not_busy {n : Nat} {code : RejectCode} (xs : List Int) (h : code ≠ .eBusy) :
    checkLen n code xs ≠ some .eBusy := by
  unfold checkLen
  split
  · exact checkElems_not_busy xs
  · simpa using h

theorem checkByte_not_busy (x : Int) : checkByte x ≠ some .eBusy := by unfold checkByte; split <;> simp
theorem checkReg_not_busy (c : Params) (x : Int) : checkReg c x ≠ some .eBusy := by unfold checkReg; split <;> simp
theorem checkBlk_not_busy (x : Int) : checkBlk x ≠ some .eBusy := by unfold checkBlk; split <;> simp

theorem planOf_not_busy (i : Instr) (c : Params) (r : Regs) : (planOf i c r).reject ≠ some .eBusy := by
  cases i with
  | rdreg a => exact checkReg_not_busy c a
  | wrreg a v => exact or_ne_some (checkReg_not_busy c a) (checkByte_not_busy v)
  | setbits a m => exact or_ne_some (checkReg_not_busy c a) (checkByte_not_busy m)
  | clrbits a m => exact or_ne_some (checkReg_not_busy c a) (checkByte_not_busy m)
  | calccrc buf =>
    show checkBuf buf ≠ _
    unfold checkBuf
    split
    · simp
    · exact checkElems_not_busy buf
  | exec cmd out => exact or_ne_some (checkByte_not_busy cmd) (checkElems_not_busy out)
  | mkaddr n k =>
    refine or_ne_some ?_ ?_
    · unfold checkSector; split <;> simp
    · unfold checkBlockIn; split <;> simp
  | mkuid uid => exact checkLen_not_busy uid (by simp)
  | mkkey key => exact checkLen_not_busy key (by simp)
  | mkdata data => exact checkLen_not_busy data (by simp)
  | select uid => exact checkLen_not_busy uid (by simp)
  | autha blk key uid =>
    exact or_ne_some (checkBlk_not_busy blk) (or_ne_some (checkLen_not_busy key (by simp)) (checkLen_not_busy uid (by simp)))
  | authb blk key uid =>
    exact or_ne_some (checkBlk_not_busy blk) (or_ne_some (checkLen_not_busy key (by simp)) (checkLen_not_busy uid (by simp)))
  | read blk => exact checkBlk_not_busy blk
  | write blk data => exact or_ne_some (checkBlk_not_busy blk) (checkLen_not_busy data (by simp))
  | dumpa key uid => exact or_ne_some (checkLen_not_busy key (by simp)) (checkLen_not_busy uid (by simp))
  | dumpb key uid => exact or_ne_some (checkLen_not_busy key (by simp)) (checkLen_not_busy uid (by simp))
  | reqidl => simp [planOf, planReqidl]
  | reqall => simp [planOf, planReqall]
  | anticoll => simp [planOf, planAnticoll]
  | stopcrypto => simp [planOf, planStopcrypto]

end Sys2Proof.Machine
end

