-- ==== Sys2Proof/Laws/Parts.lean ====
section
/-! SUPPORT. The parts of an operation, each described once: what a dispatch and a CRC run can answer, that they keep the
bounds of the working registers, and which chip registers they touch. -/

namespace Sys2Proof.Machine

variable {c : Params}

/-! ### What they can answer -/

/-- A dispatch's reply: 16 response bytes with zeros from RESP_LEN on, and RESP_LEN ≤ 16 (10_state.md R24). -/
structure ReplyOk (d : Reply) : Prop where
  length : d.resp.length = 16
  len : d.len ≤ 16
  pad : d.resp.drop d.len = zeros (16 - d.len)

theorem zeros_length (n : Nat) : (zeros n).length = n := by simp [zeros]

theorem clearedReply_ok (hs : c.source = {}) (st : Status) : ReplyOk (clearedReply c st) := by
  constructor <;> simp [clearedReply, zeros, hs]

theorem byteCount_le (hs : c.source = {}) (n : Nat) : byteCount c n ≤ 16 := by
  unfold byteCount
  rw [show c.source.maxLen = 16 by rw [hs]]
  split <;> omega

theorem padResp_ok (hs : c.source = {}) {bs : List Byte} {n : Nat} (st : Status) (bits : Int) (hn : bs.length = n) (h : n ≤ 16) :
    ReplyOk ⟨st, padResp c bs, n, bits⟩ := by
  subst hn
  refine ⟨?_, h, ?_⟩
  · rw [padResp, show c.source.maxLen = 16 by rw [hs]]
    simp only [zeros, List.length_append, List.length_replicate]; omega
  · simp [padResp, hs]

/-- `n` reads answer `n` bytes. -/
theorem readMany_ends (st : Stage) (a n : Nat) : (readMany st a n).Ends fun bs => bs.length = n := by
  induction n with
  | zero => rfl
  | succ n ih =>
    exact ends_bind_any fun v => ends_bind ih fun bs h => by simp [Prog.Ends, h]

theorem dispatchReadback_ends (hs : c.source = {}) (st : Status) : (dispatchReadback c st).Ends ReplyOk := by
  exact ends_bind_any fun f => ends_bind_any fun v =>
    ends_bind (readMany_ends _ _ _) fun bs h => padResp_ok hs _ _ h (byteCount_le hs _)

theorem dispatchResult_ends (hs : c.source = {}) (kd : Kind) (last : Byte) : (dispatchResult c kd last).Ends ReplyOk := by
  refine ends_bind_any fun e => ?_
  split
  · exact clearedReply_ok hs _
  · split
    · exact dispatchReadback_ends hs _
    · exact clearedReply_ok hs _

/-- Everything a dispatch can answer. -/
theorem dispatch_ends (hs : c.source = {}) (cmd : Byte) (out : List Byte) : (dispatch c cmd out).Ends ReplyOk := by
  refine ends_bind_any fun _ => ends_bind_any fun _ => ends_bind_any fun x => ends_bind_any fun _ => ?_
  split
  · exact clearedReply_ok hs _
  · exact dispatchResult_ends hs _ _

/-- A CRC run answers the buffer with its last two bytes replaced: of the same length from length 2 on (42_crc_engine.md
R163). -/
theorem crc_ends (buf : List Byte) :
    (crc c buf).Ends fun out => ∃ lo hi, out = buf.take (buf.length - 2) ++ [lo, hi] := by
  refine ends_bind_any fun _ => ends_bind_any fun _ => ends_bind_any fun _ => ?_
  exact ends_bind_any fun lo => ends_bind_any fun hi => ⟨lo, hi, rfl⟩

/-! ### The working registers stay within their bounds -/

theorem keeps_regRead {P : Work → Prop} (st : Stage) (a : Nat) : (regRead st a).Keeps P := fun _ => trivial
theorem keeps_regWrite {P : Work → Prop} (st : Stage) (a : Nat) (v : Byte) : (regWrite st a v).Keeps P := trivial
theorem keeps_setBits {P : Work → Prop} (st : Stage) (a : Nat) (m : Byte) : (setBits st a m).Keeps P := fun _ => trivial
theorem keeps_clearBits {P : Work → Prop} (st : Stage) (a : Nat) (m : Byte) : (clearBits st a m).Keeps P := fun _ => trivial
theorem keeps_setWork {P : Work → Prop} {f : Work → Work} (h : ∀ w, P w → P (f w)) : (setWork f).Keeps P := ⟨h, trivial⟩
theorem keeps_writeAll {P : Work → Prop} (st : Stage) (a : Nat) (bs : List Byte) : (writeAll st a bs).Keeps P := by
  induction bs with
  | nil => trivial
  | cons b bs ih => exact ih
theorem keeps_readMany {P : Work → Prop} (st : Stage) (a n : Nat) : (readMany st a n).Keeps P := by
  induction n with
  | zero => trivial
  | succ n ih => exact keeps_bind (keeps_regRead _ _) fun v => keeps_bind ih fun _ => trivial

theorem dispatchPollLoop_keeps (wait : Byte) (n : Nat) (l : Byte) (hn : n ≤ c.pollLimit) :
    (dispatchPollLoop c wait n l).Keeps (WorkOk c) := by
  induction n generalizing l with
  | zero => trivial
  | succ n ih =>
    intro v
    refine ⟨fun w hw => ⟨by simpa using by omega, hw.pollRemain, hw.crcCnt, hw.crcRemain⟩, ?_⟩
    simp only [bind_done]
    split
    · trivial
    · exact ih v (by omega)

/-- A dispatch keeps CNT and POLL_REMAIN within POLL_LIMIT (10_state.md R33). -/
theorem dispatch_keeps (cmd : Byte) (out : List Byte) : (dispatch c cmd out).Keeps (WorkOk c) := by
  refine keeps_bind ?_ fun _ => keeps_bind ?_ fun _ => keeps_bind ?_ fun x => keeps_bind (keeps_clearBits _ _ _) fun _ => ?_
  · refine keeps_bind (keeps_setWork fun w hw => ⟨hw.cnt, hw.pollRemain, hw.crcCnt, hw.crcRemain⟩) fun _ =>
      keeps_bind ?_ fun _ => keeps_bind (keeps_clearBits _ _ _) fun _ => keeps_bind (keeps_setBits _ _ _) fun _ =>
      keeps_regWrite _ _ _
    split <;> trivial
  · refine keeps_bind (keeps_writeAll _ _ _) fun _ => keeps_bind (keeps_regWrite _ _ _) fun _ => ?_
    split
    · exact keeps_setBits _ _ _
    · trivial
  · exact keeps_bind (keeps_setWork fun w hw => ⟨Nat.le_refl _, hw.pollRemain, hw.crcCnt, hw.crcRemain⟩) fun _ =>
      keeps_bind (dispatchPollLoop_keeps _ _ _ (Nat.le_refl _)) fun x =>
      keeps_bind (keeps_setWork fun w hw => ⟨hw.cnt, hw.cnt, hw.crcCnt, hw.crcRemain⟩) fun _ => trivial
  · split
    · trivial
    · refine keeps_bind (keeps_regRead _ _) fun e => ?_
      split
      · trivial
      · split
        · exact keeps_bind (keeps_regRead _ _) fun _ => keeps_bind (keeps_regRead _ _) fun _ =>
            keeps_bind (keeps_readMany _ _ _) fun _ => trivial
        · trivial

theorem crcPollLoop_keeps (n : Nat) (hn : n ≤ c.crcPollLimit) : (crcPollLoop c n).Keeps (WorkOk c) := by
  induction n with
  | zero => trivial
  | succ n ih =>
    intro v
    refine ⟨fun w hw => ⟨hw.cnt, hw.pollRemain, by simpa using by omega, hw.crcRemain⟩, ?_⟩
    simp only [bind_done]
    split
    · trivial
    · exact ih (by omega)

/-- A CRC run keeps CRC_CNT and CRC_REMAIN within CRC_POLL_LIMIT (10_state.md R34). -/
theorem crc_keeps (buf : List Byte) : (crc c buf).Keeps (WorkOk c) := by
  refine keeps_bind (keeps_clearBits _ _ _) fun _ => keeps_bind ?_ fun _ => keeps_bind ?_ fun _ =>
    keeps_bind (keeps_regRead _ _) fun _ => keeps_bind (keeps_regRead _ _) fun _ => trivial
  · exact keeps_bind (keeps_setBits _ _ _) fun _ => keeps_bind (keeps_writeAll _ _ _) fun _ => keeps_regWrite _ _ _
  · exact keeps_bind (keeps_setWork fun w hw => ⟨hw.cnt, hw.pollRemain, Nat.le_refl _, hw.crcRemain⟩) fun _ =>
      keeps_bind (crcPollLoop_keeps _ (Nat.le_refl _)) fun _ =>
      keeps_setWork fun w hw => ⟨hw.cnt, hw.pollRemain, hw.crcCnt, hw.crcCnt⟩

/-! ### What they leave of the working registers -/

/-- A CRC run writes only the CRC working registers (42_crc_engine.md R164). -/
theorem crc_work (buf : List Byte) (p : Port) (w : Work) :
    ((crc c buf).run c p w).work =
      { w with crcCnt := ((crc c buf).run c p w).work.crcCnt, crcRemain := ((crc c buf).run c p w).work.crcRemain } := by
  have hloop : ∀ n, (crcPollLoop c n).Keeps fun v => v = { w with crcCnt := v.crcCnt, crcRemain := v.crcRemain } := by
    intro n
    induction n with
    | zero => trivial
    | succ n ih =>
      intro v
      refine ⟨fun _ h => by rw [h], ?_⟩
      simp only [bind_done]
      split
      · trivial
      · exact ih
  refine keeps_run (P := fun v => v = { w with crcCnt := v.crcCnt, crcRemain := v.crcRemain }) ?_ c p rfl
  refine keeps_bind (keeps_clearBits _ _ _) fun _ => keeps_bind ?_ fun _ => keeps_bind ?_ fun _ =>
    keeps_bind (keeps_regRead _ _) fun _ => keeps_bind (keeps_regRead _ _) fun _ => trivial
  · exact keeps_bind (keeps_setBits _ _ _) fun _ => keeps_bind (keeps_writeAll _ _ _) fun _ => keeps_regWrite _ _ _
  · exact keeps_bind (keeps_setWork fun _ h => by rw [h]) fun _ => keeps_bind (hloop _) fun _ =>
      keeps_setWork fun _ h => by rw [h]

theorem dispatch_keeps_crc (cnt remain : Nat) (cmd : Byte) (out : List Byte) :
    (dispatch c cmd out).Keeps fun v => v.crcCnt = cnt ∧ v.crcRemain = remain := by
  have hloop : ∀ wait n l, (dispatchPollLoop c wait n l).Keeps fun v => v.crcCnt = cnt ∧ v.crcRemain = remain := by
    intro wait n
    induction n with
    | zero => intro l; trivial
    | succ n ih =>
      intro l v
      refine ⟨fun _ h => h, ?_⟩
      simp only [bind_done]
      split
      · trivial
      · exact ih v
  refine keeps_bind ?_ fun _ => keeps_bind ?_ fun _ => keeps_bind ?_ fun x => keeps_bind (keeps_clearBits _ _ _) fun _ => ?_
  · refine keeps_bind (keeps_setWork fun _ h => h) fun _ => keeps_bind ?_ fun _ => keeps_bind (keeps_clearBits _ _ _) fun _ =>
      keeps_bind (keeps_setBits _ _ _) fun _ => keeps_regWrite _ _ _
    split <;> trivial
  · refine keeps_bind (keeps_writeAll _ _ _) fun _ => keeps_bind (keeps_regWrite _ _ _) fun _ => ?_
    split
    · exact keeps_setBits _ _ _
    · trivial
  · exact keeps_bind (keeps_setWork fun _ h => h) fun _ => keeps_bind (hloop _ _ _) fun x =>
      keeps_bind (keeps_setWork fun _ h => h) fun _ => trivial
  · split
    · trivial
    · refine keeps_bind (keeps_regRead _ _) fun e => ?_
      split
      · trivial
      · split
        · exact keeps_bind (keeps_regRead _ _) fun _ => keeps_bind (keeps_regRead _ _) fun _ =>
            keeps_bind (keeps_readMany _ _ _) fun _ => trivial
        · trivial

/-- A dispatch keeps CRC_CNT and CRC_REMAIN (43_command_channel.md R193). -/
theorem dispatch_work (cmd : Byte) (out : List Byte) (p : Port) (w : Work) :
    ((dispatch c cmd out).run c p w).work.crcCnt = w.crcCnt ∧ ((dispatch c cmd out).run c p w).work.crcRemain = w.crcRemain :=
  keeps_run (P := fun v => v.crcCnt = w.crcCnt ∧ v.crcRemain = w.crcRemain) (dispatch_keeps_crc _ _ cmd out) c p ⟨rfl, rfl⟩

/-! ### The chip registers they touch -/

theorem touches_regRead {R : Nat → Prop} {a : Nat} (h : R a) (st : Stage) : (regRead st a).Touches R := ⟨h, fun _ => trivial⟩
theorem touches_regWrite {R : Nat → Prop} {a : Nat} (h : R a) (st : Stage) (v : Byte) : (regWrite st a v).Touches R :=
  ⟨h, trivial⟩
theorem touches_setBits {R : Nat → Prop} {a : Nat} (h : R a) (st : Stage) (m : Byte) : (setBits st a m).Touches R :=
  ⟨h, fun _ => ⟨h, trivial⟩⟩
theorem touches_clearBits {R : Nat → Prop} {a : Nat} (h : R a) (st : Stage) (m : Byte) : (clearBits st a m).Touches R :=
  ⟨h, fun _ => ⟨h, trivial⟩⟩
theorem touches_writeAll {R : Nat → Prop} {a : Nat} (h : R a) (st : Stage) (bs : List Byte) : (writeAll st a bs).Touches R := by
  induction bs with
  | nil => trivial
  | cons b bs ih => exact ⟨h, ih⟩
theorem touches_readMany {R : Nat → Prop} {a : Nat} (h : R a) (st : Stage) (n : Nat) : (readMany st a n).Touches R := by
  induction n with
  | zero => trivial
  | succ n ih => exact touches_bind (touches_regRead h _) fun v => touches_bind ih fun _ => trivial

theorem dispatchPollLoop_touches {R : Nat → Prop} (h : R c.reg.comIrq) (wait : Byte) (n : Nat) (l : Byte) :
    (dispatchPollLoop c wait n l).Touches R := by
  induction n generalizing l with
  | zero => trivial
  | succ n ih =>
    refine ⟨h, fun v => ?_⟩
    show Prog.Touches R (if _ then _ else _)
    split
    · trivial
    · exact ih v

theorem crcPollLoop_touches {R : Nat → Prop} (h : R c.reg.divIrq) (n : Nat) : (crcPollLoop c n).Touches R := by
  induction n with
  | zero => trivial
  | succ n ih =>
    refine ⟨h, fun v => ?_⟩
    show Prog.Touches R (if _ then _ else _)
    split
    · trivial
    · exact ih

/-- A dispatch touches only chip registers of R66 to R75. -/
theorem dispatch_touches (cmd : Byte) (out : List Byte) : (dispatch c cmd out).Touches (· ∈ sequencerRegs c) := by
  refine touches_bind ?_ fun _ => touches_bind ?_ fun _ => touches_bind ?_ fun x =>
    touches_bind (touches_clearBits (by simp [sequencerRegs]) _ _) fun _ => ?_
  · refine touches_bind trivial fun _ => touches_bind ?_ fun _ =>
      touches_bind (touches_clearBits (by simp [sequencerRegs]) _ _) fun _ =>
      touches_bind (touches_setBits (by simp [sequencerRegs]) _ _) fun _ => touches_regWrite (by simp [sequencerRegs]) _ _
    split
    · exact touches_regWrite (by simp [sequencerRegs]) _ _
    · trivial
  · refine touches_bind (touches_writeAll (by simp [sequencerRegs]) _ _) fun _ =>
      touches_bind (touches_regWrite (by simp [sequencerRegs]) _ _) fun _ => ?_
    split
    · exact touches_setBits (by simp [sequencerRegs]) _ _
    · trivial
  · exact touches_bind trivial fun _ => touches_bind (dispatchPollLoop_touches (by simp [sequencerRegs]) _ _ _) fun _ =>
      touches_bind trivial fun _ => trivial
  · split
    · trivial
    · refine touches_bind (touches_regRead (by simp [sequencerRegs]) _) fun e => ?_
      split
      · trivial
      · split
        · exact touches_bind (touches_regRead (by simp [sequencerRegs]) _) fun _ =>
            touches_bind (touches_regRead (by simp [sequencerRegs]) _) fun _ =>
            touches_bind (touches_readMany (by simp [sequencerRegs]) _ _) fun _ => trivial
        · trivial

/-- A CRC run touches only chip registers of R66 to R76. -/
theorem crc_touches (buf : List Byte) : (crc c buf).Touches (· ∈ sequencerRegs c) := by
  refine touches_bind (touches_clearBits (by simp [sequencerRegs]) _ _) fun _ => touches_bind ?_ fun _ =>
    touches_bind ?_ fun _ => touches_bind (touches_regRead (by simp [sequencerRegs]) _) fun _ =>
    touches_bind (touches_regRead (by simp [sequencerRegs]) _) fun _ => trivial
  · exact touches_bind (touches_setBits (by simp [sequencerRegs]) _ _) fun _ =>
      touches_bind (touches_writeAll (by simp [sequencerRegs]) _ _) fun _ => touches_regWrite (by simp [sequencerRegs]) _ _
  · exact touches_bind trivial fun _ => touches_bind (crcPollLoop_touches (by simp [sequencerRegs]) _) fun _ => trivial

end Sys2Proof.Machine
end

