-- ==== Sys2Proof/Laws/PerInstr.lean ====
section
/-! SUPPORT. The per-instruction family `Encoding`: the descriptor byte of each operation and the length of its serial form
(30_encoding.md R90, R92, R95). -/

namespace Sys2Proof.Laws.Encoding

/-- R90: the group of an operation: 0 register port, 1 CRC and dispatch, 2 value types, 3 discovery, 4 access, 5 dump. -/
def groupOf : Instr → Nat
  | .rdreg _ => 0
  | .wrreg _ _ => 0
  | .setbits _ _ => 0
  | .clrbits _ _ => 0
  | .calccrc _ => 1
  | .exec _ _ => 1
  | .mkaddr _ _ => 2
  | .mkuid _ => 2
  | .mkkey _ => 2
  | .mkdata _ => 2
  | .reqidl => 3
  | .reqall => 3
  | .anticoll => 3
  | .select _ => 3
  | .autha _ _ _ => 4
  | .authb _ _ _ => 4
  | .read _ => 4
  | .write _ _ => 4
  | .stopcrypto => 4
  | .dumpa _ _ => 5
  | .dumpb _ _ => 5

/-- R95: the length of a serial operation, "fixed by OPC plus the list lengths it carries". -/
def serialLength : Instr → Nat
  | .rdreg _ => 2
  | .wrreg _ _ => 3
  | .setbits _ _ => 3
  | .clrbits _ _ => 3
  | .calccrc buf => 2 + buf.length
  | .exec _ out => 3 + out.length
  | .mkaddr _ _ => 3
  | .mkuid uid => 2 + uid.length
  | .mkkey key => 2 + key.length
  | .mkdata data => 2 + data.length
  | .reqidl => 1
  | .reqall => 1
  | .anticoll => 1
  | .select uid => 2 + uid.length
  | .autha _ key uid => 4 + key.length + uid.length
  | .authb _ key uid => 4 + key.length + uid.length
  | .read _ => 2
  | .write _ data => 3 + data.length
  | .stopcrypto => 1
  | .dumpa key uid => 3 + key.length + uid.length
  | .dumpb key uid => 3 + key.length + uid.length

/-- The serial form starts with the descriptor byte, which is GRP and FN of R90 with the operation's group, and is as long
as R95 says. -/
def Statement (i : Instr) : Prop :=
  (encode i).head? = some i.opcode ∧ i.opcode.toNat = 16 * opcodeGrp i.opcode + opcodeFn i.opcode ∧
  opcodeGrp i.opcode = groupOf i ∧ (encode i).length = serialLength i

theorem length_encodeList (xs : List Int) : (encodeList xs).length = 1 + xs.length := by
  simp [encodeList, Nat.add_comm]

/-- The descriptor byte is as Statement says for every operation; its length is left. -/
theorem of_length {i : Instr} (h : (encode i).length = serialLength i) : Statement i := by
  refine ⟨rfl, ?_, ?_, h⟩
  · cases i <;> simp [opcodeGrp, opcodeFn, Instr.opcode]
  · cases i <;> simp [opcodeGrp, Instr.opcode, groupOf]

theorem rdreg (a : Int) : Statement (.rdreg a) := of_length rfl
theorem wrreg (a : Int) (v : Int) : Statement (.wrreg a v) := of_length rfl
theorem setbits (a : Int) (m : Int) : Statement (.setbits a m) := of_length rfl
theorem clrbits (a : Int) (m : Int) : Statement (.clrbits a m) := of_length rfl
theorem calccrc (buf : List Int) : Statement (.calccrc buf) :=
  of_length (by simp [encode, encodeOperands, length_encodeList, serialLength]; omega)
theorem exec (cmd : Int) (out : List Int) : Statement (.exec cmd out) :=
  of_length (by simp [encode, encodeOperands, length_encodeList, serialLength]; omega)
theorem mkaddr (n : Int) (k : Int) : Statement (.mkaddr n k) := of_length rfl
theorem mkuid (uid : List Int) : Statement (.mkuid uid) :=
  of_length (by simp [encode, encodeOperands, length_encodeList, serialLength]; omega)
theorem mkkey (key : List Int) : Statement (.mkkey key) :=
  of_length (by simp [encode, encodeOperands, length_encodeList, serialLength]; omega)
theorem mkdata (data : List Int) : Statement (.mkdata data) :=
  of_length (by simp [encode, encodeOperands, length_encodeList, serialLength]; omega)
theorem reqidl : Statement .reqidl := of_length rfl
theorem reqall : Statement .reqall := of_length rfl
theorem anticoll : Statement .anticoll := of_length rfl
theorem select (uid : List Int) : Statement (.select uid) :=
  of_length (by simp [encode, encodeOperands, length_encodeList, serialLength]; omega)
theorem autha (blk : Int) (key : List Int) (uid : List Int) : Statement (.autha blk key uid) :=
  of_length (by simp [encode, encodeOperands, length_encodeList, serialLength]; omega)
theorem authb (blk : Int) (key : List Int) (uid : List Int) : Statement (.authb blk key uid) :=
  of_length (by simp [encode, encodeOperands, length_encodeList, serialLength]; omega)
theorem read (blk : Int) : Statement (.read blk) := of_length rfl
theorem write (blk : Int) (data : List Int) : Statement (.write blk data) :=
  of_length (by simp [encode, encodeOperands, length_encodeList, serialLength]; omega)
theorem stopcrypto : Statement .stopcrypto := of_length rfl
theorem dumpa (key : List Int) (uid : List Int) : Statement (.dumpa key uid) :=
  of_length (by simp [encode, encodeOperands, length_encodeList, serialLength]; omega)
theorem dumpb (key : List Int) (uid : List Int) : Statement (.dumpb key uid) :=
  of_length (by simp [encode, encodeOperands, length_encodeList, serialLength]; omega)

end Sys2Proof.Laws.Encoding
end

