-- ==== Sys2Proof/Laws/Plans.lean ====
section
/-! SUPPORT. What the program of each operation can do, said once for every chip: the registers it ends in keep their
shapes (`plan_ends`), the working registers keep their bounds (`plan_keeps`), and outside the register operations it
touches only the chip registers of 20_memory.md R66 to R76 (`plan_touches`). -/

namespace Sys2Proof.Machine

variable {c : Params} {r : Regs}

/-! ### The shapes of the registers -/

theorem putReply_ok (hr : RegsOk r) {d : Reply} (hd : ReplyOk d) : RegsOk (putReply r d) :=
  { hr with respLength := hd.length, respLen := hd.len, respPad := hd.pad }

theorem status_ok (hr : RegsOk r) (st : Status) : RegsOk { r with status := .put st } := { hr with }

theorem discardResp_ok (hs : c.source = {}) (hr : RegsOk r) : RegsOk (discardResp c r) :=
  { hr with
    respLength := by simp [hs, zeros]
    respLen := Nat.zero_le 16
    respPad := by simp [hs] }

theorem putAuth_ok (hr : RegsOk r) {blk : Nat} (hb : blk < 64) (st : Status) : RegsOk (putAuth blk st r) := by
  unfold putAuth
  split
  · exact { hr with authBlk := hb, authWritten := fun _ => rfl }
  · exact { hr with authWritten := fun h => by cases h }

/-- An authentication ends in registers with their shapes (45_access.md R250). -/
theorem authCore_ends (hs : c.source = {}) (hr : RegsOk r) {blk : Nat} (hb : blk < 64) (mode : Byte) (key uid : List Byte) :
    (authCore c mode blk key uid r).Ends fun x => RegsOk x.2 :=
  ends_bind (dispatch_ends hs _ _) fun _ hd => ends_bind_any fun _ => putAuth_ok (putReply_ok hr hd) hb _

/-- A read ends in 16 bytes of data, zeros unless its status is OK, and registers with their shapes (R259). -/
theorem readCore_ends (hs : c.source = {}) (hr : RegsOk r) (blk : Nat) :
    (readCore c blk r).Ends fun x => RegsOk x.2.2 ∧ x.2.1.length = 16 ∧ (x.1 ≠ .ok → x.2.1 = zeros 16) := by
  refine ends_bind_any fun frame => ends_bind (dispatch_ends hs _ _) fun d hd => ?_
  show (fun x : Status × List Byte × Regs => RegsOk x.2.2 ∧ x.2.1.length = 16 ∧ (x.1 ≠ .ok → x.2.1 = zeros 16)) (if _ then _ else _)
  split
  · exact ⟨putReply_ok hr hd, by simp [hd.length], fun h => absurd rfl h⟩
  · exact ⟨discardResp_ok hs (putReply_ok hr hd), zeros_length 16, fun _ => rfl⟩

/-- What a dump's loop carries: 64 slots of 16 bytes, each zero where its mask bit is 0 (R290). -/
structure DumpOk (acc : DumpAcc) : Prop where
  regs : RegsOk acc.regs
  length : acc.out.length = 64
  slots : ∀ b, b < 64 → (acc.out.getD b []).length = 16
  zero : ∀ b, b < 64 → acc.mask.getLsbD b = false → acc.out.getD b [] = zeros 16

theorem dumpPut_ok {acc : DumpAcc} (h : DumpOk acc) {b : Nat} (hb : b < 64) {x : Status × List Byte × Regs}
    (hx : RegsOk x.2.2) (hl : x.2.1.length = 16) : DumpOk (dumpPut b x acc) := by
  unfold dumpPut
  split
  · refine ⟨hx, by simp [h.length], ?_, ?_⟩
    · intro n hn
      by_cases he : b = n
      · subst he; simp [List.getD, h.length, hb, hl]
      · simpa [List.getD, List.getElem?_set_ne he] using h.slots n hn
    · intro n hn hm
      by_cases he : b = n
      · subst he; simp [hb] at hm
      · have : acc.mask.getLsbD n = false := by
          revert hm
          simp only [BitVec.getLsbD_or, Bool.or_eq_false_iff]
          exact fun h => h.1
        simpa [List.getD, List.getElem?_set_ne he] using h.zero n hn this
  · exact ⟨hx, h.length, h.slots, h.zero⟩

theorem dumpBlocks_ends (hs : c.source = {}) (mode : Byte) (key uid : List Byte) (bs : List Nat) (hbs : ∀ b ∈ bs, b < 64) (acc : DumpAcc)
    (h : DumpOk acc) : (dumpBlocks c mode key uid bs acc).Ends DumpOk := by
  induction bs generalizing acc with
  | nil => exact h
  | cons b bs ih =>
    have hb : b < 64 := hbs b (by simp)
    have hrest : ∀ x ∈ bs, x < 64 := fun x hx => hbs x (by simp [hx])
    refine ends_bind (authCore_ends hs h.regs hb mode key uid) fun a ha => ?_
    split
    · exact ends_bind (readCore_ends hs ha b) fun x hx => ih hrest _ (dumpPut_ok h hb hx.1 hx.2.1)
    · exact ih hrest _ ⟨ha, h.length, h.slots, h.zero⟩

theorem dumpStart_ok (hr : RegsOk r) : DumpOk ⟨r, List.replicate Config.numAddrs (zeros 16), 0⟩ := by
  refine ⟨hr, by simp, ?_, ?_⟩
  · intro b hb; simp [List.getD, hb, zeros]
  · intro b hb _; simp [List.getD, hb]

theorem dumpProg_ends (hs : c.source = {}) (hr : RegsOk r) (mode : Byte) (key uid : List Int) : (dumpProg c mode key uid r).Ends RegsOk :=
  ends_bind (dumpBlocks_ends hs mode _ _ _ (fun _ h => List.mem_range.1 h) _ (dumpStart_ok hr)) fun _ h =>
    { h.regs with dumpLength := h.length, dumpSlots := h.slots, dumpZero := h.zero }

theorem checkBlk_none {b : Int} (h : checkBlk b = none) : b.toNat < 64 := by
  unfold checkBlk at h
  split at h
  · rename_i hb
    simp only [Bool.and_eq_true, decide_eq_true_eq] at hb
    omega
  · cases h

theorem checkUid_none (hs : c.source = {}) {u : List Int} (h : checkUid c u = none) : u.length = 5 := by
  rw [show (5 : Nat) = c.source.uidLen by rw [hs]]
  unfold checkUid checkLen at h
  split at h
  · assumption
  · cases h

theorem or_none {a b : Option RejectCode} (h : a.or b = none) : a = none ∧ b = none := by
  cases a <;> simp_all

theorem requestProg_ends (hs : c.source = {}) (hr : RegsOk r) (t : Byte) : (requestProg c t r).Ends RegsOk :=
  ends_bind_any fun _ => ends_bind (dispatch_ends hs _ _) fun _ hd => status_ok (putReply_ok hr hd) _

theorem antiCollStatus_valid {d : Reply} (h : antiCollStatus c d = .ok) : validUid (d.resp.take 5) = true := by
  unfold antiCollStatus at h
  split at h
  · split at h
    · cases h
    · split at h
      · assumption
      · cases h
  · contradiction

theorem antiCollProg_ends (hs : c.source = {}) (hr : RegsOk r) : (antiCollProg c r).Ends RegsOk :=
  ends_bind_any fun _ => ends_bind (dispatch_ends hs _ _) fun d hd =>
    { putReply_ok hr hd with
      idLength := by simp [hd.length]
      idValid := fun h => antiCollStatus_valid (of_decide_eq_true h) }

theorem authProg_ends (hs : c.source = {}) (hr : RegsOk r) {blk : Int} (hb : blk.toNat < 64) (mode : Byte) (key uid : List Int) :
    (authProg c mode blk key uid r).Ends RegsOk :=
  ends_bind (authCore_ends hs hr hb mode _ _) fun _ h => status_ok h _

theorem writeProg_ends (hs : c.source = {}) (hr : RegsOk r) (blk : Nat) (data : List Byte) : (writeProg c blk data r).Ends RegsOk := by
  refine ends_bind (ends_bind_any fun _ => dispatch_ends hs _ _) fun d1 h1 => ?_
  split
  · exact ends_bind (ends_bind_any fun _ => dispatch_ends hs _ _) fun d2 h2 => status_ok (putReply_ok hr h2) _
  · exact status_ok (putReply_ok hr h1) _

/-- Every accepted operation ends in registers with the shapes of 10_state.md R24. -/
theorem plan_ends (hs : c.source = {}) (hr : RegsOk r) {i : Instr} (h : (planOf i c r).reject = none) : (planOf i c r).prog.Ends RegsOk := by
  cases i with
  | rdreg a => exact ends_bind_any fun v => { hr with }
  | wrreg a v => exact ends_bind_any fun _ => hr
  | setbits a m => exact ends_bind_any fun _ => hr
  | clrbits a m => exact ends_bind_any fun _ => hr
  | calccrc buf => exact ends_bind_any fun _ => { hr with }
  | exec cmd out => exact ends_bind (dispatch_ends hs _ _) fun d hd => status_ok (putReply_ok hr hd) _
  | mkaddr n k =>
    obtain ⟨hn, hk⟩ := or_none h
    have h1 : 0 ≤ n ∧ n ≤ 15 := by
      by_contra hc
      rw [checkSector_bad hs (by omega)] at hn
      cases hn
    have h2 : 0 ≤ k ∧ k ≤ 3 := by
      by_contra hc
      rw [checkBlockIn_bad hs (by omega)] at hk
      cases hk
    exact { hr with blkAddr := by
                      show (n * (c.source.numBlocks : Int) + k).toNat < 64
                      rw [hs]
                      show (n * ((4 : Nat) : Int) + k).toNat < 64
                      omega }
  | mkuid uid => exact { hr with idLength := by simp [toBytes, checkUid_none hs h], idValid := fun h => h }
  | mkkey key => exact hr
  | mkdata data => exact hr
  | reqidl => exact requestProg_ends hs hr _
  | reqall => exact requestProg_ends hs hr _
  | anticoll => exact antiCollProg_ends hs hr
  | select uid =>
    refine ends_bind_any fun _ => ends_bind (dispatch_ends hs _ _) fun d hd => ?_
    exact { putReply_ok hr hd with authWritten := fun h => by simp at h; split at h <;> cases h }
  | autha blk key uid => exact authProg_ends hs hr (checkBlk_none (or_none h).1) _ _ _
  | authb blk key uid => exact authProg_ends hs hr (checkBlk_none (or_none h).1) _ _ _
  | read blk => exact ends_bind (readCore_ends hs hr _) fun x hx => { hx.1 with blockOut := hx.2.1 }
  | write blk data => exact writeProg_ends hs hr _ _
  | stopcrypto => exact ends_bind_any fun _ => { hr with authWritten := fun h => by cases h }
  | dumpa key uid => exact dumpProg_ends hs hr _ _ _
  | dumpb key uid => exact dumpProg_ends hs hr _ _ _

/-! ### The bounds of the working registers -/

theorem authCore_keeps (mode : Byte) (blk : Nat) (key uid : List Byte) :
    (authCore c mode blk key uid r).Keeps (WorkOk c) :=
  keeps_bind (dispatch_keeps _ _) fun _ => keeps_bind (keeps_regRead _ _) fun _ => trivial

theorem readCore_keeps (blk : Nat) : (readCore c blk r).Keeps (WorkOk c) :=
  keeps_bind (crc_keeps _) fun _ => keeps_bind (dispatch_keeps _ _) fun _ => trivial

theorem dumpBlocks_keeps (mode : Byte) (key uid : List Byte) (bs : List Nat) (acc : DumpAcc) :
    (dumpBlocks c mode key uid bs acc).Keeps (WorkOk c) := by
  induction bs generalizing acc with
  | nil => trivial
  | cons b bs ih =>
    refine keeps_bind (authCore_keeps _ _ _ _) fun a => ?_
    split
    · exact keeps_bind (readCore_keeps _) fun x => ih _
    · exact ih _

theorem dumpProg_keeps (mode : Byte) (key uid : List Int) : (dumpProg c mode key uid r).Keeps (WorkOk c) :=
  keeps_bind (dumpBlocks_keeps _ _ _ _ _) fun _ => trivial

theorem requestProg_keeps (t : Byte) : (requestProg c t r).Keeps (WorkOk c) :=
  keeps_bind (keeps_regWrite _ _ _) fun _ => keeps_bind (dispatch_keeps _ _) fun _ => trivial

theorem writePhase_keeps (frame : List Byte) : (writePhase c frame).Keeps (WorkOk c) :=
  keeps_bind (crc_keeps _) fun _ => dispatch_keeps _ _

theorem authProg_keeps (mode : Byte) (blk : Int) (key uid : List Int) : (authProg c mode blk key uid r).Keeps (WorkOk c) :=
  keeps_bind (authCore_keeps _ _ _ _) fun _ => trivial

/-- Every operation keeps the counters of the working registers within their bounds (10_state.md R33, R34). -/
theorem plan_keeps (i : Instr) : (planOf i c r).prog.Keeps (WorkOk c) := by
  cases i with
  | rdreg a => exact fun _ => trivial
  | wrreg a v => exact trivial
  | setbits a m => exact fun _ => trivial
  | clrbits a m => exact fun _ => trivial
  | calccrc buf => exact keeps_bind (crc_keeps _) fun _ => trivial
  | exec cmd out => exact keeps_bind (dispatch_keeps _ _) fun _ => trivial
  | mkaddr n k => exact trivial
  | mkuid uid => exact trivial
  | mkkey key => exact trivial
  | mkdata data => exact trivial
  | reqidl => exact requestProg_keeps _
  | reqall => exact requestProg_keeps _
  | anticoll => exact keeps_bind (keeps_regWrite _ _ _) fun _ => keeps_bind (dispatch_keeps _ _) fun _ => trivial
  | select uid => exact keeps_bind (crc_keeps _) fun _ => keeps_bind (dispatch_keeps _ _) fun _ => trivial
  | autha blk key uid => exact authProg_keeps _ _ _ _
  | authb blk key uid => exact authProg_keeps _ _ _ _
  | read blk => exact keeps_bind (readCore_keeps _) fun _ => trivial
  | write blk data =>
    refine keeps_bind (writePhase_keeps _) fun d => ?_
    split
    · exact keeps_bind (writePhase_keeps _) fun _ => trivial
    · trivial
  | stopcrypto => exact fun _ => trivial
  | dumpa key uid => exact dumpProg_keeps _ _ _
  | dumpb key uid => exact dumpProg_keeps _ _ _

/-! ### The chip registers touched -/

theorem authCore_touches (mode : Byte) (blk : Nat) (key uid : List Byte) :
    (authCore c mode blk key uid r).Touches (· ∈ sequencerRegs c) :=
  touches_bind (dispatch_touches _ _) fun _ => touches_bind (touches_regRead (by simp [sequencerRegs]) _) fun _ => trivial

theorem readCore_touches (blk : Nat) : (readCore c blk r).Touches (· ∈ sequencerRegs c) :=
  touches_bind (crc_touches _) fun _ => touches_bind (dispatch_touches _ _) fun _ => trivial

theorem dumpBlocks_touches (mode : Byte) (key uid : List Byte) (bs : List Nat) (acc : DumpAcc) :
    (dumpBlocks c mode key uid bs acc).Touches (· ∈ sequencerRegs c) := by
  induction bs generalizing acc with
  | nil => trivial
  | cons b bs ih =>
    refine touches_bind (authCore_touches _ _ _ _) fun a => ?_
    split
    · exact touches_bind (readCore_touches _) fun x => ih _
    · exact ih _

theorem requestProg_touches (t : Byte) : (requestProg c t r).Touches (· ∈ sequencerRegs c) :=
  touches_bind (touches_regWrite (by simp [sequencerRegs]) _ _) fun _ => touches_bind (dispatch_touches _ _) fun _ => trivial

theorem writePhase_touches (frame : List Byte) : (writePhase c frame).Touches (· ∈ sequencerRegs c) :=
  touches_bind (crc_touches _) fun _ => dispatch_touches _ _

theorem authProg_touches (mode : Byte) (blk : Int) (key uid : List Int) :
    (authProg c mode blk key uid r).Touches (· ∈ sequencerRegs c) :=
  touches_bind (authCore_touches _ _ _ _) fun _ => trivial

/-- Outside the four register operations, every operation touches only the chip registers of R66 to R76 (R77). -/
theorem plan_touches {i : Instr} (h : isRegisterOp i = false) : (planOf i c r).prog.Touches (· ∈ sequencerRegs c) := by
  cases i with
  | rdreg a => cases h
  | wrreg a v => cases h
  | setbits a m => cases h
  | clrbits a m => cases h
  | calccrc buf => exact touches_bind (crc_touches _) fun _ => trivial
  | exec cmd out => exact touches_bind (dispatch_touches _ _) fun _ => trivial
  | mkaddr n k => exact trivial
  | mkuid uid => exact trivial
  | mkkey key => exact trivial
  | mkdata data => exact trivial
  | reqidl => exact requestProg_touches _
  | reqall => exact requestProg_touches _
  | anticoll =>
    exact touches_bind (touches_regWrite (by simp [sequencerRegs]) _ _) fun _ =>
      touches_bind (dispatch_touches _ _) fun _ => trivial
  | select uid => exact touches_bind (crc_touches _) fun _ => touches_bind (dispatch_touches _ _) fun _ => trivial
  | autha blk key uid => exact authProg_touches _ _ _ _
  | authb blk key uid => exact authProg_touches _ _ _ _
  | read blk => exact touches_bind (readCore_touches _) fun _ => trivial
  | write blk data =>
    refine touches_bind (writePhase_touches _) fun d => ?_
    split
    · exact touches_bind (writePhase_touches _) fun _ => trivial
    · trivial
  | stopcrypto => exact touches_bind (touches_clearBits (by simp [sequencerRegs]) _ _) fun _ => trivial
  | dumpa key uid => exact touches_bind (dumpBlocks_touches _ _ _ _ _) fun _ => trivial
  | dumpb key uid => exact touches_bind (dumpBlocks_touches _ _ _ _ _) fun _ => trivial

end Sys2Proof.Machine
end

