-- ==== Sys2Proof/Laws/Scripted.lean ====
section
/-! SUPPORT. What a program does against a chip that answers as scripted, compositionally: `Says c x answers log val upd`
says that with `answers` at the front of the script, `x` makes exactly the transfers `log`, ends in `val`, and changes the
working registers by `upd`. One lemma per part of a CRC run and of a dispatch, then the runs themselves. -/

namespace Sys2Proof.Machine

variable {α β : Type} {c : Params}

/-- The program against a script, whatever follows in the script. -/
def Says (c : Params) (x : Prog α) (answers : List Byte) (log : List BusOp) (val : α) (upd : Work → Work) : Prop :=
  ∀ (rest : List Byte) (p : Port) (w : Work), p.answers = answers ++ rest →
    (x.run c p w).val = val ∧ (x.run c p w).work = upd w ∧ (x.run c p w).port.answers = rest ∧
    busLog (x.run c p w).port = busLog p ++ log

theorem says_done (a : α) : Says c (.done a) [] [] a id := by
  intro rest p w h; simp [h]

theorem says_setWork (f : Work → Work) : Says c (setWork f) [] [] () f := by
  intro rest p w h; simp [h]

theorem says_regRead (st : Stage) (a : Nat) (v : Byte) : Says c (regRead st a) [v] [.rd a v] v id := by
  intro rest p w h
  have hv : drawAnswer p = v := drawAnswer_scripted p v rest h
  simp [h, hv, busLog, Xfer.busOp]

theorem says_regWrite (st : Stage) (a : Nat) (v : Byte) : Says c (regWrite st a v) [] [.wr a v] () id := by
  intro rest p w h
  simp_all [busLog, Xfer.busOp]

/-- Two programs in sequence. -/
theorem Says.bind {x : Prog α} {f : α → Prog β} {as bs : List Byte} {l m : List BusOp} {a : α} {b : β} {u v : Work → Work}
    (h : Says c x as l a u) (k : Says c (f a) bs m b v) : Says c (x.bind f) (as ++ bs) (l ++ m) b (v ∘ u) := by
  intro rest p w hp
  obtain ⟨h1, h2, h3, h4⟩ := h (bs ++ rest) p w (by rw [hp, List.append_assoc])
  obtain ⟨k1, k2, k3, k4⟩ := k rest (x.run c p w).port (x.run c p w).work h3
  rw [run_bind, h1]
  exact ⟨k1, by rw [k2, h2]; rfl, k3, by rw [k4, h4, List.append_assoc]⟩

/-- The same behaviour under another description. -/
theorem Says.congr {x : Prog α} {as as' : List Byte} {l l' : List BusOp} {a a' : α} {u u' : Work → Work}
    (h : Says c x as l a u) (ha : as' = as) (hl : l' = l) (hv : a' = a) (hu : ∀ w, u' w = u w) : Says c x as' l' a' u' := by
  subst ha hl hv
  obtain rfl : u' = u := funext hu
  exact h

theorem says_setBits (st : Stage) (a : Nat) (m v : Byte) :
    Says c (setBits st a m) [v] (rmwLog a v (v ||| m)) () id :=
  ((says_regRead st a v).bind (says_regWrite st a (v ||| m))).congr rfl rfl rfl fun _ => rfl

theorem says_clearBits (st : Stage) (a : Nat) (m v : Byte) :
    Says c (clearBits st a m) [v] (rmwLog a v (v &&& ~~~m)) () id :=
  ((says_regRead st a v).bind (says_regWrite st a (v &&& ~~~m))).congr rfl rfl rfl fun _ => rfl

theorem says_writeAll (st : Stage) (a : Nat) (bs : List Byte) :
    Says c (writeAll st a bs) [] (bs.map (.wr a)) () id := by
  induction bs with
  | nil => exact says_done ()
  | cons b bs ih => exact ((says_regWrite st a b).bind ih).congr rfl rfl rfl fun _ => rfl

theorem says_readMany (st : Stage) (a : Nat) (vs : List Byte) :
    Says c (readMany st a vs.length) vs (vs.map (.rd a)) vs id := by
  induction vs with
  | nil => exact says_done []
  | cons v vs ih =>
    exact ((says_regRead st a v).bind (ih.bind (says_done (v :: vs)))).congr (by simp) (by simp) rfl fun _ => rfl

/-! ### A CRC run (42_crc_engine.md R160 to R164) -/

theorem says_crcPollLoop (quiet : List Byte) (last : Byte) (n : Nat) (hn : quiet.length + 1 ≤ n)
    (hq : ∀ v ∈ quiet, crcDone c v = false) (hl : quiet.length + 1 = n ∨ crcDone c last = true) :
    Says c (crcPollLoop c n) (quiet ++ [last]) ((quiet ++ [last]).map (.rd c.reg.divIrq)) ()
      fun w => { w with crcCnt := n - (quiet.length + 1) } := by
  induction quiet generalizing n with
  | nil =>
    obtain ⟨n, rfl⟩ : ∃ m, n = m + 1 := ⟨n - 1, by simp at hn; omega⟩
    have hs : n = 0 ∨ crcDone c last = true := by
      rcases hl with h | h
      · left; simpa using h.symm
      · exact .inr h
    exact ((says_regRead .crcPoll c.reg.divIrq last).bind (f := fun v => (setWork fun w => { w with crcCnt := n }).bind
      fun _ => if n = 0 ∨ crcDone c v = true then .done () else crcPollLoop c n)
      ((says_setWork _).bind (by rw [if_pos hs]; exact says_done ()))).congr rfl rfl rfl fun _ => rfl
  | cons v quiet ih =>
    obtain ⟨n, rfl⟩ : ∃ m, n = m + 1 := ⟨n - 1, by simp at hn; omega⟩
    simp only [List.length_cons] at hn hl
    have hv : crcDone c v = false := hq v (by simp)
    have hs : ¬(n = 0 ∨ crcDone c v = true) := by simp [hv]; omega
    have hr := ih n (by omega) (fun x hx => hq x (by simp [hx])) (hl.imp (fun h => by omega) id)
    exact ((says_regRead .crcPoll c.reg.divIrq v).bind (f := fun v => (setWork fun w => { w with crcCnt := n }).bind
      fun _ => if n = 0 ∨ crcDone c v = true then .done () else crcPollLoop c n)
      ((says_setWork _).bind (by rw [if_neg hs]; exact hr))).congr (by simp) (by simp) rfl fun w => by
        simp only [List.length_cons, Function.comp_apply, id]; congr 1; omega

theorem says_crcPoll {k : CrcScript} (h : k.Ok c) :
    Says c (crcPoll c) (k.quiet ++ [k.last]) ((k.quiet ++ [k.last]).map (.rd c.reg.divIrq)) ()
      fun w => { w with crcCnt := c.crcPollLimit - (k.quiet.length + 1), crcRemain := c.crcPollLimit - (k.quiet.length + 1) } := by
  have hl := says_crcPollLoop k.quiet k.last c.crcPollLimit (by rcases h.2 with h | h <;> omega) h.1
    (h.2.imp id And.right)
  exact ((says_setWork (c := c) (fun w => { w with crcCnt := c.crcPollLimit })).bind
    (hl.bind (says_setWork (fun w => { w with crcRemain := w.crcCnt })))).congr (by simp) (by simp) rfl fun _ => rfl

/-- A whole CRC run against its script. -/
theorem says_crc {k : CrcScript} (h : k.Ok c) (buf : List Byte) :
    Says c (crc c buf) k.answers (k.log c (buf.take (buf.length - 2))) (buf.take (buf.length - 2) ++ [k.lo, k.hi])
      fun w => { w with crcCnt := c.crcPollLimit - (k.quiet.length + 1), crcRemain := c.crcPollLimit - (k.quiet.length + 1) } := by
  have h2 : Says c (crcLoad c (buf.take (buf.length - 2))) _ _ _ _ :=
    (says_setBits .crcLoad c.reg.fifoLevel c.mask.fifoFlush k.flush).bind
      ((says_writeAll .crcLoad c.reg.fifoData (buf.take (buf.length - 2))).bind
        (says_regWrite .crcLoad c.reg.command c.cmd.calcCrc))
  have h4 : Says c (crcResult c (buf.take (buf.length - 2))) _ _ _ _ :=
    (says_regRead .crcResult c.reg.crcResultL k.lo).bind
      ((says_regRead .crcResult c.reg.crcResultM k.hi).bind (says_done (buf.take (buf.length - 2) ++ [k.lo, k.hi])))
  exact ((says_clearBits .crcClear c.reg.divIrq c.mask.crcIrq k.clear).bind (h2.bind ((says_crcPoll h).bind h4))).congr
    (by simp [CrcScript.answers]) (by simp [CrcScript.log, rmwLog]) rfl fun _ => rfl

/-! ### A dispatch (43_command_channel.md R180 to R193) -/

theorem says_dispatchSetup (kd : Kind) (irq flush : Byte) :
    Says c (dispatchSetup c kd) [irq, flush]
      ((if c.policy.writeIrqEnable then [.wr c.reg.comIEn (irqEnOf c kd ||| c.mask.irqInv)] else []) ++
        (rmwLog c.reg.comIrq irq (irq &&& ~~~c.mask.comIrqSet1) ++
        (rmwLog c.reg.fifoLevel flush (flush ||| c.mask.fifoFlush) ++ [.wr c.reg.command c.cmd.idle]))) ()
      fun w => { w with kind := kd, irqEn := irqEnOf c kd, waitIrq := waitIrqOf c kd } := by
  have h1 : Says c (if c.policy.writeIrqEnable then regWrite .setup c.reg.comIEn (irqEnOf c kd ||| c.mask.irqInv) else .done ())
      [] (if c.policy.writeIrqEnable then [.wr c.reg.comIEn (irqEnOf c kd ||| c.mask.irqInv)] else []) () id := by
    split
    · exact says_regWrite _ _ _
    · exact says_done ()
  exact ((says_setWork (c := c) (fun w => { w with kind := kd, irqEn := irqEnOf c kd, waitIrq := waitIrqOf c kd })).bind
    (h1.bind ((says_clearBits .setup c.reg.comIrq c.mask.comIrqSet1 irq).bind
      ((says_setBits .setup c.reg.fifoLevel c.mask.fifoFlush flush).bind
        (says_regWrite .setup c.reg.command c.cmd.idle))))).congr rfl (by simp) rfl fun _ => rfl

theorem says_dispatchIssue (kd : Kind) (cmd : Byte) (out : List Byte) (frame : Byte) :
    Says c (dispatchIssue c kd cmd out) (if kd = .transceive then [frame] else [])
      (out.map (.wr c.reg.fifoData) ++ ([.wr c.reg.command cmd] ++
        (if kd = .transceive then rmwLog c.reg.bitFraming frame (frame ||| c.mask.startSend) else []))) () id := by
  have h1 : Says c (if kd = .transceive then setBits .issue c.reg.bitFraming c.mask.startSend else .done ())
      (if kd = .transceive then [frame] else [])
      (if kd = .transceive then rmwLog c.reg.bitFraming frame (frame ||| c.mask.startSend) else []) () id := by
    split
    · exact says_setBits _ _ _ _
    · exact says_done ()
  exact ((says_writeAll .fill c.reg.fifoData out).bind ((says_regWrite .issue c.reg.command cmd).bind h1)).congr
    (by simp) rfl rfl fun _ => rfl

theorem says_dispatchPollLoop (wait : Byte) (quiet : List Byte) (last : Byte) (n : Nat) (l0 : Byte) (hn : quiet.length + 1 ≤ n)
    (hq : ∀ v ∈ quiet, stopsPoll c wait v = false) (hl : quiet.length + 1 = n ∨ stopsPoll c wait last = true) :
    Says c (dispatchPollLoop c wait n l0) (quiet ++ [last]) ((quiet ++ [last]).map (.rd c.reg.comIrq))
      (n - (quiet.length + 1), last) fun w => { w with lastIrq := last, cnt := n - (quiet.length + 1) } := by
  induction quiet generalizing n l0 with
  | nil =>
    obtain ⟨n, rfl⟩ : ∃ m, n = m + 1 := ⟨n - 1, by simp at hn; omega⟩
    have hs : n = 0 ∨ stopsPoll c wait last = true := by
      rcases hl with h | h
      · left; simpa using h.symm
      · exact .inr h
    exact ((says_regRead .poll c.reg.comIrq last).bind (f := fun v => (setWork fun w => { w with lastIrq := v, cnt := n }).bind
      fun _ => if n = 0 ∨ stopsPoll c wait v = true then .done (n, v) else dispatchPollLoop c wait n v)
      ((says_setWork _).bind (by rw [if_pos hs]; exact says_done _))).congr rfl rfl rfl fun _ => rfl
  | cons v quiet ih =>
    obtain ⟨n, rfl⟩ : ∃ m, n = m + 1 := ⟨n - 1, by simp at hn; omega⟩
    simp only [List.length_cons] at hn hl
    have hv : stopsPoll c wait v = false := hq v (by simp)
    have hs : ¬(n = 0 ∨ stopsPoll c wait v = true) := by simp [hv]; omega
    have hr := ih n v (by omega) (fun x hx => hq x (by simp [hx])) (hl.imp (fun h => by omega) id)
    exact ((says_regRead .poll c.reg.comIrq v).bind (f := fun v => (setWork fun w => { w with lastIrq := v, cnt := n }).bind
      fun _ => if n = 0 ∨ stopsPoll c wait v = true then .done (n, v) else dispatchPollLoop c wait n v)
      ((says_setWork _).bind (by rw [if_neg hs]; exact hr))).congr (by simp) (by simp)
      (by simp only [List.length_cons]; congr 1; omega) fun w => by
        simp only [List.length_cons, Function.comp_apply, id]; congr 1; omega

theorem says_dispatchPoll (wait : Byte) (quiet : List Byte) (last : Byte) (hn : quiet.length + 1 ≤ c.pollLimit)
    (hq : ∀ v ∈ quiet, stopsPoll c wait v = false)
    (hl : quiet.length + 1 = c.pollLimit ∨ stopsPoll c wait last = true) :
    Says c (dispatchPoll c wait) (quiet ++ [last]) ((quiet ++ [last]).map (.rd c.reg.comIrq))
      (c.pollLimit - (quiet.length + 1), last)
      fun w => { w with cnt := c.pollLimit - (quiet.length + 1), lastIrq := last, pollLastIrq := last,
                        pollRemain := c.pollLimit - (quiet.length + 1) } :=
  ((says_setWork (c := c) (fun w => { w with cnt := c.pollLimit })).bind
    ((says_dispatchPollLoop wait quiet last c.pollLimit 0 hn hq hl).bind
      ((says_setWork (fun w => { w with pollLastIrq := w.lastIrq, pollRemain := w.cnt })).bind
        (says_done (c := c) (c.pollLimit - (quiet.length + 1), last))))).congr
    (by simp) (by simp) rfl fun _ => rfl

/-- A dispatch up to the final clear of start-send, against its script; `f` is what follows. -/
theorem says_dispatch_poll (kd : Kind) (cmd : Byte) (out : List Byte) (x : DispatchScript) (hk : selectKind c cmd = kd)
    (hn : x.quiet.length + 1 ≤ c.pollLimit) (hq : ∀ v ∈ x.quiet, stopsPoll c (waitIrqOf c kd) v = false)
    (hl : x.quiet.length + 1 = c.pollLimit ∨ stopsPoll c (waitIrqOf c kd) x.stop = true)
    {bs : List Byte} {m : List BusOp} {d : Reply} {v : Work → Work}
    (hf : Says c (if c.pollLimit - (x.quiet.length + 1) = 0 then .done (clearedReply c .genericError)
      else dispatchResult c kd x.stop) bs m d v) :
    Says c (dispatch c cmd out) (x.pollAnswers kd ++ bs) (x.pollLog c kd cmd out ++ m) d
      (v ∘ workAfterPoll c kd x.stop (c.pollLimit - (x.quiet.length + 1))) := by
  subst hk
  exact ((says_dispatchSetup _ x.irq x.flush).bind ((says_dispatchIssue _ cmd out x.frame).bind
    ((says_dispatchPoll _ x.quiet x.stop hn hq hl).bind
      ((says_clearBits .finish c.reg.bitFraming c.mask.startSend x.frame2).bind hf)))).congr
    (by simp [DispatchScript.pollAnswers]) (by simp [DispatchScript.pollLog]) rfl fun _ => rfl

/-- A dispatch whose poll exhausts: the POLL_LIMIT-th answer is read and CNT = 0 (R187). -/
theorem says_dispatch_exhausted (kd : Kind) (cmd : Byte) (out : List Byte) (x : DispatchScript)
    (hk : selectKind c cmd = kd) (hn : x.quiet.length + 1 = c.pollLimit)
    (hq : ∀ v ∈ x.quiet, stopsPoll c (waitIrqOf c kd) v = false) :
    Says c (dispatch c cmd out) (x.pollAnswers kd) (x.pollLog c kd cmd out) (clearedReply c .genericError)
      (workAfterPoll c kd x.stop 0) := by
  have h0 : c.pollLimit - (x.quiet.length + 1) = 0 := by omega
  refine (says_dispatch_poll kd cmd out x hk (by omega) hq (.inl hn) (bs := []) (m := []) (v := id)
    (d := clearedReply c .genericError) ?_).congr (by simp) (by simp) rfl fun w => by simp [h0]
  rw [if_pos h0]
  exact says_done _

/-- A dispatch that finds an error bit (R188). -/
theorem says_dispatch_error (kd : Kind) (cmd : Byte) (out : List Byte) (x : DispatchScript)
    (hk : selectKind c cmd = kd) (h : x.Stops c kd) (he : hasError c x.err = true) :
    Says c (dispatch c cmd out) (x.pollAnswers kd ++ [x.err]) (x.pollLog c kd cmd out ++ [.rd c.reg.error x.err])
      (clearedReply c .genericError) (workAfterPoll c kd x.stop (c.pollLimit - (x.quiet.length + 1))) := by
  obtain ⟨hq, hs, hn⟩ := h
  refine (says_dispatch_poll kd cmd out x hk (by omega) hq (.inr hs) (bs := [x.err]) (m := [.rd c.reg.error x.err])
    (v := id) (d := clearedReply c .genericError) ?_).congr rfl rfl rfl fun w => rfl
  rw [if_neg (by omega)]
  exact ((says_regRead .errchk c.reg.error x.err).bind (f := fun e => if hasError c e then _ else _)
    (by rw [if_pos he]; exact says_done _)).congr (by simp) (by simp) rfl fun _ => rfl

/-- A successful dispatch (R189 to R193). -/
theorem says_dispatch_ok (kd : Kind) (cmd : Byte) (out : List Byte) (x : DispatchScript) (hk : selectKind c cmd = kd)
    (h : x.Stops c kd) (he : hasError c x.err = false)
    (hf : kd = .transceive → x.fifo.length = byteCount c (levelOf c x.level)) :
    Says c (dispatch c cmd out) (x.answers kd) (x.log c kd cmd out) (x.reply c kd)
      (workAfterPoll c kd x.stop (c.pollLimit - (x.quiet.length + 1))) := by
  obtain ⟨hq, hs, hn⟩ := h
  refine says_dispatch_poll kd cmd out x hk (by omega) hq (.inr hs) (v := id) ?_
  rw [if_neg (by omega)]
  refine ((says_regRead .errchk c.reg.error x.err).bind (f := fun e => if hasError c e then _ else if kd = .transceive then _ else _)
    (bs := if kd = .transceive then x.level :: x.ctl :: x.fifo else []) (v := id)
    (m := if kd = .transceive then .rd c.reg.fifoLevel x.level :: .rd c.reg.control x.ctl :: x.fifo.map (.rd c.reg.fifoData)
      else []) (b := x.reply c kd) ?_)
  rw [if_neg (by simp [he])]
  by_cases ht : kd = .transceive
  · simp only [ht, if_true, DispatchScript.reply]
    have h3 := says_readMany (c := c) .readback c.reg.fifoData x.fifo
    rw [hf ht] at h3
    exact ((says_regRead (c := c) .readback c.reg.fifoLevel x.level).bind
      ((says_regRead (c := c) .readback c.reg.control x.ctl).bind (h3.bind (says_done (c := c) (Reply.mk
        (timerStatus c (irqEnOf c .transceive) x.stop) (padResp c x.fifo) (byteCount c (levelOf c x.level))
        (bitCount (levelOf c x.level) (lastBitsOf c x.ctl))))))).congr (by simp) (by simp) rfl fun _ => rfl
  · simp only [ht, if_false, DispatchScript.reply]
    exact says_done _

/-- A dispatch to any end (R187 to R193). -/
theorem says_dispatch (kd : Kind) (cmd : Byte) (out : List Byte) (x : DispatchScript) (hk : selectKind c cmd = kd)
    (h : x.Runs c kd) :
    Says c (dispatch c cmd out) (x.endAnswers c kd) (x.endLog c kd cmd out) (x.endReply c kd)
      (workAfterPoll c kd x.stop (c.pollLimit - (x.quiet.length + 1))) := by
  obtain ⟨hq, h⟩ := h
  unfold DispatchScript.endAnswers DispatchScript.endLog DispatchScript.endReply
  by_cases he : x.exhausts c = true
  · have hn : x.quiet.length + 1 = c.pollLimit := of_decide_eq_true he
    simpa [he, hn] using says_dispatch_exhausted kd cmd out x hk hn hq
  · obtain ⟨hs, hn, hf⟩ := h.resolve_left he
    by_cases hx : hasError c x.err = true
    · simpa [he, hx] using says_dispatch_error kd cmd out x hk ⟨hq, hs, hn⟩ hx
    · simpa [he, hx] using says_dispatch_ok kd cmd out x hk ⟨hq, hs, hn⟩ (by simpa using hx) (hf (by simpa using hx))

/-! ### The parts of a dump (45_access.md R290) -/

/-- An authentication against its script (45_access.md R250). -/
theorem says_authCore (b : BlockScript) (h : b.auth.Runs c .authent) (mode : Byte) (n : Nat) (key uid : List Byte) (r : Regs) :
    ∃ u, Says c (authCore c mode n key uid r) (b.auth.endAnswers c .authent ++ [b.s2])
      (b.auth.endLog c .authent c.cmd.authent (authFrame mode n key uid) ++ [.rd c.reg.status2 b.s2])
      (authStatus c (b.auth.endReply c .authent).status b.s2,
        putAuth n (authStatus c (b.auth.endReply c .authent).status b.s2) (putReply r (b.auth.endReply c .authent))) u := by
  have h1 := says_dispatch .authent c.cmd.authent (authFrame mode n key uid) b.auth (by simp [selectKind]) h
  have h2 := (says_regRead (c := c) .cryptoCheck c.reg.status2 b.s2).bind
    (f := fun s2 => .done (authStatus c (b.auth.endReply c .authent).status s2,
      putAuth n (authStatus c (b.auth.endReply c .authent).status s2) (putReply r (b.auth.endReply c .authent)))) (says_done _)
  have h3 := h1.bind (f := fun d => (regRead .cryptoCheck c.reg.status2).bind fun s2 =>
    .done (authStatus c d.status s2, putAuth n (authStatus c d.status s2) (putReply r d))) h2
  exact ⟨_, h3.congr (by simp) (by simp) rfl fun _ => rfl⟩

/-- What a read ends in, by the reply of its dispatch (45_access.md R259). -/
def readVal (c : Params) (b : BlockScript) (r : Regs) : Status × List Byte × Regs :=
  let d := b.read.endReply c (readKind c)
  if readOk c d then (.ok, d.resp.take 16, putReply r d) else (.genericError, zeros 16, discardResp c (putReply r d))

/-- A read against its script (45_access.md R259). -/
theorem says_readCore (b : BlockScript) (hc : b.crc.Ok c) (h : b.read.Runs c (readKind c)) (n : Nat) (r : Regs) :
    ∃ u, Says c (readCore c n r) (b.crc.answers ++ b.read.endAnswers c (readKind c))
      (b.crc.log c [c.card.read, BitVec.ofNat 8 n] ++
        b.read.endLog c (readKind c) c.cmd.transceive [c.card.read, BitVec.ofNat 8 n, b.crc.lo, b.crc.hi])
      (readVal c b r) u := by
  have h1 := says_crc hc [c.card.read, BitVec.ofNat 8 n, 0x00, 0x00]
  have h2 := (says_dispatch (readKind c) c.cmd.transceive [c.card.read, BitVec.ofNat 8 n, b.crc.lo, b.crc.hi] b.read rfl h).bind
    (f := fun d => .done (if readOk c d then (Status.ok, d.resp.take 16, putReply r d)
      else (.genericError, zeros 16, discardResp c (putReply r d)))) (says_done _)
  have h3 := h1.bind (f := fun frame => (dispatch c c.cmd.transceive frame).bind fun d =>
    .done (if readOk c d then (Status.ok, d.resp.take 16, putReply r d)
      else (.genericError, zeros 16, discardResp c (putReply r d)))) h2
  exact ⟨_, h3.congr (by simp) (by simp) rfl fun _ => rfl⟩

/-! ### From a script to the state after an operation -/

/-- The number of transfers is the length of the log (70_reset_and_hazards.md R360). -/
theorem count_of_log {p q : Port} {l : List BusOp} (h : PortStep c p q) (hl : busLog q = busLog p ++ l) :
    q.count = p.count + l.length := by
  obtain ⟨new, h1, h2, -⟩ := h.out
  have := congrArg List.length hl
  simp [busLog, h1] at this
  omega

end Sys2Proof.Machine
end

