-- ==== Sys2Proof/Laws/Steps.lean ====
section
/-! SUPPORT. One transfer of an operation in progress: where it stands in its program (`Prog.Reach`), what is left of it, and
everything a step can do in the middle of it (`mid_advance`). -/

namespace Sys2Proof.Machine

/-! ### Places in a program -/

/-- `n` transfers with the read answers `vs` is a place in the program: as many answers as there were reads. -/
def Prog.Reach {α : Type} : Prog α → Nat → List Byte → Prop
  | .work _ k, n, vs => Prog.Reach k n vs
  | .read _ _ _, 0, vs => vs = []
  | .read _ _ k, n + 1, v :: vs => Prog.Reach (k v) n vs
  | .read _ _ _, _ + 1, [] => False
  | .write _ _ _ _, 0, vs => vs = []
  | .write _ _ _ k, n + 1, vs => Prog.Reach k n vs
  | .done _, n, vs => n = 0 ∧ vs = []

/-- The start is a place in every program. -/
theorem reach_zero {α : Type} (P : Prog α) : Prog.Reach P 0 [] := by
  induction P <;> simp_all [Prog.Reach]

/-- Before the first transfer, what is left is the settled program. -/
theorem replay_zero {α : Type} (P : Prog α) (w : Work) : (P.settle w).1 = P.replay 0 [] := by
  induction P generalizing w <;> simp_all [Prog.settle, Prog.replay]

/-- After a read, what is left is the branch of its answer. -/
theorem replay_read {α : Type} {P : Prog α} {n vs st a k} (h : P.replay n vs = .read st a k) (hr : Prog.Reach P n vs) (v : Byte) :
    P.replay (n + 1) (vs ++ [v]) = (k v).replay 0 [] ∧ Prog.Reach P (n+1) (vs ++ [v]) := by
  induction P generalizing n vs with
  | done x => cases n <;> simp [Prog.replay] at h
  | work f q ih => exact ih h hr
  | read st' a' k' ih =>
    cases n with
    | zero => cases hr; cases h; exact ⟨rfl, reach_zero _⟩
    | succ n => cases vs with
      | nil => cases hr
      | cons u vs => exact ih u h hr
  | write st' a' x q ih =>
    cases n with
    | zero => cases h
    | succ n => exact ih h hr

/-- After a write, what is left is its continuation. -/
theorem replay_write {α : Type} {P : Prog α} {n vs st a x k} (h : P.replay n vs = .write st a x k) (hr : Prog.Reach P n vs) :
    P.replay (n + 1) vs = k.replay 0 [] ∧ Prog.Reach P (n+1) vs := by
  induction P generalizing n vs with
  | done x => cases n <;> simp [Prog.replay] at h
  | work f q ih => exact ih h hr
  | read st' a' k' ih =>
    cases n with
    | zero => cases h
    | succ n => cases vs with
      | nil => cases hr
      | cons u vs => exact ih u h hr
  | write st' a' y q ih =>
    cases n with
    | zero => cases hr; cases h; exact ⟨rfl, reach_zero _⟩
    | succ n => exact ih h hr

/-- What is left never starts with a working-register update. -/
theorem replay_not_work {α : Type} (P : Prog α) (n vs f k) : P.replay n vs ≠ .work f k := by
  induction P generalizing n vs with
  | done x => cases n <;> simp [Prog.replay]
  | work f q ih => exact ih _ _
  | read st' a' k' ih =>
    cases n with
    | zero => simp [Prog.replay]
    | succ n => cases vs with
      | nil => simp [Prog.replay]
      | cons u vs => exact ih u _ _
  | write st' a' y q ih =>
    cases n with
    | zero => simp [Prog.replay]
    | succ n => exact ih _ _

/-! ### The middle of an operation -/

/-- The state is in the middle of operation `i`, begun at the registers `r`: `n` transfers are made, and what is left runs to
`F`. -/
structure Mid (i : Instr) (c : Params) (r : Regs) (F : Ran Regs) (v : State) (n : Nat) (vs : List Byte) : Prop where
  cfg : v.cfg = c
  regs : v.regs = r
  phase : v.phase = .busy i n vs
  reach : Prog.Reach (planOf i c r).prog n vs
  run : ((planOf i c r).prog.replay n vs).run c v.port v.work = F
  left : v.port.count < F.port.count

/-- The state at the end of the operation. -/
def endOf (F : Ran Regs) (v : State) : State :=
  { v with regs := F.val, outcome := .put .done, phase := .idle, port := F.port, work := F.work }

/-- A run makes no transfer or some. -/
theorem run_count {α : Type} (c : Params) (x : Prog α) (p : Port) (w : Work) : p.count ≤ (x.run c p w).port.count := by
  obtain ⟨new, _, h, _⟩ := (run_port c x p w).out; omega

/-- Everything settling can do in the middle of an operation: it ends, or the block waits before its next transfer. -/
theorem settle_mid {i : Instr} {c : Params} {r : Regs} {F : Ran Regs} {n : Nat} {vs : List Byte} {k : Prog Regs} {v : State}
    (hc : v.cfg = c) (hr : v.regs = r) (hk : (planOf i c r).prog.replay n vs = k.replay 0 [])
    (hre : Prog.Reach (planOf i c r).prog n vs) (hrun : k.run c v.port v.work = F) :
    (v.port.count = F.port.count ∧ settleInto i n vs k v = endOf F v) ∨
    (Mid i c r F (settleInto i n vs k v) n vs ∧ (settleInto i n vs k v).port = v.port ∧
      settleInto i n vs k v = { v with work := (settleInto i n vs k v).work, phase := .busy i n vs }) := by
  have h1 := replay_zero k v.work
  have h2 := run_settle c k v.port v.work
  rw [hrun] at h2
  unfold settleInto
  generalize hy : k.settle v.work = y at h1 h2 ⊢
  obtain ⟨y, w⟩ := y
  simp only at h1 h2
  cases y with
  | done x =>
    left; simp at h2; subst h2; exact ⟨rfl, by simp [endOf, finish]⟩
  | work f q => exact absurd h1.symm (replay_not_work _ _ _ _ _)
  | read st a q =>
    right; refine ⟨⟨hc, hr, rfl, hre, by rw [hk, ← h1]; exact h2, ?_⟩, rfl, rfl⟩
    have := run_count c (q (drawAnswer v.port)) (portRead c st a v.port) w
    rw [← run_read, h2] at this; simp at this ⊢; omega
  | write st a x q =>
    right; refine ⟨⟨hc, hr, rfl, hre, by rw [hk, ← h1]; exact h2, ?_⟩, rfl, rfl⟩
    have := run_count c q (portWrite c st a x v.port) w
    rw [← run_write, h2] at this; simp at this ⊢; omega

/-- Everything one transfer can do: it is the last and the operation ends, or the state is in the middle of the operation one
transfer on. Only PHASE, the working registers and the bus have changed then. -/
theorem mid_advance {i : Instr} {c : Params} {r : Regs} {F : Ran Regs} {n : Nat} {vs : List Byte} {v : State} (h : Mid i c r F v n vs) :
    (v.port.count + 1 = F.port.count ∧ advance v = endOf F v) ∨
    (∃ vs', Mid i c r F (advance v) (n+1) vs' ∧ (advance v).port.count = v.port.count + 1 ∧
      advance v = { v with work := (advance v).work, port := (advance v).port, phase := (advance v).phase }) := by
  have hcc := h.cfg
  subst hcc
  rw [advance_busy h.phase]
  have hrem : remaining i n vs v = (planOf i v.cfg r).prog.replay n vs := by simp [remaining, h.regs]
  rw [hrem]
  have hrun := h.run; have hl := h.left
  generalize hy : (planOf i v.cfg r).prog.replay n vs = y at hrun
  cases y with
  | done x => simp at hrun; subst hrun; simp at hl
  | work f q => exact absurd hy (replay_not_work _ _ _ _ _)
  | read st a q =>
    obtain ⟨h1, h2⟩ := replay_read hy h.reach (drawAnswer v.port)
    rw [show transferStep i n vs (.read st a q) v =
      settleInto i (n + 1) (vs ++ [drawAnswer v.port]) (q (drawAnswer v.port))
        { v with port := portRead v.cfg st a v.port } from rfl]
    rcases settle_mid (v := { v with port := portRead v.cfg st a v.port }) (F := F) h.cfg h.regs h1 h2
      (by simpa using hrun) with ⟨a1, a2⟩ | ⟨a1, a2, a3⟩
    · left; exact ⟨by simpa using a1, by rw [a2]; rfl⟩
    · right; refine ⟨_, a1, by rw [a2]; rfl, ?_⟩
      rw [a3]
  | write st a x q =>
    obtain ⟨h1, h2⟩ := replay_write hy h.reach
    rw [show transferStep i n vs (.write st a x q) v =
      settleInto i (n + 1) vs q { v with port := portWrite v.cfg st a x v.port } from rfl]
    rcases settle_mid (v := { v with port := portWrite v.cfg st a x v.port }) (F := F) h.cfg h.regs h1 h2
      (by simpa using hrun) with ⟨a1, a2⟩ | ⟨a1, a2, a3⟩
    · left; exact ⟨by simpa using a1, by rw [a2]; rfl⟩
    · right; refine ⟨_, a1, by rw [a2]; rfl, ?_⟩
      rw [a3]

end Sys2Proof.Machine
end

