-- ==== Sys2Proof/Machine/ChipFields.lean ====
section
/-! DEFINITION. The fields of the chip registers the block uses (20_memory.md R66 to R76) and what the spec says of chip
writes. The chip is the environment (00_scope.md R8): no operation depends on these names. They say what the masks of
the configuration stand for and what the hazards of 70_reset_and_hazards.md R351 to R353 are about (log 30). -/

namespace Sys2Proof.Machine

/-- The named fields of R66 to R76. -/
inductive ChipField where
  | rcvOff | powerDown | command
  | irqInv | txIEn | rxIEn | idleIEn | hiAlertIEn | loAlertIEn | errIEn | timerIEn
  | set1 | txIrq | rxIrq | idleIrq | hiAlertIrq | loAlertIrq | errIrq | timerIrq
  | set2 | mfinActIrq | crcIrq
  | wrErr | tempErr | bufferOvfl | collErr | crcErr | parityErr | protocolErr
  | tempSensClear | i2cForceHs | mfCrypto1On | modemState
  | fifoData
  | flushBuffer | fifoLevel
  | tStopNow | tStartNow | rxLastBits
  | startSend | rxAlign | txLastBits
  | crcResultM | crcResultL
deriving DecidableEq, Repr

/-- The register a field is in. -/
def fieldReg (c : Params) : ChipField → Nat
  | .rcvOff | .powerDown | .command => c.reg.command
  | .irqInv | .txIEn | .rxIEn | .idleIEn | .hiAlertIEn | .loAlertIEn | .errIEn | .timerIEn => c.reg.comIEn
  | .set1 | .txIrq | .rxIrq | .idleIrq | .hiAlertIrq | .loAlertIrq | .errIrq | .timerIrq => c.reg.comIrq
  | .set2 | .mfinActIrq | .crcIrq => c.reg.divIrq
  | .wrErr | .tempErr | .bufferOvfl | .collErr | .crcErr | .parityErr | .protocolErr => c.reg.error
  | .tempSensClear | .i2cForceHs | .mfCrypto1On | .modemState => c.reg.status2
  | .fifoData => c.reg.fifoData
  | .flushBuffer | .fifoLevel => c.reg.fifoLevel
  | .tStopNow | .tStartNow | .rxLastBits => c.reg.control
  | .startSend | .rxAlign | .txLastBits => c.reg.bitFraming
  | .crcResultM => c.reg.crcResultM
  | .crcResultL => c.reg.crcResultL

/-- The lowest bit of a field. -/
def fieldLow : ChipField → Nat
  | .irqInv | .set1 | .set2 | .wrErr | .tempSensClear | .flushBuffer | .tStopNow | .startSend => 7
  | .txIEn | .txIrq | .tempErr | .i2cForceHs | .tStartNow => 6
  | .rcvOff | .rxIEn | .rxIrq => 5
  | .powerDown | .idleIEn | .idleIrq | .mfinActIrq | .bufferOvfl | .rxAlign => 4
  | .hiAlertIEn | .hiAlertIrq | .collErr | .mfCrypto1On => 3
  | .loAlertIEn | .loAlertIrq | .crcIrq | .crcErr => 2
  | .errIEn | .errIrq | .parityErr => 1
  | .timerIEn | .timerIrq | .protocolErr => 0
  | .command | .modemState | .fifoData | .fifoLevel | .rxLastBits | .txLastBits | .crcResultM | .crcResultL => 0

/-- The number of bits of a field. -/
def fieldWidth : ChipField → Nat
  | .command => 4
  | .modemState | .rxLastBits | .rxAlign | .txLastBits => 3
  | .fifoLevel => 7
  | .fifoData | .crcResultM | .crcResultL => 8
  | _ => 1

/-- The bits of a field within its register. -/
def fieldMask (f : ChipField) : Byte := BitVec.ofNat 8 ((2 ^ fieldWidth f - 1) * 2 ^ fieldLow f)

/-- The value of a field in a register value. -/
def fieldGet (f : ChipField) (v : Byte) : Nat := v.toNat / 2 ^ fieldLow f % 2 ^ fieldWidth f

/-- R68, R69: the interrupt-request bits after a write of `v` whose Set bit is 0: "clears the IRQ bits written as 1". The
spec gives no effect of a write whose Set bit is 1. -/
def irqBitsAfterWrite (bits v : Byte) : Byte := bits &&& ~~~v

/-- R62: the 16-bit CRC result, M the high byte and L the low byte (R76). -/
def crcResultWord (m l : Byte) : BitVec 16 := m ++ l

end Sys2Proof.Machine
end

