-- ==== Sys2Proof/Machine/Platform.lean ====
section
/-! DEFINITION. What the host does around the block: the chip initialisation CHIP_READY (70_reset_and_hazards.md R343) and
the intended order of operations (R344), as lists of operations. Neither is an operation of the block. -/

namespace Sys2Proof.Machine

/-- R343, steps 1 to 5: soft reset, the timer, the ASK modulation, the CRC preset, the antenna. The spec gives TReloadReg as
one value over 0x2C/0x2D; that 0x2C takes its high byte and 0x2D its low byte is the model's (log 31). -/
def chipReady (c : Params) : List Instr :=
  [.wrreg c.reg.command 0x0F,
   .wrreg 0x2A 0x8D, .wrreg 0x2B 0x3E, .wrreg 0x2C 0, .wrreg 0x2D 30,
   .wrreg 0x15 0x40,
   .wrreg 0x11 0x3D,
   .setbits 0x14 0x03]

/-- R344: one pass of the intended order, for a block to write and then read. -/
def intendedOrder (blk : Int) (key uid data : List Int) : List Instr :=
  [.reqidl, .anticoll, .select uid, .autha blk key uid, .write blk data, .read blk, .stopcrypto]

/-- The host's offers for a list of operations. -/
def offersOf (is : List Instr) : List HostEvent := is.map fun i => .offer (.text i)

end Sys2Proof.Machine
end

