-- ==== Sys2Proof/Machine/Text.lean ====
section
/-! DEFINITION. The textual syntax of 30_encoding.md R109: a line of characters read as one operation, which the host then
offers in textual form. Characters are given as a list, so that reading is structural. -/

namespace Sys2Proof.Machine

/-- What a line holds. -/
inductive TextLine where
  /-- Nothing but spaces and a comment. -/
  | blank
  /-- One operation ("One operation per line"). -/
  | op (i : Instr)
  /-- Neither: it is not of the syntax of R109, and the host offers nothing (log 15). -/
  | malformed
deriving DecidableEq, Repr

/-- One operand as written: "An integer is decimal or hex", or "A byte list is hex bytes ... in brackets". -/
inductive TextOperand where
  | integer (x : Int)
  | bytes (xs : List Int)
deriving DecidableEq, Repr

/-- The line up to its comment: "`;` starts a comment that runs to the end of the line". -/
def stripComment (cs : List Char) : List Char := cs.takeWhile fun c => c != ';'

/-- A line without leading and trailing blanks. Only a space is a blank; R109 does not say what is (DESIGN CHOICE, log 37). -/
def trimBlanks (cs : List Char) : List Char :=
  ((cs.dropWhile fun c => c == ' ').reverse.dropWhile fun c => c == ' ').reverse

/-- The pieces between separators; there is always one. -/
def splitOn (sep : Char) : List Char → List (List Char)
  | [] => [[]]
  | c :: cs =>
    if c = sep then [] :: splitOn sep cs
    else match splitOn sep cs with
      | [] => [[c]]
      | w :: ws => (c :: w) :: ws

/-- A digit of a base up to 16. A hex digit may be upper or lower case; R109 does not say (DESIGN CHOICE, log 37). -/
def digitOf (base : Nat) (c : Char) : Option Nat :=
  let n := c.toNat
  let d := if 48 ≤ n ∧ n ≤ 57 then n - 48 else if 65 ≤ n ∧ n ≤ 70 then n - 55 else if 97 ≤ n ∧ n ≤ 102 then n - 87 else 16
  if d < base then some d else none

/-- One or more digits, with leading zeros or without (DESIGN CHOICE, log 37). -/
def readNat (base : Nat) (cs : List Char) : Option Nat :=
  if cs = [] then none
  else cs.foldl (fun acc c => acc.bind fun n => (digitOf base c).map fun d => n * base + d) (some 0)

/-- An integer: decimal, with a minus sign or without (`2`, `-1`), or hex (`0x0C`). A plus sign, a signed hex integer and the
prefix `0X` are not read (DESIGN CHOICE, log 37). -/
def readInt (cs : List Char) : Option Int :=
  match cs with
  | '0' :: 'x' :: hex => (readNat 16 hex).map Int.ofNat
  | '-' :: digits => (readNat 10 digits).map fun n => -(Int.ofNat n)
  | digits => (readNat 10 digits).map Int.ofNat

/-- The elements of a byte list: hex without a prefix, separated by spaces. An element of more than two digits is read as
the number it is, so that the block's own element check can reject it (log 15). An element of one digit is read too, more
than one space may separate two elements, and `[]` is the empty list: R109 says nothing of these (DESIGN CHOICE, log 37). -/
def readElems (cs : List Char) : Option (List Int) :=
  ((splitOn ' ' cs).filter fun w => w != []).mapM fun w => (readNat 16 w).map Int.ofNat

/-- One operand. -/
def readOperand (cs : List Char) : Option TextOperand :=
  match trimBlanks cs with
  | '[' :: inner =>
    match inner.reverse with
    | ']' :: body => (readElems body.reverse).map .bytes
    | _ => none
  | word => (readInt word).map .integer

/-- The operands, "separated by commas", with any number of spaces on either side of one (DESIGN CHOICE, log 37). -/
def readOperands (cs : List Char) : Option (List TextOperand) :=
  if trimBlanks cs = [] then some [] else (splitOn ',' cs).mapM readOperand

/-- The mnemonic of each operation (30_encoding.md R92). -/
def mnemonicOf : Instr → List Char
  | .rdreg _ => ['R', 'D', 'R', 'E', 'G']
  | .wrreg _ _ => ['W', 'R', 'R', 'E', 'G']
  | .setbits _ _ => ['S', 'E', 'T', 'B', 'I', 'T', 'S']
  | .clrbits _ _ => ['C', 'L', 'R', 'B', 'I', 'T', 'S']
  | .calccrc _ => ['C', 'A', 'L', 'C', 'C', 'R', 'C']
  | .exec _ _ => ['E', 'X', 'E', 'C']
  | .mkaddr _ _ => ['M', 'K', 'A', 'D', 'D', 'R']
  | .mkuid _ => ['M', 'K', 'U', 'I', 'D']
  | .mkkey _ => ['M', 'K', 'K', 'E', 'Y']
  | .mkdata _ => ['M', 'K', 'D', 'A', 'T', 'A']
  | .reqidl => ['R', 'E', 'Q', 'I', 'D', 'L']
  | .reqall => ['R', 'E', 'Q', 'A', 'L', 'L']
  | .anticoll => ['A', 'N', 'T', 'I', 'C', 'O', 'L', 'L']
  | .select _ => ['S', 'E', 'L', 'E', 'C', 'T']
  | .autha _ _ _ => ['A', 'U', 'T', 'H', 'A']
  | .authb _ _ _ => ['A', 'U', 'T', 'H', 'B']
  | .read _ => ['R', 'E', 'A', 'D']
  | .write _ _ => ['W', 'R', 'I', 'T', 'E']
  | .stopcrypto => ['S', 'T', 'O', 'P', 'C', 'R', 'Y', 'P', 'T', 'O']
  | .dumpa _ _ => ['D', 'U', 'M', 'P', 'A']
  | .dumpb _ _ => ['D', 'U', 'M', 'P', 'B']

/-- The operations that operands of these kinds can belong to, one for each mnemonic that takes them (R92). -/
def formsOf (args : List TextOperand) : List Instr :=
  match args with
  | [] => [.reqidl, .reqall, .anticoll, .stopcrypto]
  | [.integer x] => [.rdreg x, .read x]
  | [.bytes xs] => [.calccrc xs, .mkuid xs, .mkkey xs, .mkdata xs, .select xs]
  | [.integer x, .integer y] => [.wrreg x y, .setbits x y, .clrbits x y, .mkaddr x y]
  | [.integer x, .bytes ys] => [.exec x ys, .write x ys]
  | [.bytes xs, .bytes ys] => [.dumpa xs ys, .dumpb xs ys]
  | [.integer x, .bytes ys, .bytes zs] => [.autha x ys zs, .authb x ys zs]
  | _ => []

/-- One line: "its mnemonic followed by its operands" (R109). At least one space, and nothing else, stands between the two,
spaces may stand before the mnemonic, and the mnemonic is in capitals, as R92 writes it: R109 says nothing of these
(DESIGN CHOICE, log 37). -/
def readLine (line : List Char) : TextLine :=
  let cs := trimBlanks (stripComment line)
  if cs = [] then .blank
  else
    let mnemonic := cs.takeWhile fun c => c != ' '
    match readOperands (cs.dropWhile fun c => c != ' ') with
    | none => .malformed
    | some args =>
      match (formsOf args).find? fun i => mnemonicOf i == mnemonic with
      | some i => .op i
      | none => .malformed

/-- The host's inputs for a text: one offer for each line that holds an operation, and none for a line that does not. -/
def offersOfText (lines : List (List Char)) : List HostEvent :=
  lines.filterMap fun line =>
    match readLine line with
    | .op i => some (.offer (.text i))
    | .blank => none
    | .malformed => none

end Sys2Proof.Machine
end

