-- ==== Sys2Proof/Tests/Slice0.lean ====
section
/-! SUPPORT. Tests: expected results are those of 95_test_vectors.md (named L and P as there) and of the rules' own corner
cases, worked by hand; then, for each statement with hypotheses, a state and operands that meet them. -/

namespace Sys2Proof.Tests

open Sys2Proof.Machine

/-! ### Helpers -/

/-- `s` with the chip's answers scripted and no transport failure for as many transfers. -/
def scripted (answers : List Byte) (s : State) : State :=
  { s with port := { s.port with answers := answers, fails := List.replicate 100 false } }

/-- The outcome is a next state of which the test holds. -/
def after (o : Host.Outcome State Fault Refusal) (test : State → Bool) : Bool :=
  match o with
  | .next t => test t
  | .fault _ => false
  | .refused _ => false

/-- The operation, against a scripted chip from `s`. -/
def run (i : Instr) (answers : List Byte) (s : State) (test : State → Bool) : Bool := after (exec i (scripted answers s)) test

/-- SESSION = SELECTED. -/
def selected : State := { State.reset with regs := { Regs.reset with session := .selected } }

/-- SESSION = AUTH with AUTH_BLK = 2. -/
def authed : State := { State.reset with regs := { Regs.reset with session := .auth, authBlk := .put 2 } }

/-- The key and the identity of the vectors. -/
def key : List Int := [0xFF, 0xFF, 0xFF, 0xFF, 0xFF, 0xFF]
def uid : List Int := [0xDE, 0xAD, 0xBE, 0xEF, 0x22]

/-! ### Well-formedness: an ill-formed term for each check, refused -/

theorem test_wellFormed_byte : ([.rdreg (-1), .rdreg 256, .wrreg 0 256, .setbits 256 0, .clrbits 0 (-1), .exec 256 [],
    .autha (-1) [] [], .authb 256 [] [], .read 256, .write (-1) []] : List Instr).all (fun i => !i.wellFormed) = true := by
  decide

theorem test_wellFormed_signed : ([.mkaddr (-129) 0, .mkaddr 128 0, .mkaddr 0 (-129), .mkaddr 0 128] : List Instr).all
    (fun i => !i.wellFormed) = true := by
  decide

theorem test_wellFormed_element : ([.calccrc [0, 256], .exec 0 [-1], .mkuid [256], .mkkey [-1], .mkdata [256], .select [256],
    .autha 0 [256] [], .authb 0 [] [256], .write 0 [256], .dumpa [256] [], .dumpb [] [-1]] : List Instr).all
    (fun i => !i.wellFormed) = true := by
  decide

theorem test_wellFormed_length : (Instr.calccrc (List.replicate 256 0)).wellFormed = false ∧
    (Instr.calccrc (List.replicate 255 0)).wellFormed = true := by
  decide +kernel

/-! ### Decoding: a word of each operation, written out from 30_encoding.md R92, R95 and the serial forms of P1 to P7 -/

theorem test_decode_rdreg : decode [0b00000001, 0x08] = .op (.rdreg 0x08) [] := by decide
theorem test_decode_wrreg : decode [0b00000010, 0x0D, 0x07] = .op (.wrreg 0x0D 0x07) [] := by decide
theorem test_decode_setbits : decode [0b00000011, 0x0A, 0x80] = .op (.setbits 0x0A 0x80) [] := by decide
theorem test_decode_clrbits : decode [0b00000100, 0x08, 0x08] = .op (.clrbits 0x08 0x08) [] := by decide
theorem test_decode_calccrc : decode [0b00010000, 4, 0x30, 2, 0, 0] = .op (.calccrc [0x30, 2, 0, 0]) [] := by decide
theorem test_decode_exec : decode [0b00010001, 0x0C, 1, 0x26] = .op (.exec 0x0C [0x26]) [] := by decide
theorem test_decode_mkaddr : decode [0b00100000, 0xFF, 0x80] = .op (.mkaddr (-1) (-128)) [] := by decide
theorem test_decode_mkuid : decode [0b00100001, 4, 0xDE, 0xAD, 0xBE, 0xEF] = .op (.mkuid [0xDE, 0xAD, 0xBE, 0xEF]) [] := by
  decide
theorem test_decode_mkkey : decode [0b00100010, 6, 255, 255, 255, 255, 255, 255] = .op (.mkkey key) [] := by decide
theorem test_decode_mkdata : decode [0b00100011, 2, 0, 1, 9] = .op (.mkdata [0, 1]) [9] := by decide
theorem test_decode_reqidl : decode [0b00110000, 0x31] = .op .reqidl [0x31] := by decide
theorem test_decode_reqall : decode [0b00110001] = .op .reqall [] := by decide
theorem test_decode_anticoll : decode [0b00110010] = .op .anticoll [] := by decide
theorem test_decode_select : decode [0b00110011, 5, 0xDE, 0xAD, 0xBE, 0xEF, 0x22] = .op (.select uid) [] := by decide
theorem test_decode_autha :
    decode [0b01000000, 2, 6, 255, 255, 255, 255, 255, 255, 5, 0xDE, 0xAD, 0xBE, 0xEF, 0x22] = .op (.autha 2 key uid) [] := by
  decide
theorem test_decode_authb : decode [0b01000001, 64, 1, 0xFF, 1, 0x00] = .op (.authb 64 [0xFF] [0]) [] := by decide
theorem test_decode_read : decode [0b01000010, 2] = .op (.read 2) [] := by decide
theorem test_decode_write : decode [0b01000011, 2, 2, 0x11, 0x11] = .op (.write 2 [0x11, 0x11]) [] := by decide
theorem test_decode_stopcrypto : decode [0b01000100] = .op .stopcrypto [] := by decide
theorem test_decode_dumpa : decode [0b01010000, 0, 1, 7] = .op (.dumpa [] [7]) [] := by decide
theorem test_decode_dumpb : decode [0b01010001, 1, 7, 0] = .op (.dumpb [7] []) [] := by decide

/-- L2.7 and R93: reserved descriptors. -/
theorem test_decode_reserved : ([0x00, 0x05, 0x12, 0x24, 0x34, 0x45, 0x52, 0xFF] : List Byte).all
    (fun b => decode [b] == .reserved b) = true := by
  decide

/-- R95: a list whose bytes do not all follow is not an operation (log 14). -/
theorem test_decode_incomplete : decode [0x33, 5, 1, 2, 3, 4] = .incomplete := by decide

/-! ### Encoding -/

theorem test_encode_select : encode (.select uid) = [0x33, 5, 0xDE, 0xAD, 0xBE, 0xEF, 0x22] := by decide
theorem test_encode_mkaddr : encode (.mkaddr (-1) 0) = [0x20, 0xFF, 0x00] := by decide

/-! ### The textual syntax (30_encoding.md R109) -/

theorem test_text_mkaddr :
    readLine ['M', 'K', 'A', 'D', 'D', 'R', ' ', '-', '1', ',', ' ', '0', ' ', ';', 'x'] = .op (.mkaddr (-1) 0) := by decide
theorem test_text_exec :
    readLine ['E', 'X', 'E', 'C', ' ', '0', 'x', '0', 'C', ',', ' ', '[', '2', '6', ' ', 'f', 'F', ']'] =
      .op (.exec 0x0C [0x26, 0xFF]) := by
  decide
theorem test_text_blank : readLine [' ', ';', 'R'] = .blank := by decide
theorem test_text_malformed : readLine ['R', 'E', 'A', 'D'] = .malformed := by decide

/-! ### Register port: P7 and L2.1 -/

theorem test_wrreg : run (.wrreg 0x0D 0x07) [] .reset (fun t =>
    t.port.trace == [.write .port 0x0D 0x1A 0x07 false] && t.outcome == .put .done) = true := by decide
theorem test_wrreg_operand : run (.wrreg 0x01 0x100) [] .reset (fun t =>
    t.port.count == 0 && t.outcome == .put (.rejected .eOperand)) = true := by decide
theorem test_rdreg : run (.rdreg 0x3F) [0x00] .reset (fun t =>
    t.port.trace == [.read .port 0x3F 0xFE 0x00 0x00 false] && t.regs.regVal == .put 0x00) = true := by decide
theorem test_rdreg_address : run (.rdreg 0x40) [] .reset (fun t =>
    t.port.count == 0 && t.outcome == .put (.rejected .eRegAddr)) = true := by decide
theorem test_setbits : run (.setbits 0x0A 0x80) [0x05] .reset (fun t =>
    t.port.trace == [.write .port 0x0A 0x14 0x85 false, .read .port 0x0A 0x94 0x00 0x05 false]) = true := by decide
theorem test_setbits_zero_mask : run (.setbits 0x0A 0x00) [0x05] .reset (fun t =>
    busLog t.port == [.rd 0x0A 0x05, .wr 0x0A 0x05]) = true := by decide
theorem test_clrbits : run (.clrbits 0x08 0x08) [0x09] .reset (fun t =>
    t.port.trace == [.write .port 0x08 0x10 0x01 false, .read .port 0x08 0x90 0x00 0x09 false]) = true := by decide
theorem test_clrbits_all : run (.clrbits 0x08 0xFF) [0xA5] .reset (fun t =>
    busLog t.port == [.rd 0x08 0xA5, .wr 0x08 0x00]) = true := by decide

/-- L2.7: a failed read transfer is counted, and the drawn value is used (R144). -/
theorem test_transport_failure : after (exec (.rdreg 0x08) { State.reset with
    port := { State.reset.port with answers := [0x77], fails := [true] } }) (fun t =>
    t.port.xferFails == 1 && t.regs.regVal == .put 0x77 && t.outcome == .put .done) = true := by decide

/-- R10, R61: BUS_WRITE_ADDR and BUS_READ_ADDR are arguments, each on its own: here a write address that adds a flag, and a
read address listed register by register. -/
theorem test_busAddr : (let c : Params := { bus := { writeAddr := .shifted 2 0xFC 0x01, readAddr := .listed [0x11, 0x22] } };
    busWriteAddr c 0x0D = 0x35 ∧ busReadAddr c 1 = 0x22) := by decide
/-- R10, R11: the rows the source fixes have one legal value. -/
theorem test_sourceRows : paramsLegal { source := { maxLen := 64 } } = false ∧ paramsLegal { source := { ack := 0x0B } } = false ∧
    paramsLegal {} = true := by decide

/-! ### CRC engine: P1 and L2.2 -/

theorem test_calccrc : run (.calccrc [0x30, 0x02, 0, 0]) [0x00, 0x00, 0x00, 0x04, 0x10, 0x8B] .reset (fun t =>
    busLog t.port == [.rd 0x05 0x00, .wr 0x05 0x00, .rd 0x0A 0x00, .wr 0x0A 0x80, .wr 0x09 0x30, .wr 0x09 0x02, .wr 0x01 0x03,
      .rd 0x05 0x00, .rd 0x05 0x04, .rd 0x22 0x10, .rd 0x21 0x8B] &&
    t.regs.crcBuf == .put [0x30, 0x02, 0x10, 0x8B] && t.work.crcRemain == 253 && t.regs.status.written == false) = true := by
  decide +kernel
theorem test_calccrc_exhausted :
    run (.calccrc [0x50, 0, 0, 0]) ([0, 0] ++ List.replicate 255 0 ++ [0x5A, 0xA5]) .reset (fun t =>
    t.regs.crcBuf == .put [0x50, 0x00, 0x5A, 0xA5] && t.port.count == 264 && t.work.crcRemain == 0) = true := by
  decide +kernel

/-- The CRC_A table of 95_test_vectors.md (R166): high byte, low byte. -/
theorem test_crcA : crcA [0x30, 0x02] = 0x8B10 ∧ crcA [] = 0x6363 ∧ crcA [0x93, 0x70, 0xDE, 0xAD, 0xBE, 0xEF, 0x22] = 0x9CB9 ∧
    crcA [0xA0, 0x02] = 0x924D ∧ crcA (List.replicate 16 0x11) = 0x0732 ∧ crcA [0x50, 0x00] = 0xCD57 := by
  decide +kernel

/-! ### Command channel: L2.3 and P5 -/

/-- EXEC of kind OTHER: the poll ignores 0x10 and stops on 0x01, NO-TAG (L2.3). -/
theorem test_exec_other : run (.exec 0x03 []) [0x00, 0x00, 0x00, 0x10, 0x01, 0x00, 0x00] .reset (fun t =>
    busLog t.port == [.wr 0x02 0x80, .rd 0x04 0x00, .wr 0x04 0x00, .rd 0x0A 0x00, .wr 0x0A 0x80, .wr 0x01 0x00, .wr 0x01 0x03,
      .rd 0x04 0x00, .rd 0x04 0x10, .rd 0x04 0x01, .rd 0x0D 0x00, .wr 0x0D 0x00, .rd 0x06 0x00] &&
    t.regs.status == .put .noTag && t.work.pollRemain == 1997) = true := by
  decide +kernel
/-- 00 × 1999, then 30 on read 2000: CNT reached 0, GENERIC-ERROR in 2012 transfers (L2.3). -/
theorem test_exec_last_poll :
    run (.exec 0x0C [0x26]) ([0, 0, 0] ++ List.replicate 1999 0 ++ [0x30, 0x80]) .reset (fun t =>
    t.regs.status == .put .genericError && t.port.count == 2012 && t.work.pollRemain == 0) = true := by
  decide +kernel

/-- The level and lastBits table of L2.3 (R191, R192). -/
theorem test_levels : (([(0, 0, 0, 0), (0, 3, -5, 0), (1, 4, 4, 1), (5, 7, 39, 5), (16, 0, 128, 16), (18, 5, 141, 16),
    (128, 0, 1024, 16), (255, 7, 2039, 16)] : List (Byte × Byte × Int × Nat)).all fun x =>
    decide (bitCount (levelOf Config.defaultParams x.1) (lastBitsOf Config.defaultParams x.2.1) = x.2.2.1) &&
    decide (byteCount Config.defaultParams (levelOf Config.defaultParams x.1) = x.2.2.2)) = true := by
  decide

/-- The error register table of L2.3 (R188). -/
theorem test_errors : ([0x01, 0x02, 0x08, 0x10].all (hasError Config.defaultParams) &&
    [0x04, 0x20, 0x40, 0x80, 0xE4].all fun e => !hasError Config.defaultParams e) = true := by
  decide

/-! ### Value types: P6 and L1.1 to L1.3 -/

theorem test_mkaddr : run (.mkaddr 15 3) [] .reset (fun t => t.regs.blkAddr == .put 63 && t.port.count == 0) = true := by decide
theorem test_mkaddr_order : run (.mkaddr 16 4) [] .reset (fun t => t.outcome == .put (.rejected .eSector)) = true := by decide
theorem test_mkuid : run (.mkuid [0xDE, 0xAD, 0xBE, 0xEF, 0x23]) [] .reset (fun t =>
    t.regs.id == .put [0xDE, 0xAD, 0xBE, 0xEF, 0x23] && t.regs.idValid == .put false && t.outcome == .put .done) = true := by
  decide
theorem test_mkuid_valid : run (.mkuid uid) [] .reset (fun t => t.regs.idValid == .put true) = true := by decide
theorem test_mkkey : run (.mkkey key) [] .reset (fun t => t == { scripted [] .reset with outcome := .put .done }) = true := by
  decide
theorem test_mkkey_length : run (.mkkey [0xFF, 0x100]) [] .reset (fun t => t.outcome == .put (.rejected .eKeyLen)) = true := by
  decide
theorem test_mkdata : run (.mkdata (List.replicate 16 0)) [] .reset (fun t => t.outcome == .put .done) = true := by decide
theorem test_mkdata_length : run (.mkdata (List.replicate 18 0)) [] .reset (fun t =>
    t.outcome == .put (.rejected .eDataLen)) = true := by
  decide

/-! ### Discovery: P2, P8 and L2.5 -/

theorem test_reqidl : run .reqidl [0x00, 0x00, 0x07, 0x30, 0x87, 0x00, 0x02, 0x00, 0x04, 0x00] .reset (fun t =>
    busLog t.port == [.wr 0x0D 0x07, .wr 0x02 0xF7, .rd 0x04 0x00, .wr 0x04 0x00, .rd 0x0A 0x00, .wr 0x0A 0x80, .wr 0x01 0x00,
      .wr 0x09 0x26, .wr 0x01 0x0C, .rd 0x0D 0x07, .wr 0x0D 0x87, .rd 0x04 0x30, .rd 0x0D 0x87, .wr 0x0D 0x07, .rd 0x06 0x00,
      .rd 0x0A 0x02, .rd 0x0C 0x00, .rd 0x09 0x04, .rd 0x09 0x00] &&
    t.regs.status == .put .ok && t.regs.respLen == .put 2 && t.regs.respBits == .put 16) = true := by
  decide +kernel
/-- REQIDL with SESSION = AUTH: OK, VIOLATION 1 (V1), SESSION still AUTH. -/
theorem test_reqidl_auth : run .reqidl [0x00, 0x00, 0x07, 0x30, 0x87, 0x00, 0x02, 0x00, 0x04, 0x00] authed (fun t =>
    t.violation && t.regs.session == .auth && t.regs.status == .put .ok) = true := by decide +kernel
/-- REQALL, level 2, lb 1: GENERIC-ERROR (9 bits); the FIFO byte written is 52. -/
theorem test_reqall : run .reqall [0x00, 0x00, 0x07, 0x30, 0x87, 0x00, 0x02, 0x01, 0x04, 0x00] .reset (fun t =>
    t.regs.status == .put .genericError && t.regs.respBits == .put 9 && (busLog t.port).contains (.wr 0x09 0x52)) = true := by
  decide +kernel
theorem test_anticoll : run .anticoll
    [0x00, 0x00, 0x00, 0x30, 0x80, 0x00, 0x05, 0x00, 0xDE, 0xAD, 0xBE, 0xEF, 0x22] .reset (fun t =>
    t.regs.status == .put .ok && t.regs.id == .put [0xDE, 0xAD, 0xBE, 0xEF, 0x22] && t.regs.idValid == .put true &&
    t.regs.respBits == .put 40 && t.port.count == 23) = true := by decide +kernel
/-- ANTICOLL with four bytes: GENERIC-ERROR, ID = DE AD BE EF 00, ID_VALID false, tr 22. -/
theorem test_anticoll_short : run .anticoll
    [0x00, 0x00, 0x00, 0x30, 0x80, 0x00, 0x04, 0x00, 0xDE, 0xAD, 0xBE, 0xEF] .reset (fun t =>
    t.regs.status == .put .genericError && t.regs.id == .put [0xDE, 0xAD, 0xBE, 0xEF, 0x00] && t.regs.idValid == .put false &&
    t.port.count == 22) = true := by decide +kernel
theorem test_select : run (.select uid) [0x00, 0x00, 0x04, 0xB9, 0x9C,
    0x00, 0x00, 0x00, 0x30, 0x80, 0x00, 0x03, 0x00, 0x08, 0xB6, 0xDD] .reset (fun t =>
    t.regs.sak == .put 0x08 && t.regs.status == .put .ok && t.regs.session == .selected && !t.violation &&
    t.regs.resp == .put ([0x08, 0xB6, 0xDD] ++ zeros 13) && t.port.count == 42) = true := by decide +kernel
/-- SELECT, 08 at level 1: GENERIC-ERROR, SAK 00, SESSION UNAUTH, tr 40. -/
theorem test_select_short : run (.select uid) [0x00, 0x00, 0x04, 0xB9, 0x9C,
    0x00, 0x00, 0x00, 0x30, 0x80, 0x00, 0x01, 0x00, 0x08] .reset (fun t =>
    t.regs.sak == .put 0x00 && t.regs.status == .put .genericError && t.regs.session == .unauth && t.port.count == 40) = true := by
  decide +kernel

/-! ### Access: P3, P4, P10 and L2.6 -/

theorem test_autha : run (.autha 2 key uid) [0x00, 0x00, 0x10, 0x00, 0x00, 0x08] selected (fun t =>
    busLog t.port == [.wr 0x02 0x92, .rd 0x04 0x00, .wr 0x04 0x00, .rd 0x0A 0x00, .wr 0x0A 0x80, .wr 0x01 0x00, .wr 0x09 0x60,
      .wr 0x09 0x02, .wr 0x09 0xFF, .wr 0x09 0xFF, .wr 0x09 0xFF, .wr 0x09 0xFF, .wr 0x09 0xFF, .wr 0x09 0xFF, .wr 0x09 0xDE,
      .wr 0x09 0xAD, .wr 0x09 0xBE, .wr 0x09 0xEF, .wr 0x01 0x0E, .rd 0x04 0x10, .rd 0x0D 0x00, .wr 0x0D 0x00, .rd 0x06 0x00,
      .rd 0x08 0x08] &&
    t.regs.session == .auth && t.regs.authBlk == .put 2 && t.regs.status == .put .ok && !t.violation) = true := by
  decide +kernel
/-- `AUTHA 64, [FF], [00]` reports E_BLK_ADDR (60_exceptions.md R302). -/
theorem test_autha_order : run (.autha 64 [0xFF] [0x00]) [] selected (fun t => t.outcome == .put (.rejected .eBlkAddr)) &&
    run (.autha 2 [0xFF] [0x00]) [] selected (fun t => t.outcome == .put (.rejected .eKeyLen)) = true := by decide
/-- AUTHB 7 with the crypto bit clear: GENERIC-ERROR, SESSION UNAUTH, tr 24; FIFO byte 0 is 61. -/
theorem test_authb : run (.authb 7 key uid) [0x00, 0x00, 0x10, 0x00, 0x00, 0x00] selected (fun t =>
    t.regs.status == .put .genericError && t.regs.session == .unauth && t.port.count == 24 &&
    (busLog t.port).getD 6 (.wr 0 0) == .wr 0x09 0x61) = true := by decide +kernel
/-- P3.2. -/
theorem test_read : run (.read 2) ([0x00, 0x00, 0x04, 0x10, 0x8B, 0x00, 0x00, 0x00, 0x30, 0x80, 0x00, 0x12, 0x00] ++
    (List.range 16).map (BitVec.ofNat 8)) authed (fun t =>
    t.regs.status == .put .ok && t.regs.blockOut == .put ((List.range 16).map (BitVec.ofNat 8)) &&
    t.regs.respLen == .put 16 && t.regs.respBits == .put 144 && t.port.count == 45 && !t.violation) = true := by decide +kernel
/-- P10: a read before authentication. -/
theorem test_read_unauth : run (.read 5) [0x00, 0x00, 0x04, 0xAF, 0xFF, 0x00, 0x00, 0x00, 0x30, 0x80, 0x00, 0x01, 0x04, 0x04]
    .reset (fun t =>
    t.regs.status == .put .genericError && t.regs.blockOut == .put (zeros 16) && t.regs.resp == .put (zeros 16) &&
    t.regs.respLen == .put 0 && t.regs.respBits == .put 4 && t.violation && t.port.count == 30) = true := by decide +kernel
/-- P4. -/
theorem test_write : run (.write 2 (List.replicate 16 0x11)) [0x00, 0x00, 0x04, 0x4D, 0x92,
    0x00, 0x00, 0x00, 0x30, 0x80, 0x00, 0x01, 0x04, 0x0A, 0x00, 0x00, 0x04, 0x32, 0x07,
    0x00, 0x00, 0x00, 0x30, 0x80, 0x00, 0x01, 0x04, 0x0A] authed (fun t =>
    t.regs.status == .put .ok && t.regs.respBits == .put 4 && t.regs.session == .auth && t.port.count == 88 &&
    t.port.answers == []) = true := by decide +kernel
/-- A NAK in phase 1: GENERIC-ERROR, tr 30, no phase 2. -/
theorem test_write_nak : run (.write 2 (List.replicate 16 0x11)) [0x00, 0x00, 0x04, 0x4D, 0x92,
    0x00, 0x00, 0x00, 0x30, 0x80, 0x00, 0x01, 0x04, 0x05] authed (fun t =>
    t.regs.status == .put .genericError && t.port.count == 30) = true := by decide +kernel
/-- P3.3: AUTH_BLK keeps its value. -/
theorem test_stopcrypto : run .stopcrypto [0x08] authed (fun t =>
    busLog t.port == [.rd 0x08 0x08, .wr 0x08 0x00] && t.regs.session == .unauth && t.regs.authBlk == .put 2 &&
    t.regs.status == .put .ok) = true := by decide +kernel
/-- L2.6: every auth fails at poll 1: STATUS OK, DUMP_MASK 0, SESSION UNAUTH, tr 1536. -/
theorem test_dumpa : run (.dumpa key uid) ((List.replicate 64 [(0x00 : Byte), 0x00, 0x10, 0x00, 0x00, 0x00]).flatten) selected
    (fun t => t.regs.status == .put .ok && t.regs.dumpMask == .put 0 && t.regs.session == .unauth &&
    t.port.count == 1536) = true := by decide +kernel
/-- L2.6: auth OK only for blocks 0 to 3, each read at level 18: DUMP_MASK 0xF, SESSION UNAUTH, tr 1716. -/
theorem test_dumpb : run (.dumpb key uid)
    ((List.replicate 4 ([(0x00 : Byte), 0x00, 0x10, 0x00, 0x00, 0x08, 0x00, 0x00, 0x04, 0x10, 0x8B,
      0x00, 0x00, 0x00, 0x30, 0x80, 0x00, 0x12, 0x00] ++ List.replicate 16 0x5A)).flatten ++
     (List.replicate 60 [(0x00 : Byte), 0x00, 0x10, 0x00, 0x00, 0x00]).flatten) selected
    (fun t => t.regs.dumpMask == .put 0xF && t.regs.dumpOut.value.getD 3 [] == List.replicate 16 0x5A &&
    t.regs.dumpOut.value.getD 4 [] == zeros 16 && t.regs.session == .unauth && t.port.count == 1716) = true := by
  decide +kernel

/-! ### Reset, the host and the transfer level: L2.7 -/

/-- A TRANSCEIVE begun and left in its poll. -/
def polling : State := { State.reset with
  phase := .busy (.exec 0x0C [0x26]) 12 [0x00, 0x00, 0x00, 0x00, 0x00]
  violation := true }

/-- The block waits in POLL for its next read of ComIrq. -/
theorem test_stage : nextStage polling = some .poll := by decide +kernel
/-- An operation begun at reset waits in SETUP, at pos 0. -/
theorem test_begin : after (beginOp (.exec 0x0C [0x26]) .reset) (fun t =>
    t.phase == .busy (.exec 0x0C [0x26]) 0 [] && nextStage t == some .setup && t.port.count == 0) = true := by decide +kernel
/-- The second transfer of a CLRBITS ends it in the same step (10_state.md R22). -/
theorem test_last_transfer : after (step (scripted [0x09] { State.reset with phase := .busy (.clrbits 0x08 0x08) 1 [0x09] }))
    (fun t => t.phase == .idle && t.outcome == .put .done && busLog t.port == [.wr 0x08 0x01]) = true := by decide +kernel
/-- An offer while BUSY. -/
theorem test_busy : after (step { polling with host := [.offer (.serial [0x44])], violation := false }) (fun t =>
    t == { polling with outcome := .put (.rejected .eBusy) }) = true := by decide +kernel
/-- A reset during a TRANSCEIVE poll: results unwritten, VIOLATION 0. -/
theorem test_reset_busy : after (step { polling with host := [.reset] }) (fun t => t == State.reset) = true := by decide +kernel
/-- A host read of STATUS right after reset faults. -/
theorem test_read_unwritten : hostRead .status State.reset = .fault (.unwrittenRead .status) := rfl
/-- The next step runs the operation of a word put in place for it. -/
theorem test_withFetchWord : step (State.reset.withFetchWord 8 0x30) = exec .reqidl State.reset := rfl

/-! ### The chip's fields and its initialisation (20_memory.md R66 to R76, 70_reset_and_hazards.md R343) -/

/-- R70: ERR_MASK is BufferOvfl, CollErr, ParityErr and ProtocolErr. -/
theorem test_errMask : Config.defaultParams.mask.errMask =
    fieldMask .bufferOvfl ||| fieldMask .collErr ||| fieldMask .parityErr ||| fieldMask .protocolErr := by decide
/-- R68: TRX_WAIT is RxIRq and IdleIRq, AUTH_WAIT is IdleIRq, POLL_STOP_MASK and TIMER_BIT are TimerIRq. -/
theorem test_waitMasks : Config.defaultParams.mask.trxWait = fieldMask .rxIrq ||| fieldMask .idleIrq ∧
    Config.defaultParams.mask.authWait = fieldMask .idleIrq ∧ Config.defaultParams.mask.pollStop = fieldMask .timerIrq ∧
    Config.defaultParams.mask.timerBit = fieldMask .timerIrq := by decide
/-- R75: FRAMING_REQ is TxLastBits = 7. -/
theorem test_framing : fieldGet .txLastBits Config.defaultParams.framing.req = 7 ∧
    fieldGet .startSend Config.defaultParams.framing.req = 0 := by decide
/-- R353: the value that ClearBits writes to DivIrq leaves a set CRCIRq set. -/
theorem test_staleCrcFlag : irqBitsAfterWrite 0x04 ((0x04 : Byte) &&& ~~~Config.defaultParams.mask.crcIrq) = 0x04 := by decide
/-- R68: the value that ClearBits writes to ComIrq removes every bit that read as 1. -/
theorem test_clearComIrq : irqBitsAfterWrite 0x7F ((0x7F : Byte) &&& ~~~Config.defaultParams.mask.comIrqSet1) = 0x00 := by decide
/-- R343: the initialisation is eight operations with a serial form. -/
theorem test_chipReady : (chipReady Config.defaultParams).length = 8 ∧
    (chipReady Config.defaultParams).all Instr.wellFormed = true := by decide

/-! ### Witnesses: for each statement with hypotheses, a state and operands that meet all of them -/

theorem ready_reset : State.reset.Ready := ⟨by decide, rfl⟩
theorem ready_authed : authed.Ready := ⟨by decide, rfl⟩
theorem ready_offer (evs : List HostEvent) : State.Ready { State.reset with host := evs } := ⟨ready_reset.1, rfl⟩

/-- The same configuration with small poll bounds, so that witnesses at the bounds stay small. -/
def smallParams : Params := { pollLimit := 2, crcPollLimit := 2 }
/-- A ready block with small poll bounds. -/
def small : State := { State.reset with cfg := smallParams }
theorem ready_small (answers : List Byte) : State.Ready { small with port := { State.reset.port with answers := answers } } :=
  ⟨(by decide : paramsLegal smallParams = true), rfl⟩

/-- DecodeOfEncode: the operands at both ends of their serial ranges. -/
theorem witness_DecodeOfEncode : (Instr.mkaddr (-128) 127).wellFormed = true ∧ (Instr.wrreg 0 255).wellFormed = true ∧
    (Instr.exec 255 []).wellFormed = true := by decide
theorem witness_EncodeOfDecode : decode [0x33, 0x00, 0x07] = .op (.select []) [0x07] := by decide
/-- ReservedDescriptorsRejected: the ends of the reserved ranges, with their neighbours outside. -/
theorem witness_ReservedDescriptorsRejected : ([0x00, 0x05, 0x0F, 0x12, 0x1F, 0x24, 0x2F, 0x34, 0x3F, 0x45, 0x4F, 0x52, 0xFF] :
      List Byte).all (fun b => decode [b] == .reserved b) = true ∧
    ([0x01, 0x04, 0x10, 0x11, 0x20, 0x23, 0x30, 0x33, 0x40, 0x44, 0x50, 0x51] : List Byte).all
      (fun b => decode [b] != .reserved b) = true ∧
    State.Ready { State.reset with host := [.offer (.serial [0x52])] } := ⟨by decide, by decide, ready_offer _⟩
theorem witness_StepRunsOfferedOperation : decode [0x44, 0x01] = .op .stopcrypto [0x01] ∧
    decodeTableWord 8 0x44 = some .stopcrypto ∧ decodeTableWord 8 0x00 = none ∧
    paramsLegal State.reset.cfg = true := by decide +kernel
/-- BusyOfferRejected: a block in its poll, with an operation and a reserved descriptor offered, whole and begun. -/
theorem witness_BusyOfferRejected : paramsLegal polling.cfg = true ∧
    polling.phase = .busy (.exec 0x0C [0x26]) 12 [0x00, 0x00, 0x00, 0x00, 0x00] ∧
    readOffer (.serial [0x44]) ≠ .incomplete ∧ readOffer (.serial [0x52]) ≠ .incomplete ∧
    readOffer (.text .reqidl) ≠ .incomplete := by decide
/-- IllegalConfigRefused: each bound at 0, and a register address one above REG_ADDR_MAX. -/
theorem witness_IllegalConfigRefused : ({ pollLimit := 0 } : Params).pollLimit = 0 ∧
    ({ crcPollLimit := 0 } : Params).crcPollLimit = 0 ∧
    (0x40 ∈ sequencerRegs { reg := { status2 := 0x40 } } ∧ ({ reg := { status2 := 0x40 } } : Params).regAddrMax < 0x40) := by
  decide
/-- HostReadFaultsOrReturns: a register that nothing has written, one that something has, and a read at BUSY. -/
theorem witness_HostReadFaultsOrReturns : State.Ready { State.reset with host := [.read .sak] } ∧
    resultWritten .sak State.reset = false ∧
    resultWritten .sak { State.reset with regs := { Regs.reset with sak := .put 0x08 } } = true ∧
    paramsLegal polling.cfg = true ∧ polling.phase ≠ .idle := ⟨ready_offer _, rfl, rfl, by decide, by decide⟩
theorem witness_ResetEventResets : paramsLegal polling.cfg = true ∧
    ({ polling with host := [.reset] } : State).host = [.reset] := ⟨by decide, rfl⟩
theorem witness_IdleBlockWaits : State.reset.Ready ∧ State.reset.host = [] := ⟨ready_reset, rfl⟩
/-- TransferStepsAgreeWithExec: an operation with transfers, one without, and a rejected one. -/
theorem witness_TransferStepsAgreeWithExec : State.reset.Ready ∧ State.reset.host = [] ∧
    (∃ t, exec .stopcrypto State.reset = .next t) ∧ (∃ t, exec (.mkaddr 0 2) State.reset = .next t) ∧
    (∃ t, exec (.mkaddr 16 0) State.reset = .next t) := ⟨ready_reset, rfl, ⟨_, rfl⟩, ⟨_, rfl⟩, ⟨_, rfl⟩⟩
/-- OperationContinuesAmongHostInputs: STOPCRYPTO, of two transfers, with an offer, one tick and a reserved descriptor between
them. -/
theorem witness_OperationContinuesAmongHostInputs :
    (let s : State := { State.reset with
        host := [.begin (.text .stopcrypto), .offer (.text .reqidl), .tick, .begin (.serial [0x52])] };
      s.Ready ∧ (∃ t, exec .stopcrypto { s with host := [] } = .next t ∧ t.port.count - s.port.count = 2)) ∧
    (∀ ev ∈ ([.offer (.text .reqidl), .tick, .begin (.serial [0x52])] : List HostEvent), ev.isTick = true ∨ ev.offers = true) ∧
    ([.offer (.text .reqidl), .tick, .begin (.serial [0x52])] : List HostEvent).countP HostEvent.isTick < 2 :=
  ⟨⟨ready_offer _, _, rfl, rfl⟩, by decide, by decide⟩
/-- RejectionWritesOnlyOutcome: a rejected operand, and E_BUSY. -/
theorem witness_RejectionWritesOnlyOutcome :
    (∃ t, exec (.mkaddr 16 0) State.reset = .next t ∧ t.outcome = .put (.rejected .eSector)) ∧
    (∃ t, exec .reqidl polling = .next t ∧ t.outcome = .put (.rejected .eBusy)) := ⟨⟨_, rfl, rfl⟩, ⟨_, rfl, rfl⟩⟩
/-- RegisterAddressRejected: one below and one above the range. -/
theorem witness_RegisterAddressRejected : State.reset.Ready ∧ (-1 : Int) < 0 ∧
    (State.reset.cfg.regAddrMax : Int) < 0x40 := ⟨ready_reset, by decide, by decide⟩
/-- ByteOperandRejected: one below and one above the range, behind an address at each end of its own. -/
theorem witness_ByteOperandRejected : State.reset.Ready ∧ (-1 : Int) < 0 ∧ (255 : Int) < 256 ∧
    (0x3F : Int) ≤ (State.reset.cfg.regAddrMax : Int) ∧ (256 : Int) ∈ ([0, 256] : List Int) :=
  ⟨ready_reset, by decide, by decide, by decide, by decide⟩
/-- ListOperandsChecked: the lengths next to the right ones, and an element next to the range. -/
theorem witness_ListOperandsChecked : State.reset.Ready ∧ (List.replicate 5 (0 : Int)).length ≠ 6 ∧
    (List.replicate 17 (0 : Int)).length ≠ 16 ∧ (List.replicate 4 (0 : Int)).length ≠ 5 ∧ ([0x30] : List Int).length < 2 ∧
    (∃ x ∈ ([0, 256] : List Int), x < 0 ∨ 255 < x) := ⟨ready_reset, by decide, by decide, by decide, by decide, by decide⟩
/-- AuthOperandsCheckedInOrder: each check failing first. -/
theorem witness_AuthOperandsCheckedInOrder : (let c := Config.defaultParams;
    checkAuth c 64 [0xFF] [0x00] = some .eBlkAddr ∧
    checkAuth c 63 [0xFF] [0x00] = some .eKeyLen ∧ checkAuth c 0 [0, 0, 0, 0, 0, 256] [0x00] = some .eOperand ∧
    checkAuth c 0 key [0x00] = some .eUidLen ∧ checkDump c key [0, 0, 0, 0, -1] = some .eOperand) := by decide
/-- ReadWriteOperandsChecked: one outside each end of the block range, and each fault of the data. -/
theorem witness_ReadWriteOperandsChecked : State.reset.Ready ∧ (-1 : Int) < 0 ∧ (63 : Int) < 64 ∧
    (List.replicate 15 (0 : Int)).length ≠ 16 ∧
    ((256 : Int) :: List.replicate 15 0).length = 16 ∧ (∃ x ∈ ((256 : Int) :: List.replicate 15 0), x < 0 ∨ 255 < x) :=
  ⟨ready_reset, by decide, by decide, by decide, by decide, by decide⟩
/-- MkaddrComputesFlatAddress: the last good pair, and one outside each end of each range. -/
theorem witness_MkaddrComputesFlatAddress : State.reset.Ready ∧ (0 : Int) ≤ 15 ∧ (15 : Int) ≤ 15 ∧ (3 : Int) ≤ 3 ∧
    (15 : Int) < 16 ∧ (-1 : Int) < 0 ∧ (3 : Int) < 4 :=
  ⟨ready_reset, by decide, by decide, by decide, by decide, by decide, by decide⟩
theorem witness_FlatAddressesDistinct : State.reset.Ready ∧ 15 ≤ 15 ∧ 3 ≤ 3 ∧ 63 < 64 :=
  ⟨ready_reset, by decide, by decide, by decide⟩
theorem witness_MkuidMarksValidity : State.reset.Ready := ready_reset
theorem witness_MkkeyMkdataWriteNothing : State.reset.Ready ∧ (zeros 6).length = 6 ∧ (zeros 16).length = 16 :=
  ⟨ready_reset, rfl, rfl⟩
theorem witness_TransferWireBytes : Config.defaultParams.bus = {} := rfl
/-- RdregReadsOnce, WrregWritesOnce, SetbitsReadsThenWrites, ClrbitsReadsThenWrites: the last register address. -/
theorem witness_RegisterOperations : State.reset.Ready ∧ 0x3F ≤ State.reset.cfg.regAddrMax := ⟨ready_reset, by decide⟩

/-- A CRC run whose flag is seen on the first poll, and one that exhausts the poll. -/
def crcSeen : CrcScript := ⟨0x00, 0x00, [], 0x04, 0x10, 0x8B⟩
def crcExhausted : CrcScript := ⟨0x00, 0x00, [0x00], 0x00, 0x5A, 0xA5⟩
theorem crcSeen_ok : crcSeen.Ok smallParams := ⟨by simp [crcSeen], .inr ⟨by decide, by decide⟩⟩
theorem crcExhausted_ok : crcExhausted.Ok smallParams := ⟨by decide, .inl rfl⟩
/-- CalccrcAgainstChip: the shortest buffer, the flag seen at once and never. -/
theorem witness_CalccrcAgainstChip : State.Ready { small with port := { State.reset.port with answers := crcSeen.answers } } ∧
    2 ≤ ([0xAA, 0xBB] : List Byte).length ∧ crcSeen.Ok smallParams ∧ crcExhausted.Ok smallParams :=
  ⟨ready_small _, by decide, crcSeen_ok, crcExhausted_ok⟩
theorem witness_CalccrcCompletes : State.reset.Ready ∧ 2 ≤ (zeros 2).length := ⟨ready_reset, by decide⟩

/-- A TRANSCEIVE that answers 16 bytes, one that answers a 4-bit acknowledge, and an AUTHENT, each stopping at once. -/
def trxFull : DispatchScript := ⟨0, 0, 0, [], 0x30, 0x80, 0x00, 0x12, 0x00, List.replicate 16 0x11⟩
def trxAck : DispatchScript := ⟨0, 0, 0, [], 0x30, 0x80, 0x00, 0x01, 0x04, [0x0A]⟩
def authStop : DispatchScript := ⟨0, 0, 0, [], 0x10, 0x00, 0x00, 0x00, 0x00, []⟩
/-- A command of kind OTHER that the timer bit stops, with an error bit; and one whose poll exhausts. -/
def otherError : DispatchScript := ⟨0, 0, 0, [], 0x01, 0x00, 0x08, 0x00, 0x00, []⟩
def exhausted : DispatchScript := ⟨0, 0, 0, [0x02], 0x30, 0x80, 0x00, 0x00, 0x00, []⟩
theorem trxFull_ok : trxFull.Ok smallParams .transceive := ⟨⟨by simp [trxFull], by decide, by decide⟩, by decide, by decide⟩
theorem trxAck_ok : trxAck.Ok smallParams .transceive := ⟨⟨by simp [trxAck], by decide, by decide⟩, by decide, by decide⟩
theorem authStop_ok : authStop.Ok smallParams .authent := ⟨⟨by simp [authStop], by decide, by decide⟩, by decide, by decide⟩
/-- ExecSucceedsAgainstChip: for TRANSCEIVE with a full response, and for AUTHENT. -/
theorem witness_ExecSucceedsAgainstChip :
    State.Ready { small with port := { State.reset.port with answers := trxFull.answers .transceive } } ∧
    selectKind smallParams 0x0C = .transceive ∧ trxFull.Ok smallParams .transceive ∧
    selectKind smallParams 0x0E = .authent ∧ authStop.Ok smallParams .authent :=
  ⟨ready_small _, by decide, trxFull_ok, by decide, authStop_ok⟩
/-- ExecExhaustsAgainstChip: the last poll has a stop bit, and it is exhaustion all the same. -/
theorem witness_ExecExhaustsAgainstChip :
    State.Ready { small with port := { State.reset.port with answers := exhausted.pollAnswers .transceive } } ∧
    exhausted.quiet.length + 1 = smallParams.pollLimit ∧
    (∀ n ∈ exhausted.quiet, stopsPoll smallParams (waitIrqOf smallParams .transceive) n = false) :=
  ⟨ready_small _, rfl, by decide⟩
/-- ExecErrorBitFails: the timer bit stops the poll and the collision bit is set. -/
theorem witness_ExecErrorBitFails :
    State.Ready { small with port := { State.reset.port with answers := otherError.pollAnswers .other ++ [0x08] } } ∧
    selectKind smallParams 0x03 = .other ∧ otherError.Stops smallParams .other ∧ hasError smallParams otherError.err = true :=
  ⟨ready_small _, by decide, ⟨by simp [otherError], by decide, by decide⟩, by decide⟩
theorem witness_ExecCompletes : State.reset.Ready := ready_reset
theorem witness_DispatchPhasesInOrder : State.reset.Ready := ready_reset
theorem witness_OtherKindNeverOk : State.reset.Ready ∧ State.reset.cfg = Config.defaultParams ∧ (0x8C : Byte) ≠ 0x0C ∧
    (0x8C : Byte) ≠ 0x0E := ⟨ready_reset, rfl, by decide, by decide⟩
theorem witness_RequestResult : State.reset.Ready ∧ (0x26 : Byte) = State.reset.cfg.card.reqIdl ∧
    (0x52 : Byte) = State.reset.cfg.card.reqAll := ⟨ready_reset, rfl, rfl⟩
theorem witness_AnticollResult : authed.Ready := ready_authed
theorem witness_SelectResult : State.reset.Ready ∧ (zeros 5).length = 5 := ⟨ready_reset, rfl⟩
/-- AuthResult, ReadResult, WriteResult, DumpResult: the last block and operands of the right lengths. -/
theorem witness_AccessResults : authed.Ready ∧ 63 < 64 ∧ (zeros 6).length = 6 ∧ (zeros 5).length = 5 ∧ (zeros 16).length = 16 :=
  ⟨ready_authed, by decide, rfl, rfl, rfl⟩
/-- WriteResult: an acknowledged reply and one refused for its bits. -/
theorem witness_WriteResult : replyAcked Config.defaultParams ⟨.ok, 0xFA :: zeros 15, 1, 4⟩ = true ∧
    replyAcked Config.defaultParams ⟨.ok, 0x0A :: zeros 15, 1, 8⟩ = false := by decide
theorem witness_StopcryptoResult : authed.Ready := ready_authed

/-- A dumped block that is read; one whose crypto bit stays clear, one whose AUTHENT dispatch exhausts its poll, one whose
AUTHENT dispatch sees an error bit, one that ends in NO-TAG, and an authenticated one whose read is short. -/
def blockRead : BlockScript := ⟨authStop, 0x08, crcSeen, trxFull⟩
def blockClear : BlockScript := ⟨authStop, 0xF7, crcSeen, trxFull⟩
def blockExhausted : BlockScript := ⟨exhausted, 0x08, crcSeen, trxFull⟩
def blockError : BlockScript := ⟨{ authStop with err := 0x08 }, 0x08, crcSeen, trxFull⟩
def blockNoTag : BlockScript := ⟨{ authStop with stop := 0x01 }, 0x08, crcSeen, trxFull⟩
def blockShort : BlockScript := ⟨authStop, 0x08, crcSeen, trxAck⟩
theorem authStop_runs : authStop.Runs smallParams .authent := ⟨by simp [authStop], .inr ⟨by decide, by decide, by decide⟩⟩
theorem blockRead_ok : blockRead.Ok smallParams := ⟨authStop_runs, fun _ => crcSeen_ok,
  fun _ => ⟨by simp [blockRead, trxFull], .inr ⟨by decide, by decide, by decide⟩⟩⟩
theorem blockClear_ok : blockClear.Ok smallParams :=
  ⟨authStop_runs, fun h => absurd h (by decide), fun h => absurd h (by decide)⟩
theorem blockExhausted_ok : blockExhausted.Ok smallParams :=
  ⟨⟨by decide, .inl rfl⟩, fun h => absurd h (by decide), fun h => absurd h (by decide)⟩
theorem blockError_ok : blockError.Ok smallParams :=
  ⟨⟨by simp [blockError, authStop], .inr ⟨by decide, by decide, by decide⟩⟩, fun h => absurd h (by decide),
    fun h => absurd h (by decide)⟩
theorem blockNoTag_ok : blockNoTag.Ok smallParams :=
  ⟨⟨by simp [blockNoTag, authStop], .inr ⟨by decide, by decide, by decide⟩⟩, fun h => absurd h (by decide),
    fun h => absurd h (by decide)⟩
theorem blockShort_ok : blockShort.Ok smallParams := ⟨authStop_runs, fun _ => crcSeen_ok,
  fun _ => ⟨by simp [blockShort, trxAck], .inr ⟨by decide, by decide, by decide⟩⟩⟩
/-- A dump of 58 blocks that are read, the five kinds of skipped block, and a last block that is read. -/
def dumpScript : List BlockScript :=
  List.replicate 58 blockRead ++ [blockClear, blockExhausted, blockError, blockNoTag, blockShort, blockRead]
theorem dumpScript_ok : ∀ b ∈ dumpScript, b.Ok smallParams := by
  intro b hb
  rcases List.mem_append.1 hb with h | h
  · rw [List.eq_of_mem_replicate h]; exact blockRead_ok
  · simp only [List.mem_cons, List.not_mem_nil, or_false] at h
    rcases h with rfl | rfl | rfl | rfl | rfl | rfl
    exacts [blockClear_ok, blockExhausted_ok, blockError_ok, blockNoTag_ok, blockShort_ok, blockRead_ok]
/-- DumpAgainstChip: that dump, of which the authentications of the blocks 0 to 57, 62 and 63 end OK and the reads of the
blocks 0 to 57 and 63 too; and one in which no authentication does. -/
theorem witness_DumpAgainstChip : dumpScript.length = 64 ∧ (∀ b ∈ dumpScript, b.Ok smallParams) ∧
    dumpScript.map (BlockScript.authed smallParams) =
      List.replicate 58 true ++ [false, false, false, false, true, true] ∧
    dumpScript.map (BlockScript.got smallParams) =
      List.replicate 58 true ++ [false, false, false, false, false, true] ∧
    (List.replicate 64 blockNoTag).length = 64 ∧ blockNoTag.Ok smallParams ∧ blockNoTag.authed smallParams = false ∧
    State.Ready { small with port := { State.reset.port with
      answers := dumpScript.flatMap (BlockScript.answers smallParams) } } :=
  ⟨rfl, dumpScript_ok, by decide, by decide, rfl, blockNoTag_ok, by decide, ready_small _⟩
/-- DumpTransferBound: a dump that runs and one that is rejected. -/
theorem witness_DumpTransferBound : State.reset.Ready ∧ State.reset.cfg = Config.defaultParams ∧
    (∃ t, exec (.dumpa (ints (zeros 6)) (ints (zeros 5))) State.reset = .next t) ∧
    (∃ t, exec (.dumpb [] []) State.reset = .next t) :=
  ⟨ready_reset, rfl, ⟨_, exec_legal (by decide) _⟩, ⟨_, exec_legal (by decide) _⟩⟩
theorem witness_WriteThenReadRoundTrip : smallParams.cmd.transceive ≠ smallParams.cmd.authent ∧ crcSeen.Ok smallParams ∧
    trxAck.Ok smallParams .transceive ∧ trxFull.Ok smallParams .transceive ∧
    timerStatus smallParams smallParams.mask.trxIrqEn trxAck.stop = .ok ∧
    timerStatus smallParams smallParams.mask.trxIrqEn trxFull.stop = .ok ∧
    levelOf smallParams trxAck.level = 1 ∧ lastBitsOf smallParams trxAck.ctl = 4 ∧
    trxAck.fifo.headD 0 &&& 0x0F = 0x0A ∧ trxFull.fifo = List.replicate 16 0x11 ∧
    State.Ready { small with port := { State.reset.port with
      answers := crcSeen.answers ++ trxAck.answers .transceive ++ (crcSeen.answers ++ trxAck.answers .transceive) ++
        (crcSeen.answers ++ trxFull.answers .transceive) ++ [] } } :=
  ⟨by decide, crcSeen_ok, trxAck_ok, trxFull_ok, by decide, by decide, by decide, by decide, by decide, rfl, ready_small _⟩
/-- SequencerFrames: an operation that completes and adds transfers, and a dump. -/
theorem witness_SequencerFrames : (∃ t new, exec (.read 63) authed = .next t ∧ t.outcome = .put .done ∧
      t.port.trace = new ++ authed.port.trace) ∧
    (∃ t new, exec (.dumpb (ints (zeros 6)) (ints (zeros 5))) selected = .next t ∧ t.outcome = .put .done ∧
      t.port.trace = new ++ selected.port.trace) :=
  ⟨⟨_, _, exec_complete ready_authed rfl, rfl, (List.append_nil _).symm⟩,
    ⟨_, _, exec_complete ⟨by decide, rfl⟩ rfl, rfl, (List.append_nil _).symm⟩⟩

/-- A state that meets the invariant and that reset is not: an authenticated block in the middle of an operation, its
response full. -/
def midOperation : State := { authed with
  phase := .busy .stopcrypto 1 [0x08]
  regs := { authed.regs with authBlk := .put 63, resp := .put (List.replicate 16 0xFF), respLen := .put 16, respBits := .put (-7) }
  work := { Work.reset with cnt := 2000, pollRemain := 2000, crcCnt := 255, crcRemain := 255 } }
theorem midOperation_regs : RegsOk midOperation.regs where
  respLength := rfl
  respLen := Nat.le_refl _
  respPad := rfl
  blkAddr := by decide
  authBlk := by decide
  authWritten := fun _ => rfl
  idLength := rfl
  idValid := fun h => by cases h
  blockOut := rfl
  dumpLength := rfl
  dumpSlots := by decide
  dumpZero := by decide
theorem midOperation_inv : midOperation.Inv where
  legal := by decide
  regs := midOperation_regs
  work := ⟨by decide, by decide, by decide, by decide⟩
  port := ⟨rfl, by simp [midOperation, authed, State.reset], by decide⟩
  phase := by
    intro i pos answers h
    cases h
    rfl
/-- StepKeepsInvariant, ConfigurationFixed: a step of that operation. -/
theorem witness_StepKeepsInvariant : midOperation.Inv ∧ ∃ t, step midOperation = .next t := ⟨midOperation_inv, ⟨_, rfl⟩⟩
/-- ViolationSticky: VIOLATION set, and the host offers something or nothing. -/
theorem witness_ViolationSticky : (∃ t, step polling = .next t) ∧ polling.violation = true ∧
    (∀ rest, polling.host ≠ .reset :: rest) := ⟨⟨_, rfl⟩, rfl, fun _ h => by cases h⟩
/-- SessionTransitions, ViolationDoesNotGate, RegistersDoNotSteerBus, TransportFailuresDoNotSteer, FailedTransfersCounted,
WritesOnlyItsRegisters: an operation that completes and one that is rejected. -/
theorem witness_WholeMachine : (∃ t, exec (.select (ints (zeros 5))) authed = .next t ∧ t.outcome = .put .done) ∧
    (∃ t, exec (.select []) authed = .next t ∧ t.outcome ≠ .put .done) :=
  ⟨⟨_, exec_complete ready_authed rfl, rfl⟩, ⟨_, exec_reject ready_authed rfl, by decide⟩⟩
/-- ViolationExactlyInItsCases: V1 to V4 at a state, and an operation that flags nothing there. -/
theorem witness_ViolationExactlyInItsCases : authed.Ready ∧ violationCase authed.cfg authed.regs .reqidl ∧
    violationCase authed.cfg authed.regs (.autha 0 key uid) ∧ violationCase authed.cfg authed.regs (.read 3) ∧
    violationCase State.reset.cfg State.reset.regs (.select [0, 0, 0, 0, 1]) ∧ ¬violationCase authed.cfg authed.regs (.read 2) ∧
    ∃ t, exec .reqidl authed = .next t := by
  refine ⟨ready_authed, rfl, .inl (by decide), .inr (.inl ⟨rfl, by decide⟩), .inr (by decide), ?_,
    ⟨_, exec_complete ready_authed rfl⟩⟩
  rintro (h | ⟨-, h⟩ | ⟨h, -⟩)
  · exact h rfl
  · exact h rfl
  · cases h
/-- SequencerTouchesOnlyItsRegisters: an operation that is no register operation. -/
theorem witness_SequencerTouchesOnlyItsRegisters : isRegisterOp .anticoll = false ∧
    ∃ t new, exec .anticoll State.reset = .next t ∧ t.port.trace = new ++ State.reset.port.trace :=
  ⟨rfl, _, _, exec_complete ready_reset rfl, (List.append_nil _).symm⟩

end Sys2Proof.Tests
end

section
/-! SUPPORT. What a step does with the host's next input, and how an operation in progress runs to its end among ticks and
offers (00_scope.md R9, R11; 10_state.md R22, R23; 60_exceptions.md R306). -/

namespace Sys2Proof.Machine

/-! ### Legal and illegal configurations (00_scope.md R11) -/

theorem guarded_legal {s : State} (h : paramsLegal s.cfg = true) (k : Host.Outcome State Fault Refusal) :
    guarded s k = k := by
  simp [guarded, h]

theorem guarded_illegal {s : State} (h : paramsLegal s.cfg = false) (k : Host.Outcome State Fault Refusal) :
    guarded s k = .refused .illegalConfig := by
  simp [guarded, h]

/-- The bounds of R11 hold in a legal configuration. -/
theorem bounds_of_legal {c : Params} (h : paramsLegal c = true) :
    1 ≤ c.pollLimit ∧ 1 ≤ c.crcPollLimit ∧ ∀ a ∈ sequencerRegs c, a ≤ c.regAddrMax := by
  simp only [paramsLegal, Bool.and_eq_true, decide_eq_true_eq] at h
  obtain ⟨⟨⟨-, hpoll⟩, hcrc⟩, hregs⟩ := h
  exact ⟨hpoll, hcrc, fun a ha => of_decide_eq_true (List.all_eq_true.1 hregs a ha)⟩

theorem offerOp_illegal {s : State} (h : paramsLegal s.cfg = false) (o : Offer) : offerOp o s = .refused .illegalConfig := by
  unfold offerOp
  cases readOffer o with
  | op i tail => exact (exec_eq i s).trans (runPlan_illegal h _)
  | reserved b => exact guarded_illegal h _
  | incomplete => exact guarded_illegal h _

theorem beginOffer_illegal {s : State} (h : paramsLegal s.cfg = false) (o : Offer) :
    beginOffer o s = .refused .illegalConfig := by
  unfold beginOffer
  cases readOffer o <;> exact guarded_illegal h _

theorem hostEvent_illegal {s : State} (h : paramsLegal s.cfg = false) (ev : HostEvent) :
    hostEvent ev s = .refused .illegalConfig := by
  cases ev with
  | offer o => exact offerOp_illegal h o
  | begin o => exact beginOffer_illegal h o
  | tick => exact guarded_illegal h _
  | reset => exact guarded_illegal h _
  | read r => exact guarded_illegal h _

/-! ### A step takes the host's next input -/

theorem step_event {s : State} {ev : HostEvent} {rest : List HostEvent} (h : s.host = ev :: rest) :
    step s = hostEvent ev { s with host := rest } := by
  simp [step, h]

/-- A block with an illegal configuration refuses every step, whatever the host does. -/
theorem step_illegal {s : State} (h : paramsLegal s.cfg = false) : step s = .refused .illegalConfig := by
  cases hh : s.host with
  | nil => rw [step_quiet hh]; exact guarded_illegal h _
  | cons ev rest => rw [step_event hh]; exact hostEvent_illegal (s := { s with host := rest }) h ev

/-- An offer that holds an operation is exec of it. -/
theorem offerOp_op {o : Offer} {i : Instr} {tail : List Byte} (h : readOffer o = .op i tail) (s : State) :
    offerOp o s = exec i s := by
  simp [offerOp, h]

/-- An offer to begin that holds an operation is beginOp of it. -/
theorem beginOffer_op {o : Offer} {i : Instr} {tail : List Byte} (h : readOffer o = .op i tail) (s : State) :
    beginOffer o s = beginOp i s := by
  simp [beginOffer, h]

theorem step_offer_op {s : State} {o : Offer} {i : Instr} {tail : List Byte} {rest : List HostEvent}
    (h : s.host = .offer o :: rest) (ho : readOffer o = .op i tail) : step s = exec i { s with host := rest } :=
  (step_event h).trans (offerOp_op ho _)

theorem step_begin_op {s : State} {o : Offer} {i : Instr} {tail : List Byte} {rest : List HostEvent}
    (h : s.host = .begin o :: rest) (ho : readOffer o = .op i tail) : step s = beginOp i { s with host := rest } :=
  (step_event h).trans (beginOffer_op ho _)

/-- With a tick, or with nothing from the host, a step is the next transfer of the operation in progress. -/
theorem step_advance {s : State} {rest : List HostEvent} (hl : paramsLegal s.cfg = true)
    (h : s.host = .tick :: rest ∨ (s.host = [] ∧ rest = [])) : step s = .next (advance { s with host := rest }) := by
  rcases h with h | ⟨h, rfl⟩
  · rw [step_event h]
    exact guarded_legal (s := { s with host := rest }) hl _
  · rw [step_quiet h, quietStep_legal hl, ← h]

/-- What `decodeTableWord` reads is at the front of the word's serial bytes. -/
theorem decode_of_decodeTableWord {nbits w : Nat} {i : Instr} (h : decodeTableWord nbits w = some i) :
    ∃ tail, decode (serialBytes nbits w) = .op i tail := by
  unfold decodeTableWord at h
  cases hd : decode (serialBytes nbits w) with
  | op j tail => rw [hd] at h; exact ⟨tail, by rw [Option.some.inj h]⟩
  | reserved b => rw [hd] at h; cases h
  | incomplete => rw [hd] at h; cases h

theorem step_withFetchWord {nbits w : Nat} {i : Instr} (s : State) (h : decodeTableWord nbits w = some i) :
    step (s.withFetchWord nbits w) = exec i s := by
  obtain ⟨tail, hd⟩ := decode_of_decodeTableWord h
  exact step_offer_op (s := s.withFetchWord nbits w) (o := .serial (serialBytes nbits w)) rfl hd

/-! ### Host inputs at BUSY (60_exceptions.md R306) -/

theorem eq_tick_of_isTick {ev : HostEvent} (h : ev.isTick = true) : ev = .tick := by
  cases ev with
  | tick => rfl
  | offer o | begin o | reset | read r => cases h

/-- The host inputs that offer something. -/
theorem offers_cases {ev : HostEvent} (h : ev.offers = true) :
    ∃ o, (ev = .offer o ∨ ev = .begin o) ∧ readOffer o ≠ .incomplete := by
  cases ev with
  | offer o => exact ⟨o, .inl rfl, of_decide_eq_true h⟩
  | begin o => exact ⟨o, .inr rfl, of_decide_eq_true h⟩
  | tick | reset | read r => cases h

theorem isTick_of_offers {ev : HostEvent} (h : ev.offers = true) : ev.isTick = false := by
  obtain ⟨o, rfl | rfl, -⟩ := offers_cases h <;> rfl

section Busy

variable {s : State} {op : Instr} {pos : Nat} {answers : List Byte}

theorem exec_busy (hl : paramsLegal s.cfg = true) (hp : s.phase = .busy op pos answers) (i : Instr) :
    exec i s = .next (rejectBusy s) := by
  rw [exec_legal hl, serve_busy hp]

theorem beginOp_busy (hl : paramsLegal s.cfg = true) (hp : s.phase = .busy op pos answers) (i : Instr) :
    beginOp i s = .next (rejectBusy s) := by
  simp [beginOp, guarded_legal hl, beginPlan, hp]

theorem rejectReserved_busy (hp : s.phase = .busy op pos answers) : rejectReserved s = rejectBusy s := by
  simp [rejectReserved, hp]

theorem offerOp_busy (hl : paramsLegal s.cfg = true) (hp : s.phase = .busy op pos answers) {o : Offer}
    (ho : readOffer o ≠ .incomplete) : offerOp o s = .next (rejectBusy s) := by
  unfold offerOp
  cases hd : readOffer o with
  | op i tail => exact exec_busy hl hp i
  | reserved b => simp [guarded_legal hl, rejectReserved_busy hp]
  | incomplete => exact absurd hd ho

theorem beginOffer_busy (hl : paramsLegal s.cfg = true) (hp : s.phase = .busy op pos answers) {o : Offer}
    (ho : readOffer o ≠ .incomplete) : beginOffer o s = .next (rejectBusy s) := by
  unfold beginOffer
  cases hd : readOffer o with
  | op i tail => exact beginOp_busy hl hp i
  | reserved b => simp [guarded_legal hl, rejectReserved_busy hp]
  | incomplete => exact absurd hd ho

/-- Whatever the host offers a BUSY block, whole or to begin, is rejected with E_BUSY. -/
theorem step_offers_busy {ev : HostEvent} {rest : List HostEvent} (hl : paramsLegal s.cfg = true)
    (hp : s.phase = .busy op pos answers) (hh : s.host = ev :: rest) (he : ev.offers = true) :
    step s = .next (rejectBusy { s with host := rest }) := by
  rw [step_event hh]
  obtain ⟨o, rfl | rfl, ho⟩ := offers_cases he
  · exact offerOp_busy (s := { s with host := rest }) hl hp ho
  · exact beginOffer_busy (s := { s with host := rest }) hl hp ho

end Busy

/-! ### An operation begun at a ready block -/

theorem beginOp_legal {s : State} (h : paramsLegal s.cfg = true) (i : Instr) :
    beginOp i s = .next (beginPlan i (planOf i s.cfg s.regs) s) := guarded_legal h _

theorem beginPlan_reject {s : State} (h : s.phase = .idle) {p : Plan} {code : RejectCode} (hr : p.reject = some code)
    (i : Instr) : beginPlan i p s = reject code s := by
  simp [beginPlan, h, hr]

theorem beginPlan_accept {s : State} (h : s.phase = .idle) {p : Plan} (hr : p.reject = none) (i : Instr) :
    beginPlan i p s = settleInto i 0 [] p.prog (flagViolation p.violates s) := by
  simp [beginPlan, h, hr]

/-- What the program of operation `i` leaves, run whole from `s`. -/
def wholeRun (i : Instr) (s : State) : Ran Regs := (planOf i s.cfg s.regs).prog.run s.cfg s.port s.work

/-- The state exec gives is the end state of `endOf`. -/
theorem complete_eq_endOf (i : Instr) (s : State) :
    complete (planOf i s.cfg s.regs) s = endOf (wholeRun i s) (flagViolation (planOf i s.cfg s.regs).violates s) := rfl

/-- An accepted operation, begun: it makes no transfer and is at its end at once, or the block waits before its first
transfer, and only VIOLATION, the working registers and PHASE have changed. -/
theorem begin_accepted {i : Instr} {s : State} (h : s.phase = .idle) (hr : (planOf i s.cfg s.regs).reject = none) :
    ((wholeRun i s).port.count - s.port.count = 0 ∧
      beginPlan i (planOf i s.cfg s.regs) s = complete (planOf i s.cfg s.regs) s) ∨
    ∃ w, beginPlan i (planOf i s.cfg s.regs) s =
        { flagViolation (planOf i s.cfg s.regs).violates s with work := w, phase := .busy i 0 [] } ∧
      Mid i s.cfg s.regs (wholeRun i s) (beginPlan i (planOf i s.cfg s.regs) s) 0 [] := by
  rw [beginPlan_accept h hr, complete_eq_endOf]
  rcases settle_mid (i := i) (v := flagViolation (planOf i s.cfg s.regs).violates s) rfl rfl rfl (reach_zero _)
    (rfl : _ = wholeRun i s) with ⟨hcount, heq⟩ | ⟨hmid, -, heq⟩
  · exact .inl ⟨Nat.sub_eq_zero_of_le (Nat.le_of_eq hcount.symm), heq⟩
  · exact .inr ⟨_, heq, hmid⟩

/-! ### Running the operation in progress to its end -/

theorem run_step {s s' : State} (h : step s = .next s') (k : Nat) :
    Host.Core.run Sys2Proof.core (k + 1) s = Host.Core.run Sys2Proof.core k s' := by
  have h' : Sys2Proof.core.step s = .next s' := h
  simp [Host.Core.run, h']

section Running

variable {i : Instr} {c : Params} {r : Regs} {F : Ran Regs} {v : State} {n : Nat} {vs : List Byte}

/-- E_BUSY leaves the operation in progress where it is. -/
theorem Mid.rejectBusy (h : Mid i c r F v n vs) (rest : List HostEvent) :
    Mid i c r F (rejectBusy { v with host := rest }) n vs := ⟨h.cfg, h.regs, h.phase, h.reach, h.run, h.left⟩

/-- A step that lets a transfer happen: it is the last and the operation ends, or the operation is one transfer on, with the
same end before it. -/
theorem mid_step {rest : List HostEvent} (h : Mid i c r F v n vs) (hl : paramsLegal c = true)
    (hh : v.host = .tick :: rest ∨ (v.host = [] ∧ rest = [])) :
    (v.port.count + 1 = F.port.count ∧ step v = .next (endOf F { v with host := rest })) ∨
    ∃ v' vs', step v = .next v' ∧ Mid i c r F v' (n + 1) vs' ∧ v'.port.count = v.port.count + 1 ∧ v'.host = rest ∧
      v'.violation = v.violation ∧ endOf F v' = endOf F { v with host := rest } := by
  rw [step_advance (h.cfg ▸ hl) hh]
  have hmid : Mid i c r F { v with host := rest } n vs := ⟨h.cfg, h.regs, h.phase, h.reach, h.run, h.left⟩
  rcases mid_advance hmid with ⟨hcount, hend⟩ | ⟨vs', hmid', hcount, hframe⟩
  · exact .inl ⟨hcount, by rw [hend]⟩
  · refine .inr ⟨_, vs', rfl, hmid', hcount, ?_⟩
    rw [hframe]
    exact ⟨rfl, rfl, rfl⟩

/-- Left to itself, the operation in progress is `m` transfers on after `m` steps. -/
theorem mid_run_middle (hl : paramsLegal c = true) (m : Nat) (h : Mid i c r F v n vs) (hh : v.host = [])
    (hm : m < F.port.count - v.port.count) :
    ∃ v' vs', Host.Core.run Sys2Proof.core m v = .next v' ∧ Mid i c r F v' (n + m) vs' ∧
      v'.port.count = v.port.count + m := by
  induction m generalizing v n vs with
  | zero => exact ⟨v, vs, rfl, h, rfl⟩
  | succ m ih =>
    rcases mid_step h hl (.inr ⟨hh, rfl⟩) with ⟨hlast, -⟩ | ⟨u, us, hstep, hmid, hcount, hhost, -, -⟩
    · omega
    · obtain ⟨v', vs', hrun, hmid', hcount'⟩ := ih hmid hhost (by omega)
      exact ⟨v', vs', by rw [run_step hstep, hrun], by rwa [Nat.add_right_comm] at hmid', by omega⟩

/-- Left to itself, the operation in progress ends with its last transfer. -/
theorem mid_run_end (hl : paramsLegal c = true) (h : Mid i c r F v n vs) (hh : v.host = []) :
    Host.Core.run Sys2Proof.core (F.port.count - v.port.count) v = .next (endOf F v) := by
  obtain ⟨k, hk⟩ : ∃ k, F.port.count - v.port.count = k := ⟨_, rfl⟩
  rw [hk]
  induction k generalizing v n vs with
  | zero => have := h.left; omega
  | succ k ih =>
    have hsame : ({ v with host := [] } : State) = v := by rw [← hh]
    rcases mid_step h hl (.inr ⟨hh, rfl⟩) with ⟨hlast, hstep⟩ | ⟨u, us, hstep, hmid, hcount, hhost, -, hend⟩
    · obtain rfl : k = 0 := by omega
      rw [run_step hstep, hsame]
      rfl
    · rw [run_step hstep, ih hmid hhost (by omega), hend, hsame]

/-- Among ticks and offers, as long as the ticks do not use up its transfers, the operation in progress runs to the same end:
the offers leave nothing but VIOLATION. -/
theorem mid_run_events (hl : paramsLegal c = true) {evs : List HostEvent} (h : Mid i c r F v n vs) (hh : v.host = evs)
    (hev : ∀ ev ∈ evs, ev.isTick = true ∨ ev.offers = true)
    (hticks : evs.countP HostEvent.isTick < F.port.count - v.port.count) :
    Host.Core.run Sys2Proof.core (evs.length + (F.port.count - v.port.count - evs.countP HostEvent.isTick)) v =
      .next { endOf F v with host := [], violation := v.violation || evs.any HostEvent.offers } := by
  induction evs generalizing v n vs with
  | nil => simpa [endOf, hh] using mid_run_end hl h hh
  | cons ev rest ih =>
    have hrest : ∀ ev ∈ rest, ev.isTick = true ∨ ev.offers = true := fun e he => hev e (List.mem_cons_of_mem _ he)
    rcases hev ev List.mem_cons_self with htick | hoff
    · obtain rfl := eq_tick_of_isTick htick
      rw [List.countP_cons_of_pos htick] at hticks ⊢
      rcases mid_step h hl (.inl hh) with ⟨hlast, -⟩ | ⟨u, us, hstep, hmid, hcount, hhost, hviol, hend⟩
      · omega
      · rw [List.length_cons, Nat.add_right_comm, run_step hstep,
          show F.port.count - v.port.count - (rest.countP HostEvent.isTick + 1) =
            F.port.count - u.port.count - rest.countP HostEvent.isTick by omega,
          ih hmid hhost hrest (by omega), hend, hviol]
        rfl
    · have hnot : ¬ ev.isTick = true := by simp [isTick_of_offers hoff]
      rw [List.countP_cons_of_neg hnot] at hticks ⊢
      have hstep := step_offers_busy (h.cfg ▸ hl) h.phase hh hoff
      have hih := ih (h.rejectBusy rest) rfl hrest hticks
      rw [List.length_cons, Nat.add_right_comm, run_step hstep]
      refine hih.trans ?_
      simp [endOf, hoff]

end Running

/-! ### The statements of 00_scope.md -/

/-- Settles O7: what breaks a bound is no legal configuration, and no step has a meaning in one that is not legal. -/
theorem illegalConfigRefused : Obligations.IllegalConfigRefused := by
  intro s hbad
  refine step_illegal (Bool.eq_false_iff.2 fun hl => ?_)
  obtain ⟨hpoll, hcrc, hregs⟩ := bounds_of_legal hl
  rcases hbad with h | h | ⟨a, ha, h⟩
  · omega
  · omega
  · exact absurd (hregs a ha) (Nat.not_le.2 h)

/-- Settles O5: one clause per host input, each the lemma about it. -/
theorem stepRunsOfferedOperation : Obligations.StepRunsOfferedOperation := by
  refine ⟨?_, ?_, ?_, ?_, ?_, ?_⟩
  · exact fun s bytes tail i rest hh hd => step_offer_op hh hd
  · exact fun s i rest hh => step_offer_op hh rfl
  · exact fun s bytes tail i rest hh hd => step_begin_op hh hd
  · exact fun s i rest hh => step_begin_op hh rfl
  · exact fun s rest hl hh => step_advance hl hh
  · exact fun s nbits w i h => step_withFetchWord s h

/-- Settles O12: rejected, at its end at once, or in its middle (`Mid`), from where the quiet runs are followed. -/
theorem transferStepsAgreeWithExec : Obligations.TransferStepsAgreeWithExec := by
  intro i s t hready hhost hexec
  obtain ⟨hl, hp⟩ := hready
  have hstep : step { s with host := [.begin (.text i)] } = .next (beginPlan i (planOf i s.cfg s.regs) s) := by
    rw [step_begin_op (tail := []) rfl rfl, ← beginOp_legal hl, ← hhost]
  refine ⟨_, hstep, ?_⟩
  cases hr : (planOf i s.cfg s.regs).reject with
  | some code =>
    cases hexec.symm.trans (exec_reject ⟨hl, hp⟩ hr)
    rw [beginPlan_reject hp hr]
    simp [Host.Core.run]
  | none =>
    cases hexec.symm.trans (exec_complete ⟨hl, hp⟩ hr)
    rcases begin_accepted hp hr with ⟨hnone, hend⟩ | ⟨w, hframe, hmid⟩
    · rw [hend, show (complete _ s).port.count - s.port.count = 0 from hnone]
      exact ⟨rfl, fun n hn => absurd hn (Nat.not_lt_zero n)⟩
    · have hport : (beginPlan i (planOf i s.cfg s.regs) s).port = s.port := by rw [hframe]; rfl
      have hquiet : (beginPlan i (planOf i s.cfg s.regs) s).host = [] := by rw [hframe]; exact hhost
      have hends : endOf (wholeRun i s) (beginPlan i (planOf i s.cfg s.regs) s) =
          complete (planOf i s.cfg s.regs) s := by rw [hframe]; rfl
      constructor
      · have hrun := mid_run_end hl hmid hquiet
        rwa [hport, hends] at hrun
      · intro n hn
        obtain ⟨v, vs, hrun, hv, hcount⟩ := mid_run_middle hl n hmid hquiet (by rwa [hport])
        exact ⟨v, vs, hrun, by simpa using hv.phase, hv.regs, by rw [hcount, hport]⟩

/-- Settles O60: an operation that makes a transfer is in its middle once begun, and `mid_run_events` follows it from there. -/
theorem operationContinuesAmongHostInputs : Obligations.OperationContinuesAmongHostInputs := by
  intro i s t evs hready hhost hexec hev hticks
  obtain ⟨hl, hp⟩ := hready
  have hstep : step s = .next (beginPlan i (planOf i s.cfg s.regs) { s with host := evs }) := by
    rw [step_begin_op (tail := []) hhost rfl]
    exact beginOp_legal (s := { s with host := evs }) hl i
  cases hr : (planOf i s.cfg s.regs).reject with
  | some code =>
    cases hexec.symm.trans (exec_reject (s := { s with host := [] }) ⟨hl, hp⟩ hr)
    simp at hticks
  | none =>
    cases hexec.symm.trans (exec_complete (s := { s with host := [] }) ⟨hl, hp⟩ hr)
    rcases begin_accepted (s := { s with host := evs }) hp hr with ⟨hnone, -⟩ | ⟨w, hframe, hmid⟩
    · exact absurd (hticks.trans_eq hnone) (Nat.not_lt_zero _)
    · rw [Nat.add_assoc, Nat.add_comm 1, run_step hstep]
      rw [hframe] at hmid ⊢
      exact mid_run_events hl hmid rfl hev hticks

end Sys2Proof.Machine
end

section
/-! SUPPORT. Everything a step can do (`step_moves`), what that leaves of the state, and the invariant: it holds after reset
and every step keeps it (10_state.md R24, R28, R29, R30, R33, R34, R36). -/

namespace Sys2Proof.Machine

/-! ### Everything a step can do -/

/-- What a block in state `s` can turn to in a step, the host's input taken off the queue, unless it is reset: it rejects an
offer, runs one whole, begins one, waits, makes the next transfer of the operation in progress, or answers a host read. -/
inductive Moves (s : State) : State → Prop where
  | rejectBusy : Moves s (rejectBusy s)
  | reject (code : RejectCode) : Moves s (reject code s)
  | whole (i : Instr) (accepted : (planOf i s.cfg s.regs).reject = none) : Moves s (complete (planOf i s.cfg s.regs) s)
  | begun (i : Instr) (accepted : (planOf i s.cfg s.regs).reject = none) :
      Moves s (settleInto i 0 [] (planOf i s.cfg s.regs).prog (flagViolation (planOf i s.cfg s.regs).violates s))
  | wait : Moves s s
  | transfer (i : Instr) (n : Nat) (vs : List Byte) (busy : s.phase = .busy i n vs) :
      Moves s (transferStep i n vs (remaining i n vs s) s)
  | hostRead (d : HostData) : Moves s { s with hostData := d }

theorem guarded_next {s t : State} {k : Host.Outcome State Fault Refusal} (h : guarded s k = .next t) : k = .next t := by
  unfold guarded at h
  split at h
  · exact h
  · cases h

theorem exec_moves {i : Instr} {s t : State} (h : exec i s = .next t) : Moves s t := by
  obtain ⟨-, rfl⟩ := exec_next h
  rcases serve_cases (planOf i s.cfg s.regs) s with ⟨op, n, vs, -, heq⟩ | ⟨code, -, -, heq⟩ | ⟨-, hr, heq⟩
  · exact heq ▸ .rejectBusy
  · exact heq ▸ .reject code
  · exact heq ▸ .whole i hr

theorem beginOp_moves {i : Instr} {s t : State} (h : beginOp i s = .next t) : Moves s t := by
  cases guarded_next h
  cases hp : s.phase with
  | busy op n vs => simpa [beginPlan, hp] using Moves.rejectBusy
  | idle =>
    cases hr : (planOf i s.cfg s.regs).reject with
    | some code => exact beginPlan_reject hp hr i ▸ .reject code
    | none => exact beginPlan_accept hp hr i ▸ .begun i hr

theorem rejectReserved_moves (s : State) : Moves s (rejectReserved s) := by
  unfold rejectReserved
  cases s.phase with
  | busy op n vs => exact .rejectBusy
  | idle => exact .reject _

theorem offerOp_moves {o : Offer} {s t : State} (h : offerOp o s = .next t) : Moves s t := by
  unfold offerOp at h
  cases ho : readOffer o with
  | op i tail => rw [ho] at h; exact exec_moves h
  | reserved b => rw [ho] at h; cases guarded_next h; exact rejectReserved_moves s
  | incomplete => rw [ho] at h; cases guarded_next h

theorem beginOffer_moves {o : Offer} {s t : State} (h : beginOffer o s = .next t) : Moves s t := by
  unfold beginOffer at h
  cases ho : readOffer o with
  | op i tail => rw [ho] at h; exact beginOp_moves h
  | reserved b => rw [ho] at h; cases guarded_next h; exact rejectReserved_moves s
  | incomplete => rw [ho] at h; cases guarded_next h

theorem advance_moves (s : State) : Moves s (advance s) := by
  cases hp : s.phase with
  | idle => exact (advance_idle hp).symm ▸ .wait
  | busy i n vs => exact advance_busy hp ▸ .transfer i n vs hp

theorem hostRead_idle {s : State} (h : s.phase = .idle) (r : ResultReg) :
    hostRead r s = if resultWritten r s then .next { s with hostData := resultValue r s } else .fault (.unwrittenRead r) := by
  simp [hostRead, h]

theorem hostRead_busy {s : State} (h : s.phase ≠ .idle) (r : ResultReg) : hostRead r s = .fault (.readWhileBusy r) := by
  cases hp : s.phase with
  | idle => exact absurd hp h
  | busy op n vs => simp [hostRead, hp]

theorem hostRead_moves {r : ResultReg} {s t : State} (h : hostRead r s = .next t) : Moves s t := by
  by_cases hp : s.phase = .idle
  · rw [hostRead_idle hp] at h
    split at h
    · cases h; exact .hostRead _
    · cases h
  · rw [hostRead_busy hp] at h; cases h

theorem hostEvent_moves {ev : HostEvent} {s t : State} (h : hostEvent ev s = .next t) :
    ev = .reset ∧ t = resetBlock s ∨ Moves s t := by
  cases ev with
  | offer o => exact .inr (offerOp_moves h)
  | begin o => exact .inr (beginOffer_moves h)
  | tick => cases guarded_next h; exact .inr (advance_moves s)
  | reset => cases guarded_next h; exact .inl ⟨rfl, rfl⟩
  | read r => exact .inr (hostRead_moves (guarded_next h))

/-- Everything a step can do: the host resets the block, or it moves, the host's input taken. -/
theorem step_moves {s t : State} (h : step s = .next t) :
    ∃ rest, s.host = .reset :: rest ∧ t = resetBlock { s with host := rest } ∨ Moves { s with host := rest } t := by
  cases hh : s.host with
  | nil =>
    rw [step_quiet hh] at h
    cases guarded_next h
    exact ⟨[], .inr (hh ▸ advance_moves s)⟩
  | cons ev rest =>
    rw [step_event hh] at h
    exact ⟨rest, (hostEvent_moves h).imp (fun ⟨hev, ht⟩ => ⟨by rw [hev], ht⟩) id⟩

/-! ### What one transfer leaves unchanged -/

section Settled

variable (i : Instr) (n : Nat) (vs : List Byte) (x : Prog Regs) (s : State)

@[simp] theorem settleInto_cfg : (settleInto i n vs x s).cfg = s.cfg := by
  rcases settleInto_cases i n vs x s with ⟨r, -, h⟩ | h <;> simp [h]

@[simp] theorem settleInto_violation : (settleInto i n vs x s).violation = s.violation := by
  rcases settleInto_cases i n vs x s with ⟨r, -, h⟩ | h <;> simp [h]

@[simp] theorem transferStep_cfg : (transferStep i n vs x s).cfg = s.cfg := by
  cases x <;> simp [transferStep]

@[simp] theorem transferStep_violation : (transferStep i n vs x s).violation = s.violation := by
  cases x <;> simp [transferStep]

@[simp] theorem complete_cfg (p : Plan) : (complete p s).cfg = s.cfg := rfl

@[simp] theorem complete_violation (p : Plan) : (complete p s).violation = (s.violation || p.violates) := rfl

end Settled

theorem Moves.cfg {s t : State} (h : Moves s t) : t.cfg = s.cfg := by
  cases h <;> simp

theorem Moves.violation {s t : State} (h : Moves s t) (hv : s.violation = true) : t.violation = true := by
  cases h <;> simp [hv]

/-! ### Every move keeps the invariant -/

/-- The invariant speaks of these fields alone. -/
theorem State.Inv.of_same {s t : State} (h : s.Inv) (hc : t.cfg = s.cfg) (hr : t.regs = s.regs) (hw : t.work = s.work)
    (hport : t.port = s.port) (hp : t.phase = s.phase) : t.Inv where
  legal := hc ▸ h.legal
  regs := hr ▸ h.regs
  work := hc ▸ hw ▸ h.work
  port := hc ▸ hport ▸ h.port
  phase := fun i n vs hb => hc ▸ hr ▸ h.phase i n vs (hp ▸ hb)

/-- At IDLE no operation is in progress. -/
theorem phaseOk_idle {s : State} (h : s.phase = .idle) : PhaseOk s := fun i n vs hb => by rw [h] at hb; cases hb

/-- A run's transfers are counted and in the wire form, and XFER_FAILS grows by no more than the failed ones. -/
theorem PortStep.portOk {c : Params} {p q : Port} (h : PortStep c p q) (hp : PortOk c p) : PortOk c q := by
  obtain ⟨new, htrace, hcount, hfails, hwire⟩ := h.out
  refine ⟨?_, ?_, ?_⟩
  · rw [hcount, htrace, hp.count, List.length_append, Nat.add_comm]
  · intro x hx
    rw [htrace] at hx
    exact (List.mem_append.1 hx).elim (hwire x) (hp.wire x)
  · rw [hfails, htrace, List.countP_append]
    have := hp.fails
    omega

/-- An operation that ends in registers with their shapes. -/
theorem finish_inv {s : State} (hl : paramsLegal s.cfg = true) (hw : WorkOk s.cfg s.work) (hport : PortOk s.cfg s.port)
    {r : Regs} (hr : RegsOk r) : (finish r s).Inv := ⟨hl, hr, hw, hport, phaseOk_idle rfl⟩

/-- Settling into what is left of an accepted operation. -/
theorem settleInto_inv {i : Instr} {s : State} {x : Prog Regs} (hl : paramsLegal s.cfg = true) (hr : RegsOk s.regs)
    (hw : WorkOk s.cfg s.work) (hport : PortOk s.cfg s.port) (hi : (planOf i s.cfg s.regs).reject = none)
    (hends : x.Ends RegsOk) (hkeeps : x.Keeps (WorkOk s.cfg)) (n : Nat) (vs : List Byte) :
    (settleInto i n vs x s).Inv := by
  have hwork : WorkOk s.cfg (x.settle s.work).2 := settle_keeps hkeeps hw
  have hend : (x.settle s.work).1.Ends RegsOk := settle_ends hends s.work
  rcases settleInto_cases i n vs x s with ⟨r, hdone, heq⟩ | heq
  · rw [heq]
    rw [hdone] at hend
    exact finish_inv (s := { s with work := (x.settle s.work).2 }) hl hwork hport hend
  · rw [heq]
    exact ⟨hl, hr, hwork, hport, fun j m us hb => by cases hb; exact hi⟩

/-- One transfer of what is left of an accepted operation. -/
theorem transferStep_inv {i : Instr} {s : State} {x : Prog Regs} (h : s.Inv) (hi : (planOf i s.cfg s.regs).reject = none)
    (hends : x.Ends RegsOk) (hkeeps : x.Keeps (WorkOk s.cfg)) (n : Nat) (vs : List Byte) :
    (transferStep i n vs x s).Inv := by
  cases x with
  | done r => exact finish_inv h.legal h.work h.port hends
  | read st a k =>
    exact settleInto_inv (s := { s with port := portRead s.cfg st a s.port }) (x := k _) h.legal h.regs h.work
      ((portStep_read ..).portOk h.port) hi (hends _) (hkeeps _) _ _
  | write st a v k =>
    exact settleInto_inv (s := { s with port := portWrite s.cfg st a v s.port }) (x := k) h.legal h.regs h.work
      ((portStep_write ..).portOk h.port) hi hends hkeeps _ _
  | work f k =>
    exact settleInto_inv (s := { s with work := f s.work }) (x := k) h.legal h.regs
      (hkeeps.1 _ h.work) h.port hi hends hkeeps.2 _ _

/-- An accepted operation run whole. -/
theorem complete_inv {i : Instr} {s : State} (h : s.Inv) (hi : (planOf i s.cfg s.regs).reject = none) :
    (complete (planOf i s.cfg s.regs) s).Inv :=
  finish_inv (s := flagViolation _ { s with port := _, work := _ }) h.legal (keeps_run (plan_keeps i) _ _ h.work)
    ((run_port ..).portOk h.port) (ends_run (plan_ends (source_of_legal h.legal) h.regs hi) ..)

theorem Moves.inv {s t : State} (hm : Moves s t) (h : s.Inv) : t.Inv := by
  have hs := source_of_legal h.legal
  cases hm with
  | rejectBusy => exact h.of_same rfl rfl rfl rfl rfl
  | reject code => exact h.of_same rfl rfl rfl rfl rfl
  | whole i hi => exact complete_inv h hi
  | begun i hi =>
    exact settleInto_inv (s := flagViolation _ s) h.legal h.regs h.work h.port hi (plan_ends hs h.regs hi) (plan_keeps i) 0 []
  | wait => exact h
  | transfer i n vs hb =>
    have hi := h.phase i n vs hb
    exact transferStep_inv h hi (ends_replay (plan_ends hs h.regs hi) n vs) (keeps_replay (plan_keeps i) n vs) n vs
  | hostRead d => exact h.of_same rfl rfl rfl rfl rfl

/-! ### Reset -/

theorem dumpSlot_reset {b : Nat} (hb : b < 64) : Regs.reset.dumpOut.value.getD b [] = zeros 16 :=
  List.getD_replicate (x := zeros 16) hb

/-- The values beside the unwritten marks have the shapes too (log 9, log 10). -/
theorem regsOk_reset : RegsOk Regs.reset where
  respLength := zeros_length 16
  respLen := Nat.zero_le 16
  respPad := rfl
  blkAddr := by decide
  authBlk := by decide
  authWritten := fun h => by cases h
  idLength := zeros_length 5
  idValid := fun h => by cases h
  blockOut := zeros_length 16
  dumpLength := List.length_replicate
  dumpSlots := fun b hb => by rw [dumpSlot_reset hb, zeros_length]
  dumpZero := fun b hb _ => dumpSlot_reset hb

theorem workOk_reset (c : Params) : WorkOk c Work.reset :=
  ⟨Nat.zero_le _, Nat.zero_le _, Nat.zero_le _, Nat.zero_le _⟩

/-- A reset forgets the failures counted and keeps the trace (70_reset_and_hazards.md R340, log 19). -/
theorem resetBlock_inv {s : State} (h : s.Inv) : (resetBlock s).Inv where
  legal := h.legal
  regs := regsOk_reset
  work := workOk_reset s.cfg
  port := ⟨h.port.count, h.port.wire, Nat.zero_le _⟩
  phase := phaseOk_idle rfl

/-! ### The statements about every step -/

/-- Settles O48: each part of the invariant holds of the values at reset. -/
theorem resetMeetsInvariant : Obligations.ResetMeetsInvariant where
  legal := by decide
  regs := regsOk_reset
  work := workOk_reset _
  port := ⟨rfl, fun x hx => (List.not_mem_nil hx).elim, Nat.zero_le _⟩
  phase := phaseOk_idle rfl

/-- Settles O49: a reset and every other move keep the invariant. -/
theorem stepKeepsInvariant : Obligations.StepKeepsInvariant := by
  intro s t h hstep
  obtain ⟨rest, ⟨-, rfl⟩ | hm⟩ := step_moves hstep
  · exact resetBlock_inv (h.of_same (t := { s with host := rest }) rfl rfl rfl rfl rfl)
  · exact hm.inv (h.of_same rfl rfl rfl rfl rfl)

/-- Settles O50: a reset and every other move leave the configuration. -/
theorem configurationFixed : Obligations.ConfigurationFixed := by
  intro s t hstep
  obtain ⟨rest, ⟨-, rfl⟩ | hm⟩ := step_moves hstep
  · rfl
  · exact hm.cfg

/-- Settles O53: no move but a reset clears VIOLATION. -/
theorem violationSticky : Obligations.ViolationSticky := by
  intro s t hstep hv hnot
  obtain ⟨rest, ⟨hreset, -⟩ | hm⟩ := step_moves hstep
  · exact absurd hreset (hnot rest)
  · exact hm.violation hv

/-! ### The statements about the host's inputs -/

/-- Settles O6: every way to offer something to a BUSY block is `rejectBusy`. -/
theorem busyOfferRejected : Obligations.BusyOfferRejected := by
  intro s op pos answers hl hp
  refine ⟨fun i => ⟨exec_busy hl hp i, beginOp_busy hl hp i⟩, fun o rest hh ho => ?_⟩
  rcases hh with hh | hh
  · exact step_offers_busy hl hp hh (decide_eq_true ho)
  · exact step_offers_busy hl hp hh (decide_eq_true ho)

theorem step_read {s : State} {r : ResultReg} {rest : List HostEvent} (hl : paramsLegal s.cfg = true)
    (hh : s.host = .read r :: rest) : step s = hostRead r { s with host := rest } :=
  (step_event hh).trans (guarded_legal (s := { s with host := rest }) hl _)

theorem resultWritten_host (s : State) (h : List HostEvent) (r : ResultReg) :
    resultWritten r { s with host := h } = resultWritten r s := by cases r <;> rfl

theorem resultValue_host (s : State) (h : List HostEvent) (r : ResultReg) :
    resultValue r { s with host := h } = resultValue r s := by cases r <;> rfl

/-- Settles O8: the step is `hostRead`, and the queue is no part of what it reads. -/
theorem hostReadFaultsOrReturns : Obligations.HostReadFaultsOrReturns := by
  intro s r rest hl hh
  rw [step_read hl hh]
  refine ⟨fun hp => ?_, fun hp => hostRead_busy (s := { s with host := rest }) hp r⟩
  rw [hostRead_idle (s := { s with host := rest }) hp, resultWritten_host, resultValue_host]

/-- No result register is written at reset (10_state.md R36). -/
theorem resultWritten_reset (r : ResultReg) : resultWritten r State.reset = false := by cases r <;> rfl

/-- Settles O9: the reset row field by field, and a read of a register that reset leaves unwritten. -/
theorem stateAfterReset : Obligations.StateAfterReset := by
  refine ⟨rfl, rfl, rfl, rfl, rfl, fun r => ?_⟩
  have hl : paramsLegal Config.defaultParams = true := by decide
  have hread := (hostReadFaultsOrReturns { State.reset with host := [.read r] } r [] hl rfl).1 rfl
  rwa [resultWritten_host, resultWritten_reset] at hread

end Sys2Proof.Machine
end

section
/-! SUPPORT. What an operation run whole depends on and what it leaves unchanged: VIOLATION changes only itself, the registers
change no transfer, transfers are added and counted, and each result register is written only by the operations of its row
(10_state.md R24, R26, R28, R31, R32). -/

namespace Sys2Proof.Machine

/-! ### VIOLATION -/

/-- Serving a plan reads VIOLATION only to set it. -/
theorem serve_violation (p : Plan) (s : State) (v : Bool) :
    ∃ v', serve p { s with violation := v } = { serve p s with violation := v' } := by
  rcases serve_cases p s with ⟨op, n, vs, hp, heq⟩ | ⟨code, hp, hr, heq⟩ | ⟨hp, hr, heq⟩
  · exact ⟨true, by rw [heq, serve_busy (s := { s with violation := v }) hp]; rfl⟩
  · exact ⟨v, by rw [heq, serve_reject (s := { s with violation := v }) hp hr]; rfl⟩
  · exact ⟨v || p.violates, by rw [heq, serve_complete (s := { s with violation := v }) hp hr]; rfl⟩

/-- Settles O54: the plan is the same, and serving it changes VIOLATION alone. -/
theorem violationDoesNotGate : Obligations.ViolationDoesNotGate := by
  intro i s t v h
  obtain ⟨hl, rfl⟩ := exec_next h
  obtain ⟨v', hv⟩ := serve_violation (planOf i s.cfg s.regs) s v
  exact ⟨_, exec_legal (s := { s with violation := v }) hl i, by rw [hv]⟩

/-! ### The registers steer no transfer -/

/-- The transfers and working-register updates of a program, without the value it ends in. -/
def Prog.steps {α : Type} (x : Prog α) : Prog Unit := x.bind fun _ => .done ()

/-- Programs with the same steps leave the same bus interface and working registers. -/
theorem run_of_steps {α β : Type} {x : Prog α} {y : Prog β} (h : x.steps = y.steps) (c : Params) (p : Port) (w : Work) :
    (x.run c p w).port = (y.run c p w).port ∧ (x.run c p w).work = (y.run c p w).work := by
  have hrun := congrArg (fun z => z.run c p w) h
  simp only [Prog.steps, run_bind, run_done, Ran.mk.injEq] at hrun
  exact ⟨hrun.1, hrun.2.1⟩

/-- A sequence has the steps of another whose second part has, whatever the first ends in. -/
theorem steps_bind_congr {α β γ : Type} (x : Prog α) {f : α → Prog β} {g : α → Prog γ} (h : ∀ a, (f a).steps = (g a).steps) :
    (x.bind f).steps = (x.bind g).steps := by
  have hfg : (fun a => (f a).steps) = fun a => (g a).steps := funext h
  exact (bind_assoc x f _).trans ((congrArg x.bind hfg).trans (bind_assoc x g _).symm)

/-- What is made of the value a program ends in does not matter to its steps. -/
theorem steps_bind_done {α β : Type} (x : Prog α) (f : α → β) : (x.bind fun a => .done (f a)).steps = x.steps :=
  bind_assoc x _ _

section Steps

variable {c : Params} (r r' : Regs)

theorem steps_authCore (mode : Byte) (blk : Nat) (key uid : List Byte) :
    (authCore c mode blk key uid r).steps = (authCore c mode blk key uid r').steps :=
  steps_bind_congr _ fun _ => steps_bind_congr _ fun _ => rfl

theorem steps_authProg (mode : Byte) (blk : Int) (key uid : List Int) :
    (authProg c mode blk key uid r).steps = (authProg c mode blk key uid r').steps :=
  (steps_bind_done ..).trans ((steps_authCore r r' ..).trans (steps_bind_done ..).symm)

theorem steps_readCore (blk : Nat) : (readCore c blk r).steps = (readCore c blk r').steps :=
  steps_bind_congr _ fun _ => steps_bind_congr _ fun _ => rfl

theorem steps_writeProg (blk : Nat) (data : List Byte) : (writeProg c blk data r).steps = (writeProg c blk data r').steps := by
  refine steps_bind_congr _ fun d1 => ?_
  split
  · exact steps_bind_congr _ fun _ => rfl
  · rfl

/-- An iteration of a dump's loop goes by the answers alone, not by what the iterations before it left. -/
theorem steps_dumpBlocks (mode : Byte) (key uid : List Byte) (bs : List Nat) (acc acc' : DumpAcc) :
    (dumpBlocks c mode key uid bs acc).steps = (dumpBlocks c mode key uid bs acc').steps := by
  induction bs generalizing acc acc' with
  | nil => rfl
  | cons b bs ih =>
    simp only [dumpBlocks, authCore, readCore, bind_assoc, bind_done]
    refine steps_bind_congr _ fun d => steps_bind_congr _ fun s2 => ?_
    split
    · exact steps_bind_congr _ fun frame => steps_bind_congr _ fun d' => ih _ _
    · exact ih _ _

theorem steps_dumpProg (mode : Byte) (key uid : List Int) :
    (dumpProg c mode key uid r).steps = (dumpProg c mode key uid r').steps :=
  (steps_bind_done ..).trans ((steps_dumpBlocks ..).trans (steps_bind_done ..).symm)

/-- The steps of an operation are the same from any registers (10_state.md R26, R31). -/
theorem steps_planOf (i : Instr) : (planOf i c r).prog.steps = (planOf i c r').prog.steps := by
  cases i with
  | rdreg | wrreg | setbits | clrbits | mkaddr | mkuid | mkkey | mkdata | stopcrypto => rfl
  | calccrc buf => exact steps_bind_congr _ fun _ => rfl
  | exec cmd out => exact steps_bind_congr _ fun _ => rfl
  | reqidl => exact steps_bind_congr _ fun _ => steps_bind_congr _ fun _ => rfl
  | reqall => exact steps_bind_congr _ fun _ => steps_bind_congr _ fun _ => rfl
  | anticoll => exact steps_bind_congr _ fun _ => steps_bind_congr _ fun _ => rfl
  | select uid => exact steps_bind_congr _ fun _ => steps_bind_congr _ fun _ => rfl
  | autha blk key uid => exact steps_authProg r r' ..
  | authb blk key uid => exact steps_authProg r r' ..
  | read blk => exact (steps_bind_done ..).trans ((steps_readCore r r' _).trans (steps_bind_done ..).symm)
  | write blk data => exact steps_writeProg r r' ..
  | dumpa key uid => exact steps_dumpProg r r' ..
  | dumpb key uid => exact steps_dumpProg r r' ..

end Steps

/-- Settles O55: rejected or not whatever the registers are, and the same steps if not. -/
theorem registersDoNotSteerBus : Obligations.RegistersDoNotSteerBus := by
  intro i s t r h
  obtain ⟨hl, rfl⟩ := exec_next h
  refine ⟨_, exec_legal (s := { s with regs := r }) hl i, ?_⟩
  have hreject := planOf_reject_regs i s.cfg r s.regs
  rcases serve_cases (planOf i s.cfg s.regs) s with ⟨op, n, vs, hp, heq⟩ | ⟨code, hp, hr, heq⟩ | ⟨hp, hr, heq⟩
  · rw [heq, serve_busy (s := { s with regs := r }) hp]
    exact ⟨rfl, rfl, rfl⟩
  · rw [heq, serve_reject (s := { s with regs := r }) hp (hreject.trans hr)]
    exact ⟨rfl, rfl, rfl⟩
  · rw [heq, serve_complete (s := { s with regs := r }) hp (hreject.trans hr)]
    obtain ⟨hport, hwork⟩ := run_of_steps (steps_planOf r s.regs i) s.cfg s.port s.work
    exact ⟨hport, hwork, rfl⟩

/-! ### Transfers are added to the bus and counted -/

/-- What serving a plan does to the bus interface is what a run does (41_register_port.md R144). -/
theorem serve_port (p : Plan) (s : State) : PortStep s.cfg s.port (serve p s).port := by
  rcases serve_cases p s with ⟨op, n, vs, -, heq⟩ | ⟨code, -, -, heq⟩ | ⟨-, -, heq⟩
  · rw [heq]; exact .refl ..
  · rw [heq]; exact .refl ..
  · rw [heq]; exact run_port ..

/-- Settles O57: the new transfers are those of the run. -/
theorem failedTransfersCounted : Obligations.FailedTransfersCounted := by
  intro i s t h
  obtain ⟨-, rfl⟩ := exec_next h
  exact (serve_port _ s).out

/-! ### Each result register is written by the operations of its row (10_state.md R24) -/

/-- The registers `r` with SESSION, AUTH_BLK and the result registers of the row `W` taken from `r'`. -/
def Regs.withRow (W : ResultReg → Bool) (r r' : Regs) : Regs where
  session  := r'.session
  authBlk  := r'.authBlk
  status   := if W .status then r'.status else r.status
  resp     := if W .resp then r'.resp else r.resp
  respLen  := if W .respLen then r'.respLen else r.respLen
  respBits := if W .respBits then r'.respBits else r.respBits
  regVal   := if W .regVal then r'.regVal else r.regVal
  crcBuf   := if W .crcBuf then r'.crcBuf else r.crcBuf
  blkAddr  := if W .blkAddr then r'.blkAddr else r.blkAddr
  id       := if W .id then r'.id else r.id
  idValid  := if W .idValid then r'.idValid else r.idValid
  sak      := if W .sak then r'.sak else r.sak
  blockOut := if W .blockOut then r'.blockOut else r.blockOut
  dumpOut  := if W .dumpOut then r'.dumpOut else r.dumpOut
  dumpMask := if W .dumpMask then r'.dumpMask else r.dumpMask

/-- From `r` to `r'` no result register outside the row `W` changes. -/
def Within (W : ResultReg → Bool) (r r' : Regs) : Prop := r' = r.withRow W r'

/-- A result register outside the row reads as before. -/
theorem Within.reads {W : ResultReg → Bool} {s t : State} (h : Within W s.regs t.regs) {q : ResultReg} (hq : W q = false)
    (ho : q ≠ .outcome) : resultValue q t = resultValue q s ∧ resultWritten q t = resultWritten q s := by
  unfold resultValue resultWritten
  rw [h]
  cases q with
  | outcome => exact absurd rfl ho
  | _ => simp [Regs.withRow, hq]

/-- What a dispatch and the status drawn from it write (10_state.md R24). -/
def dispatchRow : ResultReg → Bool
  | .status | .resp | .respLen | .respBits => true
  | _ => false

section Rows

variable {c : Params} {r : Regs}

theorem Within.refl (W : ResultReg → Bool) (r : Regs) : Within W r r := by simp [Within, Regs.withRow]

theorem Within.trans {W : ResultReg → Bool} {r r' r'' : Regs} (h : Within W r r') (k : Within W r' r'') : Within W r r'' := by
  unfold Within at *
  rw [k, h]
  simp +contextual [Regs.withRow]

theorem authCore_within (mode : Byte) (blk : Nat) (key uid : List Byte) (r : Regs) :
    (authCore c mode blk key uid r).Ends fun x => Within dispatchRow r x.2 :=
  ends_bind_any fun d => ends_bind_any fun s2 => by
    show Within dispatchRow r (putAuth blk _ _)
    unfold putAuth
    split <;> rfl

theorem readCore_within (blk : Nat) (r : Regs) : (readCore c blk r).Ends fun x => Within dispatchRow r x.2.2 :=
  ends_bind_any fun frame => ends_bind_any fun d => by
    show Within dispatchRow r (if _ then _ else _ : Status × List Byte × Regs).2.2
    split <;> rfl

theorem dumpBlocks_within (mode : Byte) (key uid : List Byte) (bs : List Nat) {acc : DumpAcc}
    (h : Within dispatchRow r acc.regs) :
    (dumpBlocks c mode key uid bs acc).Ends fun x => Within dispatchRow r x.regs := by
  induction bs generalizing acc with
  | nil => exact h
  | cons b bs ih =>
    refine ends_bind (authCore_within mode b key uid acc.regs) fun a ha => ?_
    split
    · refine ends_bind (readCore_within b a.2) fun x hx => ih ?_
      have := (h.trans ha).trans hx
      unfold dumpPut
      split <;> exact this
    · exact ih (h.trans ha)

/-- What is written after the dispatches: `f` stays in the row `W` if it does where the dispatches have changed their row. -/
theorem Within.after_dispatch {W : ResultReg → Bool} {r' : Regs} (h : Within dispatchRow r r') (f : Regs → Regs)
    (hf : Within W r (f (r.withRow dispatchRow r'))) : Within W r (f r') := by
  rwa [← show r' = r.withRow dispatchRow r' from h] at hf

theorem authProg_within (mode : Byte) (blk : Int) (key uid : List Int) :
    (authProg c mode blk key uid r).Ends (Within dispatchRow r) :=
  ends_bind (authCore_within ..) fun x hx => hx.after_dispatch (fun r' => { r' with status := .put x.1 }) rfl

/-- Every operation ends in registers changed only in its row. -/
theorem plan_within (i : Instr) : (planOf i c r).prog.Ends (Within (mayWrite i) r) := by
  cases i with
  | rdreg a => exact ends_bind_any fun _ => rfl
  | wrreg a v => exact ends_bind_any fun _ => rfl
  | setbits a m => exact ends_bind_any fun _ => rfl
  | clrbits a m => exact ends_bind_any fun _ => rfl
  | calccrc buf => exact ends_bind_any fun _ => rfl
  | exec cmd out => exact ends_bind_any fun _ => rfl
  | mkaddr n k => rfl
  | mkuid uid => rfl
  | mkkey key => rfl
  | mkdata data => rfl
  | reqidl => exact ends_bind_any fun _ => ends_bind_any fun _ => rfl
  | reqall => exact ends_bind_any fun _ => ends_bind_any fun _ => rfl
  | anticoll => exact ends_bind_any fun _ => ends_bind_any fun _ => rfl
  | select uid => exact ends_bind_any fun _ => ends_bind_any fun _ => rfl
  | autha blk key uid => exact ends_mono (authProg_within ..) fun _ h => h.after_dispatch id rfl
  | authb blk key uid => exact ends_mono (authProg_within ..) fun _ h => h.after_dispatch id rfl
  | read blk => exact ends_bind (readCore_within _ r) fun x hx =>
      hx.after_dispatch (fun r' => { r' with status := .put x.1, blockOut := .put x.2.1 }) rfl
  | write blk data =>
    refine ends_bind_any fun d1 => ?_
    split
    · exact ends_bind_any fun _ => rfl
    · rfl
  | stopcrypto => exact ends_bind_any fun _ => rfl
  | dumpa key uid =>
    exact ends_bind (dumpBlocks_within _ _ _ _ rfl) fun acc h => h.after_dispatch
      (fun r' => { r' with dumpOut := .put acc.out, dumpMask := .put acc.mask, status := .put .ok }) rfl
  | dumpb key uid =>
    exact ends_bind (dumpBlocks_within _ _ _ _ rfl) fun acc h => h.after_dispatch
      (fun r' => { r' with dumpOut := .put acc.out, dumpMask := .put acc.mask, status := .put .ok }) rfl

end Rows

/-- No operation changes the configuration, the host's pending inputs or what it has read. -/
theorem serve_env (p : Plan) (s : State) :
    (serve p s).cfg = s.cfg ∧ (serve p s).host = s.host ∧ (serve p s).hostData = s.hostData := by
  rcases serve_cases p s with ⟨op, n, vs, -, heq⟩ | ⟨code, -, -, heq⟩ | ⟨-, -, heq⟩
  · rw [heq]; exact ⟨rfl, rfl, rfl⟩
  · rw [heq]; exact ⟨rfl, rfl, rfl⟩
  · rw [heq]; exact ⟨rfl, rfl, rfl⟩

/-- Serving an operation's plan changes registers only in its row. -/
theorem serve_within (i : Instr) (s : State) : Within (mayWrite i) s.regs (serve (planOf i s.cfg s.regs) s).regs := by
  rcases serve_cases (planOf i s.cfg s.regs) s with ⟨op, n, vs, -, heq⟩ | ⟨code, -, -, heq⟩ | ⟨-, -, heq⟩
  · rw [heq]; exact .refl ..
  · rw [heq]; exact .refl ..
  · rw [heq]; exact ends_run (plan_within i) ..

theorem mayWrite_outcome (i : Instr) : mayWrite i .outcome = true := by cases i <;> rfl

/-- Settles O59: what is outside the row reads as before, and OUTCOME is in every row. -/
theorem writesOnlyItsRegisters : Obligations.WritesOnlyItsRegisters := by
  intro i s t h
  obtain ⟨-, rfl⟩ := exec_next h
  refine ⟨fun q hq => (serve_within i s).reads hq ?_, serve_env _ s⟩
  rintro rfl
  rw [mayWrite_outcome] at hq
  cases hq

end Sys2Proof.Machine
end

section
/-! SUPPORT. A dump against a chip that answers block by block as scripted (45_access.md R290): what one block leaves
(`blockEnd`), that the dump's loop is one block after another (`says_dumpBlocks`), and what stands in the slots, the mask and
the registers after all of them. -/

namespace Sys2Proof.Machine

variable {c : Params} {b : BlockScript}

/-! ### One block -/

/-- A scripted dispatch answers a reply of the shape of every dispatch (10_state.md R24). -/
theorem endReply_ok (hs : c.source = {}) {kd : Kind} {x : DispatchScript} {cmd : Byte} (hk : selectKind c cmd = kd)
    (h : x.Runs c kd) : ReplyOk (x.endReply c kd) := by
  obtain ⟨hval, -⟩ := says_dispatch kd cmd [] x hk h [] { State.reset.port with answers := x.endAnswers c kd } Work.reset
    (List.append_nil _).symm
  exact hval ▸ ends_run (dispatch_ends hs cmd []) ..

/-- An AUTHENT dispatch reads no response (43_command_channel.md R199). -/
theorem endReply_authent (x : DispatchScript) : x.endReply c .authent = clearedReply c (x.endReply c .authent).status := by
  unfold DispatchScript.endReply
  split <;> rfl

/-- The registers after the authentication of block `n` (R250). -/
def authRegs (c : Params) (b : BlockScript) (n : Nat) (r : Regs) : Regs :=
  putAuth n (authStatus c (b.auth.endReply c .authent).status b.s2) (putReply r (b.auth.endReply c .authent))

theorem authed_iff : authStatus c (b.auth.endReply c .authent).status b.s2 = .ok ↔ b.authed c = true := by
  unfold authStatus BlockScript.authed
  split
  · simp [*]
  · rename_i hbit
    simp only [ne_eq, hbit, not_false_eq_true, decide_true, Bool.true_and, decide_eq_true_eq]

theorem got_eq (hs : c.source = {}) : b.got c = (b.authed c && readOk c (b.read.endReply c (readKind c))) := by
  simp [BlockScript.got, readOk, hs, Bool.and_assoc]

/-- What follows an authentication in an iteration of the dump's loop: a read, only if it ended OK (R290). -/
def readIfAuthed (c : Params) (n : Nat) (acc : DumpAcc) (a : Status × Regs) : Prog DumpAcc :=
  if a.1 = .ok then (readCore c n a.2).bind fun x => .done (dumpPut n x acc) else .done { acc with regs := a.2 }

/-- The dump's loop is one iteration after another. -/
theorem dumpBlocks_cons (mode : Byte) (key uid : List Byte) (n : Nat) (ns : List Nat) (acc : DumpAcc) :
    dumpBlocks c mode key uid (n :: ns) acc =
      ((authCore c mode n key uid acc.regs).bind (readIfAuthed c n acc)).bind (dumpBlocks c mode key uid ns) := by
  rw [bind_assoc]
  refine congrArg (Prog.bind _) (funext fun a => ?_)
  unfold readIfAuthed
  split
  · rw [bind_assoc]; rfl
  · rfl

/-- What one block leaves: the authentication's registers, and where a read follows, its registers and its data. -/
def blockEnd (c : Params) (b : BlockScript) (n : Nat) (acc : DumpAcc) : DumpAcc :=
  if b.authed c then dumpPut n (readVal c b (authRegs c b n acc.regs)) acc else { acc with regs := authRegs c b n acc.regs }

/-- The read of a block against its script, or none. -/
theorem says_readIfAuthed (hb : b.Ok c) (n : Nat) (acc : DumpAcc) :
    ∃ u, Says c (readIfAuthed c n acc (authStatus c (b.auth.endReply c .authent).status b.s2, authRegs c b n acc.regs))
      (if b.authed c then b.crc.answers ++ b.read.endAnswers c (readKind c) else [])
      (if b.authed c then b.crc.log c [c.card.read, BitVec.ofNat 8 n] ++
        b.read.endLog c (readKind c) c.cmd.transceive [c.card.read, BitVec.ofNat 8 n, b.crc.lo, b.crc.hi] else [])
      (blockEnd c b n acc) u := by
  unfold readIfAuthed blockEnd
  by_cases ha : b.authed c = true
  · simp only [ha, authed_iff.2 ha, if_true]
    obtain ⟨u, hread⟩ := says_readCore b (hb.crc ha) (hb.read ha) n (authRegs c b n acc.regs)
    exact ⟨_, (hread.bind (f := fun x => .done (dumpPut n x acc)) (says_done _)).congr
      (List.append_nil _).symm (List.append_nil _).symm rfl fun _ => rfl⟩
  · simp only [ha, mt authed_iff.1 ha, if_false]
    exact ⟨id, says_done _⟩

/-- One block against its script. -/
theorem says_block (hb : b.Ok c) (mode : Byte) (key uid : List Byte) (n : Nat) (acc : DumpAcc) :
    ∃ u, Says c ((authCore c mode n key uid acc.regs).bind (readIfAuthed c n acc)) (b.answers c) (b.log c mode key uid n)
      (blockEnd c b n acc) u := by
  obtain ⟨u, hauth⟩ := says_authCore b hb.auth mode n key uid acc.regs
  obtain ⟨v, hread⟩ := says_readIfAuthed hb n acc
  exact ⟨_, (hauth.bind hread).congr (by simp [BlockScript.answers]) (by simp [BlockScript.log, authFrame]) rfl fun _ => rfl⟩

/-! ### Block after block -/

/-- What the blocks leave, each beside its number. -/
def dumpEnd (c : Params) (xs : List (BlockScript × Nat)) (acc : DumpAcc) : DumpAcc :=
  xs.foldl (fun acc x => blockEnd c x.1 x.2 acc) acc

/-- The dump's loop against the scripts of its blocks. -/
theorem says_dumpBlocks (mode : Byte) (key uid : List Byte) (bs : List BlockScript) (hbs : ∀ b ∈ bs, b.Ok c) (n : Nat)
    (acc : DumpAcc) :
    ∃ u, Says c (dumpBlocks c mode key uid (List.range' n bs.length) acc) (bs.flatMap (BlockScript.answers c))
      ((bs.zipIdx n).flatMap fun x => x.1.log c mode key uid x.2) (dumpEnd c (bs.zipIdx n) acc) u := by
  induction bs generalizing n acc with
  | nil => exact ⟨id, says_done acc⟩
  | cons b bs ih =>
    obtain ⟨u, hblock⟩ := says_block (hbs b List.mem_cons_self) mode key uid n acc
    obtain ⟨v, hrest⟩ := ih (fun b hb => hbs b (List.mem_cons_of_mem _ hb)) (n + 1) (blockEnd c b n acc)
    rw [List.length_cons, List.range'_succ, dumpBlocks_cons]
    exact ⟨_, hblock.bind hrest⟩

theorem dumpEnd_concat (bs : List BlockScript) (b : BlockScript) (acc : DumpAcc) :
    dumpEnd c (bs ++ [b]).zipIdx acc = blockEnd c b bs.length (dumpEnd c bs.zipIdx acc) := by
  simp [dumpEnd, List.zipIdx_append]

/-! ### What one block leaves, field by field -/

/-- Everything a block can leave: not authenticated, or authenticated and not read, or read. -/
theorem blockEnd_cases (hs : c.source = {}) (hb : b.Ok c) (n : Nat) (acc : DumpAcc) :
    (b.authed c = false ∧ b.got c = false ∧ blockEnd c b n acc = { acc with regs := authRegs c b n acc.regs }) ∨
    (b.authed c = true ∧ b.got c = false ∧ blockEnd c b n acc =
      { acc with regs := discardResp c (putReply (authRegs c b n acc.regs) (b.read.endReply c (readKind c))) }) ∨
    (b.authed c = true ∧ b.got c = true ∧ (b.read.endReply c (readKind c)).len = 16 ∧ blockEnd c b n acc =
      { regs := putReply (authRegs c b n acc.regs) (b.read.endReply c (readKind c))
        out := acc.out.set n (b.read.endReply c (readKind c)).resp
        mask := acc.mask ||| (1#64 <<< n) }) := by
  unfold blockEnd
  cases ha : b.authed c with
  | false => exact .inl ⟨rfl, by simp [got_eq hs, ha], by simp⟩
  | true =>
    cases hg : b.got c with
    | false =>
      have hread : readOk c (b.read.endReply c (readKind c)) = false := by simpa [got_eq hs, ha] using hg
      exact .inr (.inl ⟨rfl, rfl, by simp [readVal, hread, dumpPut]⟩)
    | true =>
      have hread : readOk c (b.read.endReply c (readKind c)) = true := by simpa [got_eq hs, ha] using hg
      have hlen : (b.read.endReply c (readKind c)).len = 16 := by simp [readOk, hs] at hread; exact hread.1
      have hreply : ReplyOk (b.read.endReply c (readKind c)) := endReply_ok hs rfl (hb.read ha)
      have htake := List.take_of_length_le hreply.length.le
      exact .inr (.inr ⟨rfl, rfl, hlen, by simp [readVal, hread, dumpPut, htake]⟩)

/-- The slot of a block (R290). -/
def slotOf (c : Params) (b : BlockScript) : List Byte :=
  if b.got c then (b.read.endReply c (readKind c)).resp else zeros 16

/-- What block `n` makes of the registers, slots and mask `acc` (R250, R259, R290; 10_state.md R25). -/
structure LeftBy (c : Params) (b : BlockScript) (n : Nat) (acc acc' : DumpAcc) : Prop where
  out : acc'.out = if b.got c then acc.out.set n (slotOf c b) else acc.out
  mask : acc'.mask = if b.got c then acc.mask ||| (1#64 <<< n) else acc.mask
  session : acc'.regs.session = if b.authed c then .auth else .unauth
  authBlk : acc'.regs.authBlk = if b.authed c then .put n else acc.regs.authBlk
  resp : acc'.regs.resp = .put (if b.got c then (b.lastReply c).resp else zeros 16)
  respLen : acc'.regs.respLen = .put (if b.got c then 16 else 0)
  respBits : acc'.regs.respBits = .put (b.lastReply c).bits

theorem authRegs_session (n : Nat) (r : Regs) : (authRegs c b n r).session = if b.authed c then .auth else .unauth := by
  simp [authRegs, putAuth_session, authed_iff]

theorem authRegs_authBlk (n : Nat) (r : Regs) : (authRegs c b n r).authBlk = if b.authed c then .put n else r.authBlk := by
  simp [authRegs, putAuth_authBlk, authed_iff]

@[simp] theorem authRegs_resp (n : Nat) (r : Regs) : (authRegs c b n r).resp = .put (zeros c.source.maxLen) := by
  rw [authRegs, putAuth_resp, endReply_authent]
  rfl

@[simp] theorem authRegs_respLen (n : Nat) (r : Regs) : (authRegs c b n r).respLen = .put 0 := by
  rw [authRegs, putAuth_respLen, endReply_authent]
  rfl

@[simp] theorem authRegs_respBits (n : Nat) (r : Regs) :
    (authRegs c b n r).respBits = .put (b.auth.endReply c .authent).bits := putAuth_respBits ..

theorem blockEnd_leftBy (hs : c.source = {}) (hb : b.Ok c) (n : Nat) (acc : DumpAcc) :
    LeftBy c b n acc (blockEnd c b n acc) := by
  rcases blockEnd_cases hs hb n acc with ⟨ha, hg, heq⟩ | ⟨ha, hg, heq⟩ | ⟨ha, hg, hlen, heq⟩
  · have hlast : b.lastReply c = b.auth.endReply c .authent := by simp [BlockScript.lastReply, ha]
    rw [heq]
    constructor <;> simp [ha, hg, hs, hlast, authRegs_session, authRegs_authBlk]
  · have hlast : b.lastReply c = b.read.endReply c (readKind c) := by simp [BlockScript.lastReply, ha]
    rw [heq]
    constructor <;> simp [ha, hg, hs, hlast, authRegs_session, authRegs_authBlk]
  · have hlast : b.lastReply c = b.read.endReply c (readKind c) := by simp [BlockScript.lastReply, ha]
    rw [heq]
    constructor <;> simp [ha, hg, hlen, hlast, slotOf, authRegs_session, authRegs_authBlk]

/-! ### What all blocks leave -/

section Blocks

variable {bs : List BlockScript} {acc : DumpAcc}

theorem dumpEnd_out (hs : c.source = {}) (hbs : ∀ b ∈ bs, b.Ok c) (hl : bs.length ≤ 64)
    (hacc : acc.out = List.replicate 64 (zeros 16)) :
    (dumpEnd c bs.zipIdx acc).out = bs.map (slotOf c) ++ List.replicate (64 - bs.length) (zeros 16) := by
  induction bs using List.reverseRecOn with
  | nil => exact hacc
  | append_singleton bs b ih =>
    have hout := ih (fun x hx => hbs x (List.mem_append_left _ hx)) (by simp at hl; omega)
    have hrep : 64 - bs.length = (64 - (bs ++ [b]).length) + 1 := by simp at hl ⊢; omega
    rw [dumpEnd_concat, (blockEnd_leftBy hs (hbs b (by simp)) _ _).out, hout, hrep, List.replicate_succ]
    cases hg : b.got c <;> simp [hg, slotOf]

theorem dumpEnd_mask (hs : c.source = {}) (hbs : ∀ b ∈ bs, b.Ok c) (hl : bs.length ≤ 64) (hacc : acc.mask = 0) (m : Nat) :
    (dumpEnd c bs.zipIdx acc).mask.getLsbD m = (bs.map (BlockScript.got c)).getD m false := by
  induction bs using List.reverseRecOn with
  | nil => simp [dumpEnd, hacc]
  | append_singleton bs b ih =>
    have hmask := ih (fun x hx => hbs x (List.mem_append_left _ hx)) (by simp at hl; omega)
    have hbit : (1#64 <<< bs.length).getLsbD m = decide (bs.length = m) := by
      have := BitVec.getLsbD_twoPow (w := 64) bs.length m
      simpa [BitVec.twoPow, show bs.length < 64 by simp at hl; omega] using this
    rw [dumpEnd_concat, (blockEnd_leftBy hs (hbs b (by simp)) _ _).mask, apply_ite (BitVec.getLsbD · m),
      BitVec.getLsbD_or, hbit, hmask, List.map_append]
    rcases Nat.lt_trichotomy m bs.length with hm | rfl | hm
    · rw [List.getD_append _ _ _ _ (by simpa using hm)]
      simp [hm.ne']
    · rw [List.getD_append_right _ _ _ _ (by simp)]
      simp
    · rw [List.getD_append_right _ _ _ _ (by simpa using hm.le)]
      simp only [List.getD_eq_default (bs.map _) false (by simpa using hm.le), hm.ne, decide_false, Bool.or_false, ite_self]
      exact (List.getD_eq_default _ _ (by simp; omega)).symm

theorem dumpEnd_authBlk (hs : c.source = {}) (hbs : ∀ b ∈ bs, b.Ok c) {n : Nat} (hn : n < bs.length)
    (ha : bs[n].authed c = true) (hlast : ∀ m (_ : m < bs.length), n < m → bs[m].authed c = false) :
    (dumpEnd c bs.zipIdx acc).regs.authBlk = .put n := by
  induction bs using List.reverseRecOn with
  | nil => cases hn
  | append_singleton bs b ih =>
    rw [dumpEnd_concat, (blockEnd_leftBy hs (hbs b (by simp)) _ _).authBlk]
    rw [List.length_append, List.length_singleton] at hn
    rcases Nat.lt_or_eq_of_le (Nat.le_of_lt_succ hn) with hlt | rfl
    · have hb : b.authed c = false := by simpa using hlast bs.length (by simp) hlt
      rw [hb, if_neg Bool.false_ne_true]
      have han : bs[n].authed c = true := by rwa [List.getElem_append_left hlt] at ha
      refine ih (fun x hx => hbs x (List.mem_append_left _ hx)) hlt han fun m hm hnm => ?_
      have := hlast m (by simp; omega) hnm
      rwa [List.getElem_append_left hm] at this
    · have hb : b.authed c = true := by simpa using ha
      rw [hb, if_pos rfl]

theorem dumpEnd_authBlk_none (hs : c.source = {}) (hbs : ∀ b ∈ bs, b.Ok c) (ha : ∀ b ∈ bs, b.authed c = false) :
    (dumpEnd c bs.zipIdx acc).regs.authBlk = acc.regs.authBlk := by
  induction bs using List.reverseRecOn with
  | nil => rfl
  | append_singleton bs b ih =>
    rw [dumpEnd_concat, (blockEnd_leftBy hs (hbs b (by simp)) _ _).authBlk, ha b (by simp), if_neg Bool.false_ne_true]
    exact ih (fun x hx => hbs x (List.mem_append_left _ hx)) fun x hx => ha x (List.mem_append_left _ hx)

/-- What the last block leaves is what the dump leaves. -/
theorem dumpEnd_last (hs : c.source = {}) (hbs : ∀ b ∈ bs, b.Ok c) {n : Nat} (hn : bs.length = n + 1) :
    ∃ acc', LeftBy c bs[n] n acc' (dumpEnd c bs.zipIdx acc) := by
  induction bs using List.reverseRecOn with
  | nil => cases hn
  | append_singleton bs b _ =>
    obtain rfl : bs.length = n := by simpa using hn
    rw [dumpEnd_concat]
    simpa using ⟨_, blockEnd_leftBy hs (hbs b (by simp)) _ _⟩

end Blocks

/-! ### The whole dump -/

/-- What a dump starts its loop with: no block read. -/
def dumpStart (r : Regs) : DumpAcc := ⟨r, List.replicate 64 (zeros 16), 0⟩

/-- The registers a dump ends in. -/
def dumpedRegs (acc : DumpAcc) : Regs :=
  { acc.regs with dumpOut := .put acc.out, dumpMask := .put acc.mask, status := .put .ok }

theorem dumpProg_eq (mode : Byte) (key uid : List Byte) (r : Regs) :
    dumpProg c mode (ints key) (ints uid) r =
      (dumpBlocks c mode key uid (List.range 64) (dumpStart r)).bind fun acc => .done (dumpedRegs acc) := by
  rw [dumpProg, toBytes_ints, toBytes_ints]
  rfl

/-- A whole dump against the scripts of its 64 blocks. -/
theorem says_dumpProg {bs : List BlockScript} (hl : bs.length = 64) (hbs : ∀ b ∈ bs, b.Ok c) (mode : Byte)
    (key uid : List Byte) (r : Regs) :
    ∃ u, Says c (dumpProg c mode (ints key) (ints uid) r) (bs.flatMap (BlockScript.answers c))
      (bs.zipIdx.flatMap fun x => x.1.log c mode key uid x.2) (dumpedRegs (dumpEnd c bs.zipIdx (dumpStart r))) u := by
  obtain ⟨u, hblocks⟩ := says_dumpBlocks mode key uid bs hbs 0 (dumpStart r)
  rw [hl, ← List.range_eq_range'] at hblocks
  rw [dumpProg_eq]
  exact ⟨_, (hblocks.bind (f := fun acc => .done (dumpedRegs acc)) (says_done _)).congr (List.append_nil _).symm
    (List.append_nil _).symm rfl fun _ => rfl⟩

/-- DUMPA and DUMPB of a key and an identity of the right lengths are accepted and run the dump of their mode. -/
theorem dump_plan (hs : c.source = {}) {key uid : List Byte} (hkey : key.length = 6) (huid : uid.length = 5)
    {i : Instr} {mode : Byte}
    (hi : i = .dumpa (ints key) (ints uid) ∧ mode = c.card.auth1A ∨ i = .dumpb (ints key) (ints uid) ∧ mode = c.card.auth1B)
    (r : Regs) :
    (planOf i c r).reject = none ∧ (planOf i c r).prog = dumpProg c mode (ints key) (ints uid) r := by
  have hcheck : checkDump c (ints key) (ints uid) = none := by
    simp [checkDump, checkKey_ints hs hkey, checkUid_ints hs huid]
  rcases hi with ⟨rfl, rfl⟩ | ⟨rfl, rfl⟩
  · exact ⟨hcheck, rfl⟩
  · exact ⟨hcheck, rfl⟩

/-- Settles O44: the dump runs by its scripts (`says_dumpProg`), and what it ends in is read off block by block. -/
theorem dumpAgainstChip : Obligations.DumpAgainstChip := by
  intro s i mode key uid rest bs hready hkey huid hi hl hbs hanswers
  have hs := source_of_legal hready.1
  obtain ⟨hreject, hprog⟩ := dump_plan hs hkey huid hi s.regs
  obtain ⟨u, hsay⟩ := says_dumpProg hl hbs mode key uid s.regs
  obtain ⟨hval, -, hrest, hlog⟩ := hsay rest s.port s.work hanswers
  refine ⟨_, (dumpEnd s.cfg bs.zipIdx (dumpStart s.regs)).mask, exec_complete hready hreject, ?_⟩
  simp only [complete_eq, hprog, hval, hrest, hlog]
  refine ⟨rfl, trivial, trivial, ?_, rfl, fun n hn => ?_, fun hn => ?_, fun n hn ha hlater => ?_, fun ha => ?_⟩
  · have hout := dumpEnd_out (acc := dumpStart s.regs) hs hbs hl.le rfl
    rw [hl, Nat.sub_self, List.replicate_zero, List.append_nil] at hout
    exact congrArg Held.put hout
  · rw [dumpEnd_mask hs hbs hl.le rfl, List.getD_eq_getElem _ _ (by simpa using hn), List.getElem_map]
  · obtain ⟨acc', hlast⟩ := dumpEnd_last (acc := dumpStart s.regs) hs hbs hl
    exact ⟨hlast.session, hlast.resp, hlast.respLen, hlast.respBits⟩
  · exact dumpEnd_authBlk hs hbs hn ha hlater
  · exact dumpEnd_authBlk_none hs hbs ha

end Sys2Proof.Machine
end

section
/-! SUPPORT. The bus (20_memory.md): the wire bytes of a transfer under the default bus form (R61), and the chip registers an
operation run whole reaches (R77). -/

namespace Sys2Proof.Machine

/-! ### The wire bytes of the default bus form (20_memory.md R61) -/

theorem busWriteAddr_default {c : Params} (h : c.bus = {}) (a : Nat) : busWriteAddr c a = (BitVec.ofNat 8 a <<< 1) &&& 0x7E := by
  rw [busWriteAddr, h]
  exact BitVec.or_zero

theorem busReadAddr_default {c : Params} (h : c.bus = {}) (a : Nat) :
    busReadAddr c a = ((BitVec.ofNat 8 a <<< 1) &&& 0x7E) ||| 0x80 := by
  rw [busReadAddr, h]
  rfl

/-- Settles O23: the transfers are those of `portWrite_trace` and `portRead_trace`, with the default address bytes. -/
theorem transferWireBytes : Obligations.TransferWireBytes := by
  intro c st a v p hbus
  refine ⟨?_, ?_, rfl⟩
  · rw [portWrite_trace, busWriteAddr_default hbus]
  · rw [portRead_trace, busReadAddr_default hbus, hbus]

/-! ### The chip registers an operation reaches (20_memory.md R77) -/

/-- The transfers that serving a plan adds are for registers its program touches; a rejection adds none. -/
theorem serve_touches {R : Nat → Prop} {p : Plan} (h : p.prog.Touches R) (s : State) :
    ∃ new, (serve p s).port.trace = new ++ s.port.trace ∧ ∀ x ∈ new, R x.reg := by
  rcases serve_cases p s with ⟨op, n, vs, -, heq⟩ | ⟨code, -, -, heq⟩ | ⟨-, -, heq⟩
  · exact ⟨[], by rw [heq]; rfl, by simp⟩
  · exact ⟨[], by rw [heq]; rfl, by simp⟩
  · rw [heq]; exact touches_run h s.cfg s.port s.work

/-- Settles O58: the new transfers are those of the operation's plan, which touches only the sequencer's registers
(`plan_touches`). -/
theorem sequencerTouchesOnlyItsRegisters : Obligations.SequencerTouchesOnlyItsRegisters := by
  intro i s t new h hi htrace
  obtain ⟨-, rfl⟩ := exec_next h
  obtain ⟨added, hadded, hregs⟩ := serve_touches (plan_touches hi) s
  have hnew : new = added := List.append_cancel_right (htrace.symm.trans hadded)
  rw [hnew]
  exact hregs

end Sys2Proof.Machine
end

section
/-! SUPPORT. The serial form (30_encoding.md R90 to R95): the decoder gives back what the encoder wrote (`decode_encode`), what
decodes is the encoding of a well-formed operation (`decode_op`), and the descriptors that are reserved (R93). -/

namespace Sys2Proof

/-! ### Bytes as operands -/

theorem fitsByte_iff {x : Int} : fitsByte x = true ↔ 0 ≤ x ∧ x ≤ 255 := by simp [fitsByte]

theorem fitsSigned_iff {x : Int} : fitsSigned x = true ↔ -128 ≤ x ∧ x ≤ 127 := by simp [fitsSigned]

theorem fitsList_iff {xs : List Int} : fitsList xs = true ↔ xs.length ≤ 255 ∧ ∀ x ∈ xs, fitsByte x = true := by
  simp [fitsList]

theorem byteVal_byteOf {x : Int} (h : fitsByte x = true) : byteVal (byteOf x) = x := by
  obtain ⟨h0, h255⟩ := fitsByte_iff.1 h
  simp only [byteVal, byteOf, BitVec.toNat_ofInt, Int.ofNat_eq_natCast]
  omega

theorem signedVal_byteOf {x : Int} (h : fitsSigned x = true) : signedVal (byteOf x) = x := by
  obtain ⟨hlow, hhigh⟩ := fitsSigned_iff.1 h
  exact BitVec.toInt_ofInt_eq_self (by decide) (by simpa using hlow) (by simpa using by omega)

@[simp] theorem byteOf_byteVal (b : Byte) : byteOf (byteVal b) = b := by simp [byteOf, byteVal]

@[simp] theorem byteOf_signedVal (b : Byte) : byteOf (signedVal b) = b := BitVec.ofInt_toInt

@[simp] theorem fitsByte_byteVal (b : Byte) : fitsByte (byteVal b) = true := by
  have hb := b.isLt
  exact fitsByte_iff.2 ⟨Int.natCast_nonneg _, by simp only [byteVal, Int.ofNat_eq_natCast]; omega⟩

@[simp] theorem fitsSigned_signedVal (b : Byte) : fitsSigned (signedVal b) = true := by
  have hlow := BitVec.le_toInt b
  have hhigh := BitVec.toInt_lt (x := b)
  exact fitsSigned_iff.2 ⟨hlow, Int.lt_add_one_iff.1 hhigh⟩

/-! ### The decoder on what the encoder wrote -/

section Takes

variable (rest : List Byte)

theorem takeByte_byteOf {x : Int} (h : fitsByte x = true) (k : Int → List Byte → Decoded) :
    takeByte (byteOf x :: rest) k = k x rest := by
  rw [takeByte, byteVal_byteOf h]

theorem takeSigned_byteOf {x : Int} (h : fitsSigned x = true) (k : Int → List Byte → Decoded) :
    takeSigned (byteOf x :: rest) k = k x rest := by
  rw [takeSigned, signedVal_byteOf h]

theorem takeList_encodeList {xs : List Int} (h : fitsList xs = true) (k : List Int → List Byte → Decoded) :
    takeList (encodeList xs ++ rest) k = k xs rest := by
  obtain ⟨hlen, hxs⟩ := fitsList_iff.1 h
  have hn : (BitVec.ofNat 8 xs.length).toNat = (xs.map byteOf).length := by
    rw [BitVec.toNat_ofNat, List.length_map]
    omega
  have hval : (xs.map byteOf).map byteVal = xs := by
    rw [List.map_map]
    exact (List.map_congr_left fun x hx => byteVal_byteOf (hxs x hx)).trans (List.map_id xs)
  simp [encodeList, takeList, hn, hval]

end Takes

/-- Decoding reads the operands of an encoded operation one after another, and leaves the bytes after them (R95). -/
theorem decode_encode {i : Instr} (h : i.wellFormed = true) (rest : List Byte) : decode (encode i ++ rest) = .op i rest := by
  show decodeOperands i.opcode.toNat (encodeOperands i ++ rest) = .op i rest
  cases i with simp only [Instr.wellFormed, Bool.and_eq_true] at h
  | reqidl | reqall | anticoll | stopcrypto => rfl
  | rdreg x | read x => simp [decodeOperands, Instr.opcode, encodeOperands, takeByte_byteOf, h]
  | wrreg a x | setbits a x | clrbits a x => simp [decodeOperands, Instr.opcode, encodeOperands, takeByte_byteOf, h]
  | mkaddr s k => simp [decodeOperands, Instr.opcode, encodeOperands, takeSigned_byteOf, h]
  | calccrc xs | mkuid xs | mkkey xs | mkdata xs | select xs =>
    simp [decodeOperands, Instr.opcode, encodeOperands, takeList_encodeList, h]
  | exec x xs | write x xs =>
    simp [decodeOperands, Instr.opcode, encodeOperands, takeByte_byteOf, takeList_encodeList, h]
  | autha x key uid | authb x key uid =>
    simp [decodeOperands, Instr.opcode, encodeOperands, takeByte_byteOf, takeList_encodeList, h]
  | dumpa key uid | dumpb key uid => simp [decodeOperands, Instr.opcode, encodeOperands, takeList_encodeList, h]

/-- Settles O2: operand by operand, the decoder takes back what the encoder wrote. -/
theorem decodeOfEncode : Obligations.DecodeOfEncode :=
  fun _ rest h => decode_encode h rest

/-! ### What decodes -/

section Inversions

variable {bs rest : List Byte} {i : Instr} {d : Decoded}

/-- Unless the bytes end, a byte operand is there, in its range, and what follows it is read. -/
theorem takeByte_eq_iff (hd : d ≠ .incomplete) {k : Int → List Byte → Decoded} :
    takeByte bs k = d ↔ ∃ x tail, fitsByte x = true ∧ bs = byteOf x :: tail ∧ k x tail = d := by
  refine ⟨fun h => ?_, fun ⟨x, tail, hx, hbs, hk⟩ => by rw [hbs, takeByte_byteOf _ hx, hk]⟩
  cases bs with
  | nil => exact absurd h.symm hd
  | cons b tail => exact ⟨byteVal b, tail, fitsByte_byteVal b, by rw [byteOf_byteVal], h⟩

/-- Unless the bytes end, a two's-complement operand is there, in its range, and what follows it is read. -/
theorem takeSigned_eq_iff (hd : d ≠ .incomplete) {k : Int → List Byte → Decoded} :
    takeSigned bs k = d ↔ ∃ x tail, fitsSigned x = true ∧ bs = byteOf x :: tail ∧ k x tail = d := by
  refine ⟨fun h => ?_, fun ⟨x, tail, hx, hbs, hk⟩ => by rw [hbs, takeSigned_byteOf _ hx, hk]⟩
  cases bs with
  | nil => exact absurd h.symm hd
  | cons b tail => exact ⟨signedVal b, tail, fitsSigned_signedVal b, by rw [byteOf_signedVal], h⟩

/-- A length byte and as many bytes as it says are the serial form of a list. -/
theorem encodeList_byteVal (n : Byte) {bs : List Byte} (h : bs.length = n.toNat) : encodeList (bs.map byteVal) = n :: bs := by
  simp [encodeList, h, Function.comp_def]

theorem fitsList_byteVal {bs : List Byte} (h : bs.length ≤ 255) : fitsList (bs.map byteVal) = true :=
  fitsList_iff.2 ⟨by rwa [List.length_map], List.forall_mem_map.2 fun b _ => fitsByte_byteVal b⟩

/-- Unless the bytes end, a list operand is there, with a serial form, and what follows it is read. -/
theorem takeList_eq_iff (hd : d ≠ .incomplete) {k : List Int → List Byte → Decoded} :
    takeList bs k = d ↔ ∃ xs tail, fitsList xs = true ∧ bs = encodeList xs ++ tail ∧ k xs tail = d := by
  refine ⟨fun h => ?_, fun ⟨xs, tail, hxs, hbs, hk⟩ => by rw [hbs, takeList_encodeList _ hxs, hk]⟩
  cases bs with
  | nil => exact absurd h.symm hd
  | cons n tail =>
    by_cases hn : n.toNat ≤ tail.length
    · have hlen : (tail.take n.toNat).length = n.toNat := List.length_take_of_le hn
      refine ⟨_, _, fitsList_byteVal (hlen.trans_le (Nat.le_of_lt_succ n.isLt)), ?_, (if_pos hn).symm.trans h⟩
      rw [encodeList_byteVal n hlen, List.cons_append, List.take_append_drop]
    · exact absurd (h.symm.trans (if_neg hn)) hd

/-- What the operands of descriptor `n` decode to has that descriptor, is well formed and encodes back to them: the rows of
R92, grouped by the kinds of their operands. -/
theorem decodeOperands_op {n : Nat} (h : decodeOperands n bs = .op i rest) :
    i.wellFormed = true ∧ i.opcode.toNat = n ∧ encodeOperands i ++ rest = bs := by
  have hne : Decoded.op i rest ≠ .incomplete := nofun
  unfold decodeOperands at h
  split at h
  case h_1 | h_17 => -- RDREG, READ
    obtain ⟨x, tail, hx, rfl, hop⟩ := (takeByte_eq_iff hne).1 h
    cases hop
    exact ⟨hx, rfl, rfl⟩
  case h_2 | h_3 | h_4 => -- WRREG, SETBITS, CLRBITS
    obtain ⟨x, tail, hx, rfl, h1⟩ := (takeByte_eq_iff hne).1 h
    obtain ⟨y, tail, hy, rfl, hop⟩ := (takeByte_eq_iff hne).1 h1
    cases hop
    exact ⟨Bool.and_intro hx hy, rfl, rfl⟩
  case h_7 => -- MKADDR
    obtain ⟨x, tail, hx, rfl, h1⟩ := (takeSigned_eq_iff hne).1 h
    obtain ⟨y, tail, hy, rfl, hop⟩ := (takeSigned_eq_iff hne).1 h1
    cases hop
    exact ⟨Bool.and_intro hx hy, rfl, rfl⟩
  case h_5 | h_8 | h_9 | h_10 | h_14 => -- CALCCRC, MKUID, MKKEY, MKDATA, SELECT
    obtain ⟨xs, tail, hxs, rfl, hop⟩ := (takeList_eq_iff hne).1 h
    cases hop
    exact ⟨hxs, rfl, rfl⟩
  case h_6 | h_18 => -- EXEC, WRITE
    obtain ⟨x, tail, hx, rfl, h1⟩ := (takeByte_eq_iff hne).1 h
    obtain ⟨xs, tail, hxs, rfl, hop⟩ := (takeList_eq_iff hne).1 h1
    cases hop
    exact ⟨Bool.and_intro hx hxs, rfl, rfl⟩
  case h_15 | h_16 => -- AUTHA, AUTHB
    obtain ⟨x, tail, hx, rfl, h1⟩ := (takeByte_eq_iff hne).1 h
    obtain ⟨xs, tail, hxs, rfl, h2⟩ := (takeList_eq_iff hne).1 h1
    obtain ⟨ys, tail, hys, rfl, hop⟩ := (takeList_eq_iff hne).1 h2
    cases hop
    exact ⟨Bool.and_intro (Bool.and_intro hx hxs) hys, rfl, by simp [encodeOperands]⟩
  case h_20 | h_21 => -- DUMPA, DUMPB
    obtain ⟨xs, tail, hxs, rfl, h1⟩ := (takeList_eq_iff hne).1 h
    obtain ⟨ys, tail, hys, rfl, hop⟩ := (takeList_eq_iff hne).1 h1
    cases hop
    exact ⟨Bool.and_intro hxs hys, rfl, by simp [encodeOperands]⟩
  case h_11 | h_12 | h_13 | h_19 => -- REQIDL, REQALL, ANTICOLL, STOPCRYPTO
    cases h
    exact ⟨rfl, rfl, rfl⟩
  case h_22 => cases h -- a reserved descriptor

/-- What decodes is well formed and encodes back to the bytes taken (R94, R95). -/
theorem decode_op (h : decode bs = .op i rest) : i.wellFormed = true ∧ encode i ++ rest = bs := by
  cases bs with
  | nil => cases h
  | cons opc tail =>
    obtain ⟨hwf, hopc, hoperands⟩ := decodeOperands_op h
    exact ⟨hwf, congrArg₂ List.cons (BitVec.eq_of_toNat_eq hopc) hoperands⟩

end Inversions

/-- Settles O3: operand by operand, what the decoder took is what the encoder writes. -/
theorem encodeOfDecode : Obligations.EncodeOfDecode :=
  fun _ _ _ h => decode_op h

/-- Settles O1: the words decode as they are read by hand. -/
theorem specWordsDecode : Obligations.SpecWordsDecode := by
  unfold Obligations.SpecWordsDecode
  decide

/-! ### The reserved descriptors (R93) -/

/-- R93: the byte values that stand for no row of R92. -/
def ReservedOpc (n : Nat) : Prop :=
  n = 0x00 ∨ (0x05 ≤ n ∧ n ≤ 0x0F) ∨ (0x12 ≤ n ∧ n ≤ 0x1F) ∨ (0x24 ≤ n ∧ n ≤ 0x2F) ∨ (0x34 ≤ n ∧ n ≤ 0x3F) ∨
    (0x45 ≤ n ∧ n ≤ 0x4F) ∨ 0x52 ≤ n

section Reserved

variable {bs : List Byte} {b : Byte}

/-- A descriptor is reported as reserved exactly where it is in no row of R92: a row's operands are read, or end early. -/
theorem decodeOperands_reserved_iff {n : Nat} :
    decodeOperands n bs = .reserved b ↔ ReservedOpc n ∧ b = BitVec.ofNat 8 n := by
  unfold decodeOperands
  split
  case h_22 =>
    have hn : ReservedOpc n := by
      unfold ReservedOpc
      simp only [imp_false] at *
      omega
    simp [hn, eq_comm]
  all_goals
    refine iff_of_false ?_ fun h => absurd h.1 (by unfold ReservedOpc; decide)
    simp [takeByte_eq_iff, takeSigned_eq_iff, takeList_eq_iff]

theorem decode_reserved_iff (b : Byte) (rest : List Byte) : decode (b :: rest) = .reserved b ↔ ReservedOpc b.toNat := by
  simp [decode, decodeOperands_reserved_iff]

end Reserved

end Sys2Proof

namespace Sys2Proof.Machine

theorem rejectReserved_idle {s : State} (h : s.phase = .idle) : rejectReserved s = reject .eOpc s := by
  simp [rejectReserved, h]

/-- A ready block rejects a reserved descriptor with E_OPC, offered whole or begun (R93). -/
theorem step_reserved {s : State} {o : Offer} {b : Byte} {rest : List HostEvent} (h : s.Ready)
    (hh : s.host = .offer o :: rest ∨ s.host = .begin o :: rest) (ho : readOffer o = .reserved b) :
    step s = .next (reject .eOpc { s with host := rest }) := by
  have hserve : guarded { s with host := rest } (.next (rejectReserved { s with host := rest })) =
      .next (reject .eOpc { s with host := rest }) := by
    rw [guarded_legal (s := { s with host := rest }) h.1, rejectReserved_idle (s := { s with host := rest }) h.2]
  rcases hh with hh | hh
  · rw [step_event hh, hostEvent, offerOp, ho]; exact hserve
  · rw [step_event hh, hostEvent, beginOffer, ho]; exact hserve

/-- Settles O4: the reserved descriptors are those in no row, and an offer of one is rejected at a ready block. -/
theorem reservedDescriptorsRejected : Obligations.ReservedDescriptorsRejected :=
  ⟨decode_reserved_iff, fun _ bytes _ _ hready hh hd => step_reserved (o := .serial bytes) hready hh hd⟩

end Sys2Proof.Machine
end

section
/-! SUPPORT. The operand checks of the operations of one byte or list operand (30_encoding.md R91): which rejection each plan
gives, and that a rejected operation changes OUTCOME only. -/

namespace Sys2Proof.Machine

variable {c : Params}

/-- A list of the right length with an element outside 0..255 fails on the element. -/
theorem checkLen_elems {n : Nat} {code : RejectCode} {xs : List Int} (hl : xs.length = n) (hx : ∃ x ∈ xs, x < 0 ∨ 255 < x) :
    checkLen n code xs = some .eOperand := by
  rw [checkLen, if_pos hl, checkElems_bad hx]

theorem checkBuf_elems {xs : List Int} (hl : 2 ≤ xs.length) (hx : ∃ x ∈ xs, x < 0 ∨ 255 < x) :
    checkBuf xs = some .eOperand := by
  rw [checkBuf, if_neg (by omega), checkElems_bad hx]

/-- Settles O15: the address or the command before the operand passes its check, and the operand fails with E_OPERAND. -/
theorem byteOperandRejected : Obligations.ByteOperandRejected := by
  intro s a v out hready hv
  refine ⟨fun h0 hmax i hi => exec_reject hready ?_, exec_reject hready ?_, fun cmd hmem => exec_reject hready ?_⟩
  · have hcheck : (checkReg s.cfg a).or (checkByte v) = some .eOperand := by
      rw [checkReg_ok ⟨h0, hmax⟩, checkByte_bad hv, Option.none_or]
    rcases hi with rfl | rfl | rfl <;> exact hcheck
  · show (checkByte v).or (checkElems out) = some .eOperand
    rw [checkByte_bad hv, Option.some_or]
  · show (checkByte (byteVal cmd)).or (checkElems out) = some .eOperand
    rw [checkByte_byteVal, checkElems_bad ⟨v, hmem, hv⟩, Option.none_or]

/-- Settles O16: each list is checked for its length, the source's, and then for its elements. -/
theorem listOperandsChecked : Obligations.ListOperandsChecked := by
  intro s xs hready
  have hs := source_of_legal hready.1
  have hkey : s.cfg.source.keyLen = 6 := by rw [hs]
  have hdata : s.cfg.source.dataLen = 16 := by rw [hs]
  have huid : s.cfg.source.uidLen = 5 := by rw [hs]
  refine ⟨fun hl => exec_reject hready (checkLen_bad (hkey ▸ hl)), fun hl => exec_reject hready (checkLen_bad (hdata ▸ hl)),
    fun hl i hi => exec_reject hready ?_, fun hl => exec_reject hready (checkBuf_short hl),
    fun hx i hi => exec_reject hready ?_⟩
  · rcases hi with rfl | rfl <;> exact checkLen_bad (huid ▸ hl)
  · rcases hi with ⟨rfl, hl⟩ | ⟨rfl, hl⟩ | ⟨rfl, hl⟩ | ⟨rfl, hl⟩ | ⟨rfl, hl⟩
    · exact checkLen_elems (hl.trans hkey.symm) hx
    · exact checkLen_elems (hl.trans hdata.symm) hx
    · exact checkLen_elems (hl.trans huid.symm) hx
    · exact checkLen_elems (hl.trans huid.symm) hx
    · exact checkBuf_elems hl hx

end Sys2Proof.Machine
end

section
/-! SUPPORT. The frame bytes of the sequencer operations (30_encoding.md R99 to R106): what each program writes in its FILL
phases, whatever the chip answers, the dump's block after block. -/

namespace Sys2Proof.Machine

variable {c : Params} {r : Regs}

/-! ### From a program's frames to an operation's -/

/-- A ready block that ends an operation with DONE has run it whole. -/
theorem exec_done {i : Instr} {s t : State} (hready : s.Ready) (h : exec i s = .next t) (hdone : t.outcome = .put .done) :
    t = complete (planOf i s.cfg s.regs) s := by
  obtain ⟨-, rfl⟩ := exec_next h
  cases hr : (planOf i s.cfg s.regs).reject with
  | some code => rw [serve_reject hready.2 hr] at hdone; cases hdone
  | none => exact serve_complete hready.2 hr

/-- The frame bytes an accepted operation adds to the trace are those of its program, with the registers it ends in. -/
theorem exec_fills {i : Instr} {s t : State} {new : List Xfer} {Q : List Byte → Regs → Prop} (hready : s.Ready)
    (h : exec i s = .next t) (hdone : t.outcome = .put .done) (htrace : t.port.trace = new ++ s.port.trace)
    (hQ : Fills (planOf i s.cfg s.regs).prog Q) : Q (fillBytes new) t.regs := by
  have ht := exec_done hready h hdone
  subst ht
  obtain ⟨added, hadded, hfills⟩ := fills_run (c := s.cfg) hQ s.port s.work
  rw [List.append_cancel_right (htrace.symm.trans hadded)]
  exact hfills

/-- What follows a program and writes no frame byte leaves its frames. -/
theorem fills_then_done {α β : Type} {x : Prog α} {f : α → β} {P : List Byte → Prop} (h : Fills x fun bs _ => P bs) :
    Fills (x.bind fun a => .done (f a)) fun bs _ => P bs :=
  fills_bind h fun bs _ hb => by simpa [Fills] using hb

/-! ### Discovery, authentication, read and write -/

theorem fills_requestProg (t : Byte) : Fills (requestProg c t r) fun bs _ => bs = [t] :=
  silent_bind (silent_regWrite _ _ _ (by decide)) fun _ => fills_then_done (fills_dispatch _ _)

theorem fills_antiCollProg : Fills (antiCollProg c r) fun bs _ => bs = [c.card.antiColl, c.card.nvbAntiColl] :=
  silent_bind (silent_regWrite _ _ _ (by decide)) fun _ => fills_then_done (fills_dispatch _ _)

/-- A CRC run and the TRANSCEIVE of its result send the frame with its two placeholders replaced (R101, R104, R105). -/
theorem fills_writePhase_append (body : List Byte) :
    Fills (writePhase c (body ++ [0x00, 0x00])) fun bs _ => ∃ lo hi, bs = body ++ [lo, hi] :=
  fills_mono (fills_writePhase _) fun _ _ ⟨lo, hi, hbs⟩ => ⟨lo, hi, by simpa using hbs⟩

theorem fills_selectProg (uid : List Byte) :
    Fills (selectProg c uid r) fun bs _ => ∃ lo hi, bs = [c.card.select, c.card.nvbSelect] ++ uid ++ [lo, hi] := by
  rw [selectProg, ← bind_assoc]
  exact fills_then_done (fills_writePhase_append _)

theorem fills_authProg (mode : Byte) (blk : Int) (key uid : List Int) :
    Fills (authProg c mode blk key uid r) fun bs _ =>
      bs = [mode, BitVec.ofNat 8 blk.toNat] ++ toBytes key ++ (toBytes uid).take 4 :=
  fills_then_done (fills_authCore _ _ _ _ _)

/-- WRITE sends the write-intent frame and, if at all, the payload frame (R104, R105). -/
theorem fills_writeProg (blk : Nat) (data : List Byte) :
    Fills (writeProg c blk data r) fun bs _ => ∃ lo hi, bs = [c.card.write, BitVec.ofNat 8 blk, lo, hi] ∨
      ∃ lo' hi', bs = [c.card.write, BitVec.ofNat 8 blk, lo, hi] ++ data ++ [lo', hi'] := by
  refine fills_bind (fills_writePhase_append [c.card.write, BitVec.ofNat 8 blk]) fun bs d ⟨lo, hi, hbs⟩ => ?_
  subst hbs
  split
  · refine fills_mono (fills_then_done (fills_writePhase_append data)) fun cs _ ⟨lo', hi', hcs⟩ =>
      ⟨lo, hi, .inr ⟨lo', hi', ?_⟩⟩
    rw [hcs]
    simp
  · exact ⟨lo, hi, .inl rfl⟩

/-! ### Dump (45_access.md R290) -/

/-- A block's mask bit is set by its own read only. -/
theorem dumpPut_mask {n m : Nat} {x : Status × List Byte × Regs} {acc : DumpAcc}
    (h : (dumpPut n x acc).mask.getLsbD m = true) : acc.mask.getLsbD m = true ∨ m = n := by
  unfold dumpPut at h
  split at h
  · simp only [BitVec.getLsbD_or, Bool.or_eq_true] at h
    refine h.imp_right fun hbit => ?_
    simp only [BitVec.getLsbD_shiftLeft, BitVec.getLsbD_one, Bool.and_eq_true, decide_eq_true_eq, Bool.not_eq_true',
      decide_eq_false_iff_not] at hbit
    omega
  · exact .inl h

/-- One block sends its authentication frame and, if at all, its read frame: where its mask bit is set, it does. -/
theorem fills_block (mode : Byte) (key uid : List Byte) (n : Nat) (acc : DumpAcc) :
    Fills ((authCore c mode n key uid acc.regs).bind (readIfAuthed c n acc)) fun bs acc' => ∃ read,
      bs = dumpFrames c mode key uid n read ∧
        ∀ m, acc'.mask.getLsbD m = true → acc.mask.getLsbD m = true ∨ (m = n ∧ read ≠ none) := by
  refine fills_bind (fills_authCore _ _ _ _ _) fun bs a hbs => ?_
  subst hbs
  unfold readIfAuthed
  split
  · refine fills_bind (fills_readCore _ _) fun cs x ⟨lo, hi, hcs⟩ => ⟨some (lo, hi), ?_, fun m hm => ?_⟩
    · simp [hcs, dumpFrames]
    · exact (dumpPut_mask hm).imp_right fun hmn => ⟨hmn, nofun⟩
  · exact ⟨none, rfl, fun m hm => .inl hm⟩

/-- Block after block: the frames of each in order, and a mask bit that is newly set is that of a block that was read. -/
theorem fills_dumpBlocks (mode : Byte) (key uid : List Byte) (ns : List Nat) (acc : DumpAcc) :
    Fills (dumpBlocks c mode key uid ns acc) fun bs acc' => ∃ reads : List (Option (Byte × Byte)), reads.length = ns.length ∧
      bs = (reads.zip ns).flatMap (fun x => dumpFrames c mode key uid x.2 x.1) ∧
      ∀ m, acc'.mask.getLsbD m = true → acc.mask.getLsbD m = true ∨ ∃ read, read ≠ none ∧ (read, m) ∈ reads.zip ns := by
  induction ns generalizing acc with
  | nil => exact ⟨[], rfl, rfl, fun m hm => .inl hm⟩
  | cons n ns ih =>
    rw [dumpBlocks_cons]
    refine fills_bind (fills_block mode key uid n acc) fun bs acc1 ⟨read, hbs, hmask1⟩ =>
      fills_mono (ih acc1) fun cs acc2 ⟨reads, hlen, hcs, hmask2⟩ => ⟨read :: reads, by simp [hlen], by simp [hbs, hcs], ?_⟩
    intro m hm
    rcases hmask2 m hm with h1 | ⟨read', hne, hmem⟩
    · rcases hmask1 m h1 with h0 | ⟨rfl, hne⟩
      · exact .inl h0
      · exact .inr ⟨read, hne, List.mem_cons_self⟩
    · exact .inr ⟨read', hne, List.mem_cons_of_mem _ hmem⟩

/-- A dump sends the frames of blocks 0 to 63 in order, with the read frame at least where the block's mask bit ends up set. -/
theorem fills_dumpProg (mode : Byte) (key uid : List Byte) :
    Fills (dumpProg c mode (ints key) (ints uid) r) fun bs r' => ∃ reads : List (Option (Byte × Byte)), reads.length = 64 ∧
      bs = reads.zipIdx.flatMap (fun x => dumpFrames c mode key uid x.2 x.1) ∧
      ∀ n (h : n < reads.length), r'.dumpMask.value.getLsbD n = true → reads[n] ≠ none := by
  rw [dumpProg_eq]
  refine fills_bind (fills_dumpBlocks mode key uid (List.range 64) (dumpStart r)) fun bs acc ⟨reads, hlen, hbs, hmask⟩ => ?_
  have hzip : reads.zip (List.range 64) = reads.zipIdx := by
    rw [List.zipIdx_eq_zip_range', hlen, List.length_range, List.range_eq_range']
  rw [hzip] at hbs hmask
  refine ⟨reads, by simpa using hlen, by simpa using hbs, fun n hn hbit => ?_⟩
  rcases hmask n hbit with h0 | ⟨read, hne, hmem⟩
  · simp [dumpStart] at h0
  · rw [List.mem_zipIdx_iff_getElem?, List.getElem?_eq_getElem hn] at hmem
    rwa [Option.some.inj hmem]

/-! ### The frames of every sequencer operation -/

/-- Settles O47: the frames of an accepted operation are those of its program (`exec_fills`). -/
theorem sequencerFrames : Obligations.SequencerFrames := by
  intro s t i new hready h hdone htrace
  have frames : ∀ {Q : List Byte → Regs → Prop}, Fills (planOf i s.cfg s.regs).prog Q → Q (fillBytes new) t.regs :=
    fun hQ => exec_fills hready h hdone htrace hQ
  refine ⟨?_, ?_, ?_, ?_, ?_, ?_, ?_, ?_, ?_⟩
  · rintro rfl
    exact frames (fills_requestProg _)
  · rintro rfl
    exact frames (fills_requestProg _)
  · rintro rfl
    exact frames fills_antiCollProg
  · rintro uid rfl
    simpa using frames (fills_selectProg _)
  · rintro blk key uid rfl
    simpa using frames (fills_authProg _ _ _ _)
  · rintro blk key uid rfl
    simpa using frames (fills_authProg _ _ _ _)
  · rintro blk rfl
    exact frames (fills_then_done (fills_readCore _ _))
  · rintro blk data rfl
    simpa using frames (fills_writeProg _ _)
  · rintro mode key uid (⟨rfl, rfl⟩ | ⟨rfl, rfl⟩)
    · exact frames (fills_dumpProg _ key uid)
    · exact frames (fills_dumpProg _ key uid)

end Sys2Proof.Machine
end

section
/-! SUPPORT. The value-type operations (40_value_types.md): one that passes its checks makes no transfer and flags no violation
(R23), so it leaves its program's registers and OUTCOME = DONE. -/

namespace Sys2Proof.Machine

variable {s : State}

/-- An accepted operation with no transfer and no violation changes the registers and OUTCOME only. -/
theorem exec_instant (hready : s.Ready) {i : Instr} {r : Regs} (hreject : (planOf i s.cfg s.regs).reject = none)
    (hviolates : (planOf i s.cfg s.regs).violates = false) (hprog : (planOf i s.cfg s.regs).prog = .done r) :
    exec i s = .next { s with outcome := .put .done, regs := r } := by
  rw [exec_complete hready hreject, complete_eq, hprog, hviolates, Bool.or_false, ← hready.2]
  rfl

/-! ### MKADDR (R120, R125) -/

/-- MKADDR writes BLKADDR = s * NUM_BLOCKS + k, and the source has 4 blocks to a sector. -/
theorem mkaddr_prog {c : Params} (hs : c.source = {}) (sec k : Int) (r : Regs) :
    (planMkaddr sec k c r).prog = .done { r with blkAddr := .put (4 * sec + k).toNat } := by
  have hblocks : (c.source.numBlocks : Int) = 4 := by rw [hs]; rfl
  simp only [planMkaddr, hblocks, Int.mul_comm sec]

theorem exec_mkaddr_inRange (hready : s.Ready) {sec k : Int} (hsec : 0 ≤ sec ∧ sec ≤ 15) (hk : 0 ≤ k ∧ k ≤ 3) :
    exec (.mkaddr sec k) s = .next { s with
      outcome := .put .done, regs := { s.regs with blkAddr := .put (4 * sec + k).toNat } } := by
  have hs := source_of_legal hready.1
  have hcheck : (checkSector s.cfg sec).or (checkBlockIn s.cfg k) = none := by
    rw [checkSector_ok hs hsec, checkBlockIn_ok hs hk, Option.none_or]
  exact exec_instant hready hcheck rfl (mkaddr_prog hs sec k s.regs)

/-- Settles O20: the sector is checked first, then the block; a pair in range is at its flat address. -/
theorem mkaddrComputesFlatAddress : Obligations.MkaddrComputesFlatAddress := by
  intro st sec k hready
  have hs := source_of_legal hready.1
  refine ⟨fun hs0 hs15 hk0 hk3 => exec_mkaddr_inRange hready ⟨hs0, hs15⟩ ⟨hk0, hk3⟩,
    fun hbad => exec_reject hready ?_, fun hs0 hs15 hbad => exec_reject hready ?_⟩
  · show (checkSector st.cfg sec).or (checkBlockIn st.cfg k) = some .eSector
    rw [checkSector_bad hs hbad, Option.some_or]
  · show (checkSector st.cfg sec).or (checkBlockIn st.cfg k) = some .eBlock
    rw [checkSector_ok hs ⟨hs0, hs15⟩, checkBlockIn_bad hs hbad, Option.none_or]

/-- Settles O19: division by 4 gives back the pair, and MKADDR of an address's quotient and remainder is that address. -/
theorem flatAddressesDistinct : Obligations.FlatAddressesDistinct := by
  refine ⟨fun sec k hsec hk => ⟨by omega, by omega, by omega⟩, fun st a hready ha => ?_⟩
  have haddr : (4 * ((a / 4 : Nat) : Int) + (a % 4 : Nat)).toNat = a := by omega
  have hexec := exec_mkaddr_inRange hready (sec := (a / 4 : Nat)) (k := (a % 4 : Nat)) (by omega) (by omega)
  rwa [haddr] at hexec

/-! ### MKUID, MKKEY, MKDATA (R121 to R124) -/

/-- The checksum of an identity is the XOR of its first four bytes. -/
theorem validUid_five (d0 d1 d2 d3 c : Byte) : validUid [d0, d1, d2, d3, c] = decide (c = d0 ^^^ d1 ^^^ d2 ^^^ d3) := rfl

/-- Settles O21: five bytes pass the check, and ID_VALID is the validity of the bytes written to ID. -/
theorem mkuidMarksValidity : Obligations.MkuidMarksValidity := by
  intro s d0 d1 d2 d3 c hready
  refine exec_instant hready (checkUid_ints (source_of_legal hready.1) rfl) rfl ?_
  simp only [planOf, planMkuid, toBytes_ints, validUid_five]

/-- Settles O22: a list of the right length passes its check, and the program ends in the registers it began with. -/
theorem mkkeyMkdataWriteNothing : Obligations.MkkeyMkdataWriteNothing := by
  intro s bs hready
  have hs := source_of_legal hready.1
  exact ⟨fun hlen => exec_instant hready (checkKey_ints hs hlen) rfl rfl,
    fun hlen => exec_instant hready (checkData_ints hs hlen) rfl rfl⟩

end Sys2Proof.Machine
end

section
/-! SUPPORT. The four register operations of the host (41_register_port.md): an address out of range rejects each; one that
passes its checks makes the transfers of its helper (R140 to R143) and writes what its program ends in. -/

namespace Sys2Proof.Machine

variable {s : State}

/-- Settles O14: the address is the first check of all four, and it fails with E_REG_ADDR. -/
theorem registerAddressRejected : Obligations.RegisterAddressRejected := by
  intro s a v hready ha i hi
  have hreg : checkReg s.cfg a = some .eRegAddr := checkReg_bad ha
  have hboth : (checkReg s.cfg a).or (checkByte v) = some .eRegAddr := by rw [hreg, Option.some_or]
  refine exec_reject hready ?_
  rcases hi with rfl | rfl | rfl | rfl
  · exact hreg
  · exact hboth
  · exact hboth
  · exact hboth

/-- An accepted operation that flags no violation and keeps the working registers changes the registers, OUTCOME and the bus
only. -/
theorem exec_of_run (hready : s.Ready) {i : Instr} {q : Port} {r : Regs} (hreject : (planOf i s.cfg s.regs).reject = none)
    (hviolates : (planOf i s.cfg s.regs).violates = false)
    (hrun : (planOf i s.cfg s.regs).prog.run s.cfg s.port s.work = ⟨q, s.work, r⟩) :
    exec i s = .next { s with outcome := .put .done, regs := r, port := q } := by
  rw [exec_complete hready hreject, complete_eq, hrun, hviolates, Bool.or_false, ← hready.2]

/-- A register address in range passes its check. -/
theorem checkReg_natCast {c : Params} {a : Nat} (h : a ≤ c.regAddrMax) : checkReg c a = none :=
  checkReg_ok ⟨Int.natCast_nonneg a, Int.ofNat_le.2 h⟩

/-- A register address in range and a byte pass their checks. -/
theorem checkReg_or_byteVal {c : Params} {a : Nat} (h : a ≤ c.regAddrMax) (v : Byte) :
    (checkReg c a).or (checkByte (byteVal v)) = none := by
  rw [checkReg_natCast h, checkByte_byteVal, Option.none_or]

/-- Settles O24: the run is one read, and its answer goes to REG_VAL. -/
theorem rdregReadsOnce : Obligations.RdregReadsOnce := by
  intro s a hready ha
  refine exec_of_run hready (checkReg_natCast ha) rfl ?_
  simp only [planOf, planRdreg, run_bind, run_regRead, run_done, Int.toNat_natCast]

/-- Settles O25: the run is one write of the byte the operand is. -/
theorem wrregWritesOnce : Obligations.WrregWritesOnce := by
  intro s a v hready ha
  refine exec_of_run hready (checkReg_or_byteVal ha v) rfl ?_
  simp only [planOf, planWrreg, run_bind, run_regWrite, run_done, Int.toNat_natCast, toByte_byteVal]

/-- Settles O26: the run is that of SetBits (R142). -/
theorem setbitsReadsThenWrites : Obligations.SetbitsReadsThenWrites := by
  intro s a m hready ha
  refine exec_of_run hready (checkReg_or_byteVal ha m) rfl ?_
  simp only [planOf, planSetbits, run_bind, run_setBits, run_done, Int.toNat_natCast, toByte_byteVal]

/-- Settles O27: the run is that of ClearBits (R143). -/
theorem clrbitsReadsThenWrites : Obligations.ClrbitsReadsThenWrites := by
  intro s a m hready ha
  refine exec_of_run hready (checkReg_or_byteVal ha m) rfl ?_
  simp only [planOf, planClrbits, run_bind, run_clearBits, run_done, Int.toNat_natCast, toByte_byteVal]

end Sys2Proof.Machine
end

section
/-! SUPPORT. Transport failures steer nothing (41_register_port.md R144): two bus interfaces that differ in their failures
alone answer a program alike, transfer by transfer, and differ in their failures alone after it. -/

namespace Sys2Proof.Machine

/-- The bus interfaces give the same answers, have counted the same transfers and seen the same bytes: they differ, if at
all, in the failures to come, the failure marks and XFER_FAILS. -/
structure Port.SameButFailures (p q : Port) : Prop where
  answers : p.answers = q.answers
  count : p.count = q.count
  content : p.trace.map Xfer.content = q.trace.map Xfer.content

section Transfers

variable {p q : Port}

/-- The answer to a read does not depend on failures. -/
theorem Port.SameButFailures.drawAnswer (h : p.SameButFailures q) : drawAnswer p = drawAnswer q := by
  unfold Machine.drawAnswer
  rw [h.answers, h.count]

theorem Port.SameButFailures.portRead (h : p.SameButFailures q) (c : Params) (st : Stage) (a : Nat) :
    (portRead c st a p).SameButFailures (portRead c st a q) where
  answers := congrArg List.tail h.answers
  count := congrArg (· + 1) h.count
  content := by simp [Xfer.content, h.drawAnswer, h.content]

theorem Port.SameButFailures.portWrite (h : p.SameButFailures q) (c : Params) (st : Stage) (a : Nat) (v : Byte) :
    (portWrite c st a v p).SameButFailures (portWrite c st a v q) where
  answers := h.answers
  count := congrArg (· + 1) h.count
  content := by simp [Xfer.content, h.content]

/-- A program ends in the same value and working registers, and its transfers differ in their failure marks alone. -/
theorem run_sameButFailures {α : Type} (c : Params) (x : Prog α) (h : p.SameButFailures q) (w : Work) :
    (x.run c p w).port.SameButFailures (x.run c q w).port ∧ (x.run c p w).work = (x.run c q w).work ∧
      (x.run c p w).val = (x.run c q w).val := by
  induction x generalizing p q w with
  | done a => exact ⟨h, rfl, rfl⟩
  | read st r k ih =>
    rw [run_read, run_read, h.drawAnswer]
    exact ih _ (h.portRead c st r) w
  | write st r v k ih => exact ih (h.portWrite c st r v) w
  | work f k ih => exact ih h (f w)

end Transfers

/-- Serving a plan over a bus interface that differs in its failures leaves a state that differs in them alone. -/
theorem serve_sameButFailures (p : Plan) (s : State) {q : Port} (h : q.SameButFailures s.port) :
    ∃ q', q'.SameButFailures (serve p s).port ∧ serve p { s with port := q } = { serve p s with port := q' } := by
  rcases serve_cases p s with ⟨op, n, vs, hp, heq⟩ | ⟨code, hp, hr, heq⟩ | ⟨hp, hr, heq⟩
  · rw [heq, serve_busy (s := { s with port := q }) hp]
    exact ⟨q, h, rfl⟩
  · rw [heq, serve_reject (s := { s with port := q }) hp hr]
    exact ⟨q, h, rfl⟩
  · rw [heq, serve_complete (s := { s with port := q }) hp hr]
    obtain ⟨hport, hwork, hval⟩ := run_sameButFailures s.cfg p.prog h s.work
    exact ⟨_, hport, by rw [complete_eq, complete_eq, hwork, hval]⟩

/-- Settles O56: the plan is the same, and serving it over the other failures changes nothing but failures. -/
theorem transportFailuresDoNotSteer : Obligations.TransportFailuresDoNotSteer := by
  intro i s t fails n h
  obtain ⟨hl, rfl⟩ := exec_next h
  obtain ⟨q, hq, heq⟩ := serve_sameButFailures (planOf i s.cfg s.regs) s
    (q := { s.port with fails := fails, xferFails := n }) ⟨rfl, rfl, rfl⟩
  refine ⟨_, exec_legal (s := { s with port := { s.port with fails := fails, xferFails := n } }) hl i, ?_⟩
  rw [heq]
  exact ⟨rfl, rfl, rfl, rfl, rfl, hq.answers, hq.count, hq.content⟩

end Sys2Proof.Machine
end

section
/-! SUPPORT. The host operation CALCCRC (42_crc_engine.md R165): accepted, it writes the result of one CRC run to CRC_BUF;
the run itself is that of `says_crc` (R160 to R164) against a script, and of `crc_ends` and `crc_work` against any chip. -/

namespace Sys2Proof.Machine

/-- CALCCRC of at least two bytes leaves the CRC run's result, working registers and bus, and else only OUTCOME changes. -/
theorem exec_calccrc {s : State} (hready : s.Ready) {buf : List Byte} (hlen : 2 ≤ buf.length) :
    exec (.calccrc (ints buf)) s = .next { s with
      outcome := .put .done
      regs := { s.regs with crcBuf := .put ((crc s.cfg buf).run s.cfg s.port s.work).val }
      work := ((crc s.cfg buf).run s.cfg s.port s.work).work
      port := ((crc s.cfg buf).run s.cfg s.port s.work).port } := by
  rw [exec_complete (i := .calccrc _) hready (checkBuf_ints hlen), complete_eq]
  simp only [planOf, planCalccrc, toBytes_ints, run_bind, run_done, Bool.or_false]
  rw [← hready.2]

/-- A scripted CRC run over `body` makes 7 transfers besides the writes of `body` and the polls (R160 to R163). -/
theorem CrcScript.log_length (c : Params) (k : CrcScript) (body : List Byte) :
    (k.log c body).length = 7 + body.length + (k.quiet.length + 1) := by
  simp only [CrcScript.log, rmwLog, List.length_append, List.length_map, List.length_cons, List.length_nil]
  omega

/-- Settles O28: the run is that of the script (`says_crc`), and its transfers are as many as its log is long. -/
theorem calccrcAgainstChip : Obligations.CalccrcAgainstChip := by
  intro s buf rest k hready hlen hok hanswers
  obtain ⟨hval, hwork, hrest, hlog⟩ := says_crc hok buf rest s.port s.work hanswers
  refine ⟨_, exec_calccrc hready hlen, by rw [hval, hwork], hrest, hlog, ?_⟩
  have hcount := count_of_log (run_port s.cfg (crc s.cfg buf) s.port s.work) hlog
  rw [k.log_length, List.length_take] at hcount
  exact hcount.trans (by omega)

/-- Settles O29: a CRC run replaces the last two bytes (`crc_ends`) and writes the CRC working registers only
(`crc_work`), whatever the chip answers. -/
theorem calccrcCompletes : Obligations.CalccrcCompletes := by
  intro s buf hready hlen
  obtain ⟨lo, hi, hval⟩ := ends_run (crc_ends buf) s.cfg s.port s.work
  refine ⟨_, lo, hi, exec_calccrc hready hlen, ?_⟩
  rw [hval, ← crc_work]

end Sys2Proof.Machine
end

section
/-! SUPPORT. The host operation EXEC (43_command_channel.md R195): accepted, it leaves what one dispatch leaves (`exec_exec`).
Against a script the dispatch is that of `says_dispatch_ok`, `says_dispatch_exhausted` or `says_dispatch_error`. -/

namespace Sys2Proof.Machine

variable {c : Params} {s : State} {cmd : Byte} {out : List Byte}

/-- The run of the dispatch that EXEC makes (R195). -/
def dispatchRun (s : State) (cmd : Byte) (out : List Byte) : Ran Reply := (dispatch s.cfg cmd out).run s.cfg s.port s.work

/-- EXEC of bytes leaves the dispatch's reply, working registers and bus, and else only OUTCOME changes. -/
theorem exec_exec (hready : s.Ready) (cmd : Byte) (out : List Byte) :
    exec (.exec (byteVal cmd) (ints out)) s = .next { s with
      outcome := .put .done
      regs := { putReply s.regs (dispatchRun s cmd out).val with status := .put (dispatchRun s cmd out).val.status }
      work := (dispatchRun s cmd out).work
      port := (dispatchRun s cmd out).port } := by
  have hcheck : (checkByte (byteVal cmd)).or (checkElems (ints out)) = none := by
    rw [checkByte_byteVal, checkElems_ints, Option.none_or]
  rw [exec_complete (i := .exec _ _) hready hcheck, complete_eq]
  simp only [planOf, planExec, toByte_byteVal, toBytes_ints, run_bind, run_done, Bool.or_false]
  rw [← hready.2]
  rfl

/-- Settles O33: EXEC leaves what its dispatch leaves (`exec_exec`), which keeps the CRC working registers
(`dispatch_work`). -/
theorem execCompletes : Obligations.ExecCompletes := by
  intro s cmd out hready d
  obtain ⟨hcnt, hremain⟩ := dispatch_work (c := s.cfg) cmd out s.port s.work
  rw [exec_exec hready, ← hcnt, ← hremain]
  rfl

/-! ### Against a script (R187 to R194) -/

/-- EXEC whose dispatch runs as scripted; its transfers are as many as the log is long. -/
theorem exec_says (hready : s.Ready) {answers rest : List Byte} {log : List BusOp} {d : Reply} {upd : Work → Work}
    (hsays : Says s.cfg (dispatch s.cfg cmd out) answers log d upd) (hanswers : s.port.answers = answers ++ rest) :
    ∃ t, exec (.exec (byteVal cmd) (ints out)) s = .next t ∧
      t = { s with
        outcome := .put .done
        regs := { putReply s.regs d with status := .put d.status }
        work := upd s.work
        port := t.port } ∧
      t.port.answers = rest ∧ busLog t.port = busLog s.port ++ log ∧ t.port.count = s.port.count + log.length := by
  obtain ⟨hval, hwork, hrest, hlog⟩ := hsays rest s.port s.work hanswers
  refine ⟨_, exec_exec hready cmd out, ?_, hrest, hlog, count_of_log (run_port ..) hlog⟩
  simp only [dispatchRun, hval, hwork]

/-- The result registers after a dispatch without readback (R181, R187, R188). -/
theorem putReply_cleared (hs : c.source = {}) (r : Regs) (st : Status) :
    { putReply r (clearedReply c st) with status := .put (clearedReply c st).status } =
      { r with status := .put st, resp := .put (zeros 16), respLen := .put 0, respBits := .put 0 } := by
  simp only [putReply, clearedReply, hs]

/-- The status of a successful dispatch is by the timer bit, whatever its kind (R189). -/
theorem DispatchScript.reply_status (kd : Kind) (x : DispatchScript) :
    (x.reply c kd).status = timerStatus c (irqEnOf c kd) x.stop := by
  unfold DispatchScript.reply
  split <;> rfl

/-- The transfers up to the final clear of start-send: 10 for TRANSCEIVE and 8 otherwise, besides the interrupt-enable
write, the frame and the polls (R194). -/
theorem DispatchScript.pollLog_length (kd : Kind) (cmd : Byte) (out : List Byte) (x : DispatchScript) :
    (x.pollLog c kd cmd out).length = (if c.policy.writeIrqEnable then 1 else 0) + out.length + (x.quiet.length + 1) +
      (if kd = .transceive then 10 else 8) := by
  simp only [DispatchScript.pollLog, rmwLog, List.length_append, List.length_map, List.length_cons, List.length_nil,
    apply_ite List.length]
  split <;> split <;> omega

/-- The transfers after the final clear: the error read, and for TRANSCEIVE the level, the valid-bit count and the bytes
(R194). -/
theorem DispatchScript.log_length (kd : Kind) (cmd : Byte) (out : List Byte) (x : DispatchScript) :
    (x.log c kd cmd out).length = (x.pollLog c kd cmd out).length + (if kd = .transceive then 3 + x.fifo.length else 1) := by
  unfold DispatchScript.log
  split
  · simp only [List.length_append, List.length_cons, List.length_map]; omega
  · simp

/-- Settles O30: the dispatch is that of `says_dispatch_ok`, and its transfers are counted by the length of its log. -/
theorem execSucceedsAgainstChip : Obligations.ExecSucceedsAgainstChip := by
  intro s cmd out rest x hready ⟨hstops, hclean, hfifo⟩ hanswers
  obtain ⟨t, hexec, ht, hrest, hlog, hcount⟩ :=
    exec_says hready (says_dispatch_ok _ cmd out x rfl hstops hclean fun _ => hfifo) hanswers
  rw [DispatchScript.reply_status] at ht
  rw [DispatchScript.log_length, DispatchScript.pollLog_length, hfifo] at hcount
  refine ⟨t, hexec, ht, hrest, hlog, ?_⟩
  by_cases htrx : selectKind s.cfg cmd = .transceive
  · simp only [htrx, if_true] at hcount ⊢; omega
  · simp only [htrx, if_false] at hcount ⊢; omega

/-- Settles O31: the dispatch is that of `says_dispatch_exhausted`, with POLL_LIMIT polls. -/
theorem execExhaustsAgainstChip : Obligations.ExecExhaustsAgainstChip := by
  intro s cmd out rest x hready hlimit hquiet hanswers
  obtain ⟨t, hexec, ht, hrest, hlog, hcount⟩ :=
    exec_says hready (says_dispatch_exhausted _ cmd out x rfl hlimit hquiet) hanswers
  rw [putReply_cleared (source_of_legal hready.1)] at ht
  rw [DispatchScript.pollLog_length, hlimit] at hcount
  exact ⟨t, hexec, ht, hrest, hlog, by omega⟩

/-- Settles O32: the dispatch is that of `says_dispatch_error`, which ends with the error read. -/
theorem execErrorBitFails : Obligations.ExecErrorBitFails := by
  intro s cmd out rest x hready hstops herror hanswers
  obtain ⟨t, hexec, ht, hrest, hlog, -⟩ :=
    exec_says hready (rest := rest) (says_dispatch_error _ cmd out x rfl hstops herror) (hanswers.trans (by simp))
  rw [putReply_cleared (source_of_legal hready.1)] at ht
  exact ⟨t, hexec, ht, hrest, by rw [hlog, List.append_assoc]⟩

end Sys2Proof.Machine
end

section
/-! SUPPORT. The phases of a dispatch in order, whatever the chip answers (43_command_channel.md R196): `Stages c x Q` says that
the stages of the transfers `x` makes and the value it ends in are always in `Q`; one lemma per part of a dispatch. -/

namespace Sys2Proof.Machine

variable {α β : Type} {c : Params}

/-- The stages of the transfers seen so far, in the order they were made. -/
def stageLog (p : Port) : List Stage := p.trace.reverse.map Xfer.stage

@[simp] theorem stageLog_portRead (st : Stage) (a : Nat) (p : Port) : stageLog (portRead c st a p) = stageLog p ++ [st] := by
  simp [stageLog, Xfer.stage]

@[simp] theorem stageLog_portWrite (st : Stage) (a : Nat) (v : Byte) (p : Port) :
    stageLog (portWrite c st a v p) = stageLog p ++ [st] := by
  simp [stageLog, Xfer.stage]

/-- Whatever the chip answers, the stages of the program's transfers, in order, and the value it ends in are in `Q`. -/
def Stages (c : Params) (x : Prog α) (Q : List Stage → α → Prop) : Prop :=
  ∀ p w, ∃ l, stageLog (x.run c p w).port = stageLog p ++ l ∧ Q l (x.run c p w).val

theorem Stages.mono {x : Prog α} {P Q : List Stage → α → Prop} (h : Stages c x P) (hpq : ∀ l a, P l a → Q l a) :
    Stages c x Q := by
  intro p w
  obtain ⟨l, hlog, hl⟩ := h p w
  exact ⟨l, hlog, hpq l _ hl⟩

/-- Two programs in sequence. -/
theorem Stages.bind {x : Prog α} {f : α → Prog β} {P : List Stage → α → Prop} {Q : List Stage → β → Prop}
    (h : Stages c x P) (hf : ∀ l a, P l a → Stages c (f a) fun m b => Q (l ++ m) b) : Stages c (x.bind f) Q := by
  intro p w
  obtain ⟨l, hlog, hl⟩ := h p w
  obtain ⟨m, hlog', hm⟩ := hf l _ hl (x.run c p w).port (x.run c p w).work
  rw [run_bind]
  exact ⟨l ++ m, by rw [hlog', hlog, List.append_assoc], hm⟩

theorem stages_done {Q : List Stage → α → Prop} {a : α} (h : Q [] a) : Stages c (.done a) Q :=
  fun p _ => ⟨[], (List.append_nil (stageLog p)).symm, h⟩

/-- The program makes transfers of the stages `l`, in order, whatever the chip answers. -/
abbrev Staged (c : Params) (x : Prog α) (l : List Stage) : Prop := Stages c x fun m _ => m = l

/-- A program of known stages first. -/
theorem Staged.followedBy {x : Prog α} {f : α → Prog β} {l : List Stage} {Q : List Stage → β → Prop}
    (h : Staged c x l) (hf : ∀ a, Stages c (f a) fun m b => Q (l ++ m) b) : Stages c (x.bind f) Q :=
  h.bind fun m a hm => by subst hm; exact hf a

theorem staged_setWork (f : Work → Work) : Staged c (setWork f) [] := fun p _ => ⟨[], by simp, rfl⟩
theorem staged_regRead (st : Stage) (a : Nat) : Staged c (regRead st a) [st] := fun p _ => ⟨[st], by simp, rfl⟩
theorem staged_regWrite (st : Stage) (a : Nat) (v : Byte) : Staged c (regWrite st a v) [st] :=
  fun p _ => ⟨[st], by simp, rfl⟩
theorem staged_setBits (st : Stage) (a : Nat) (m : Byte) : Staged c (setBits st a m) [st, st] :=
  (staged_regRead st a).followedBy fun v => (staged_regWrite st a (v ||| m)).mono fun _ _ h => by rw [h]; rfl
theorem staged_clearBits (st : Stage) (a : Nat) (m : Byte) : Staged c (clearBits st a m) [st, st] :=
  (staged_regRead st a).followedBy fun v => (staged_regWrite st a (v &&& ~~~m)).mono fun _ _ h => by rw [h]; rfl

theorem staged_writeAll (st : Stage) (a : Nat) (bs : List Byte) :
    Staged c (writeAll st a bs) (List.replicate bs.length st) := by
  induction bs with
  | nil => exact stages_done rfl
  | cons b bs ih => exact (staged_regWrite st a b).followedBy fun _ => ih.mono fun _ _ h => by rw [h]; rfl

theorem staged_readMany (st : Stage) (a n : Nat) : Staged c (readMany st a n) (List.replicate n st) := by
  induction n with
  | zero => exact stages_done rfl
  | succ n ih =>
    exact (staged_regRead st a).followedBy fun _ => ih.followedBy fun _ =>
      stages_done (by simp [List.replicate_succ])

/-! ### The phases -/

theorem staged_dispatchSetup (kd : Kind) :
    Staged c (dispatchSetup c kd) (List.replicate ((if c.policy.writeIrqEnable then 1 else 0) + 5) .setup) := by
  have henable : Staged c
      (if c.policy.writeIrqEnable then regWrite .setup c.reg.comIEn (irqEnOf c kd ||| c.mask.irqInv) else .done ())
      (List.replicate (if c.policy.writeIrqEnable then 1 else 0) .setup) := by
    split
    · exact staged_regWrite _ _ _
    · exact stages_done rfl
  refine (staged_setWork _).followedBy fun _ => henable.followedBy fun _ => (staged_clearBits _ _ _).followedBy fun _ =>
    (staged_setBits _ _ _).followedBy fun _ => (staged_regWrite _ _ _).mono fun l _ hl => ?_
  rw [hl, List.replicate_add]
  rfl

theorem staged_dispatchIssue (kd : Kind) (cmd : Byte) (out : List Byte) :
    Staged c (dispatchIssue c kd cmd out)
      (List.replicate out.length .fill ++ List.replicate (if kd = .transceive then 3 else 1) .issue) := by
  refine (staged_writeAll _ _ out).followedBy fun _ => (staged_regWrite _ _ _).followedBy fun _ => ?_
  split
  · exact (staged_setBits _ _ _).mono fun l _ hl => by rw [hl]; rfl
  · exact stages_done rfl

/-- From n ≥ 1 on, the loop makes between 1 and n polls, and CNT counts those left (R185). -/
theorem stages_dispatchPollLoop (wait : Byte) (n : Nat) (last : Byte) (hn : 1 ≤ n) :
    Stages c (dispatchPollLoop c wait n last) fun l x => ∃ k, 1 ≤ k ∧ k + x.1 = n ∧ l = List.replicate k .poll := by
  induction n generalizing last with
  | zero => omega
  | succ n ih =>
    refine (staged_regRead .poll c.reg.comIrq).followedBy fun v => (staged_setWork _).followedBy fun _ => ?_
    split
    case isTrue => exact stages_done ⟨1, by omega, by omega, rfl⟩
    case isFalse hgo =>
      refine (ih v (by omega)).mono fun l x ⟨k, hk, hsum, hl⟩ => ⟨k + 1, by omega, by omega, ?_⟩
      rw [hl]
      rfl

theorem stages_dispatchPoll (wait : Byte) (hlimit : 1 ≤ c.pollLimit) :
    Stages c (dispatchPoll c wait) fun l x => ∃ k, 1 ≤ k ∧ k + x.1 = c.pollLimit ∧ l = List.replicate k .poll :=
  (staged_setWork _).followedBy fun _ => (stages_dispatchPollLoop wait c.pollLimit 0 hlimit).bind fun l x hx =>
    (staged_setWork _).followedBy fun _ => stages_done (by simpa using hx)

theorem stages_dispatchReadback (st : Status) :
    Stages c (dispatchReadback c st) fun l d => l = List.replicate (2 + d.len) .readback := by
  refine (staged_regRead _ _).followedBy fun f => (staged_regRead _ _).followedBy fun v =>
    (staged_readMany _ _ _).followedBy fun bs => stages_done ?_
  rw [List.replicate_add, List.append_nil]
  rfl

/-- ERRCHK, and a READBACK for TRANSCEIVE only (R188, R190, R192, R199). -/
theorem stages_dispatchResult (kd : Kind) (last : Byte) :
    Stages c (dispatchResult c kd last) fun l d =>
      ∃ r, (r = 0 ∨ kd = .transceive ∧ r = 2 + d.len) ∧ l = .errchk :: List.replicate r .readback := by
  refine (staged_regRead _ _).followedBy fun e => ?_
  split
  · exact stages_done ⟨0, .inl rfl, rfl⟩
  · split
    case isTrue htrx =>
      exact (stages_dispatchReadback _).mono fun l d hl => ⟨2 + d.len, .inr ⟨htrx, rfl⟩, by rw [hl]; rfl⟩
    case isFalse => exact stages_done ⟨0, .inl rfl, rfl⟩

/-- The stages of a dispatch of `p` polls and `r` readback transfers (R196). -/
def dispatchStages (c : Params) (kd : Kind) (out : List Byte) (p r : Nat) : List Stage :=
  List.replicate ((if c.policy.writeIrqEnable then 1 else 0) + 5) .setup ++ List.replicate out.length .fill ++
  List.replicate (if kd = .transceive then 3 else 1) .issue ++ List.replicate p .poll ++ List.replicate 2 .finish ++
  (if p = c.pollLimit then [] else .errchk :: List.replicate r .readback)

/-- The phases of a dispatch: ERRCHK and READBACK follow exactly where the poll did not exhaust (R187, R196). -/
theorem stages_dispatch (hlimit : 1 ≤ c.pollLimit) (cmd : Byte) (out : List Byte) :
    Stages c (dispatch c cmd out) fun l d => ∃ p r, 1 ≤ p ∧ p ≤ c.pollLimit ∧
      (r = 0 ∨ selectKind c cmd = .transceive ∧ r = 2 + d.len) ∧ l = dispatchStages c (selectKind c cmd) out p r := by
  refine (staged_dispatchSetup _).followedBy fun _ => (staged_dispatchIssue _ _ _).followedBy fun _ =>
    (stages_dispatchPoll _ hlimit).bind fun l x ⟨p, hp, hsum, hl⟩ => (staged_clearBits _ _ _).followedBy fun _ => ?_
  subst hl
  split
  case isTrue h0 =>
    refine stages_done ⟨p, 0, hp, by omega, .inl rfl, ?_⟩
    have hend : p = c.pollLimit := by omega
    simp [dispatchStages, hend]
  case isFalse h0 =>
    refine (stages_dispatchResult _ _).mono fun l d ⟨r, hr, hl⟩ => ⟨p, r, hp, by omega, hr, ?_⟩
    have hend : p ≠ c.pollLimit := by omega
    simp [dispatchStages, hend, hl]

/-- Settles O34: the transfers EXEC adds are those of its dispatch, whose stages are those of `stages_dispatch`. -/
theorem dispatchPhasesInOrder : Obligations.DispatchPhasesInOrder := by
  intro s cmd out hready
  obtain ⟨l, hlog, p, r, hp, hlimit, hr, hl⟩ :=
    stages_dispatch (bounds_of_legal hready.1).1 cmd out s.port s.work
  obtain ⟨⟨new, htrace, -⟩, -, -⟩ := run_port s.cfg (dispatch s.cfg cmd out) s.port s.work
  have hstages : new.reverse.map Xfer.stage = l := by
    simpa [stageLog, htrace] using hlog
  exact ⟨_, new, p, r, exec_exec hready cmd out, htrace, hp, hlimit, hr, hstages.trans hl⟩

end Sys2Proof.Machine
end

section
/-! SUPPORT. A command of kind OTHER (43_command_channel.md R198): no wait mask, so only the general stop bit ends its poll
early; under the default masks that is the timer bit, so its status is never OK, and nothing is read back. -/

namespace Sys2Proof.Machine

variable {c : Params}

/-! ### KIND (10_state.md R33, log 36) -/

theorem dispatchSetup_kind (kd : Kind) (p : Port) (w : Work) : ((dispatchSetup c kd).run c p w).work.kind = kd := by
  simp only [dispatchSetup, run_bind, run_setWork, run_clearBits, run_setBits, run_regWrite]
  split <;> rfl

theorem dispatchIssue_keeps {P : Work → Prop} (kd : Kind) (cmd : Byte) (out : List Byte) :
    (dispatchIssue c kd cmd out).Keeps P := by
  refine keeps_bind (keeps_writeAll _ _ _) fun _ => keeps_bind (keeps_regWrite _ _ _) fun _ => ?_
  split
  · exact keeps_setBits _ _ _
  · trivial

theorem dispatchPollLoop_keeps_kind (kd : Kind) (wait : Byte) (n : Nat) (last : Byte) :
    (dispatchPollLoop c wait n last).Keeps fun w => w.kind = kd := by
  induction n generalizing last with
  | zero => trivial
  | succ n ih =>
    refine keeps_bind (keeps_regRead _ _) fun v => keeps_bind (keeps_setWork fun _ h => h) fun _ => ?_
    split
    · trivial
    · exact ih v

theorem dispatchPoll_keeps_kind (kd : Kind) (wait : Byte) : (dispatchPoll c wait).Keeps fun w => w.kind = kd :=
  keeps_bind (keeps_setWork fun _ h => h) fun _ => keeps_bind (dispatchPollLoop_keeps_kind kd wait _ _) fun _ =>
    keeps_bind (keeps_setWork fun _ h => h) fun _ => trivial

theorem dispatchResult_keeps {P : Work → Prop} (kd : Kind) (last : Byte) : (dispatchResult c kd last).Keeps P := by
  refine keeps_bind (keeps_regRead _ _) fun e => ?_
  split
  · trivial
  · split
    · exact keeps_bind (keeps_regRead _ _) fun _ => keeps_bind (keeps_regRead _ _) fun _ =>
        keeps_bind (keeps_readMany _ _ _) fun _ => trivial
    · trivial

/-- KIND keeps what SETUP gave it: nothing else in a dispatch writes it. -/
theorem dispatch_kind (cmd : Byte) (out : List Byte) (p : Port) (w : Work) :
    ((dispatch c cmd out).run c p w).work.kind = selectKind c cmd := by
  rw [dispatch, run_bind]
  refine keeps_run (P := fun w => w.kind = selectKind c cmd) ?_ c _ (dispatchSetup_kind _ p w)
  refine keeps_bind (dispatchIssue_keeps _ _ _) fun _ => keeps_bind (dispatchPoll_keeps_kind _ _) fun x =>
    keeps_bind (keeps_clearBits _ _ _) fun _ => ?_
  split
  · trivial
  · exact dispatchResult_keeps _ _

/-! ### The reply -/

theorem dispatchPollLoop_ends (wait : Byte) (n : Nat) (last : Byte) :
    (dispatchPollLoop c wait n last).Ends fun x => x.1 = 0 ∨ stopsPoll c wait x.2 = true := by
  induction n generalizing last with
  | zero => exact .inl rfl
  | succ n ih =>
    refine ends_bind_any fun v => ends_bind_any fun _ => ?_
    split
    case isTrue hstop => exact hstop
    case isFalse => exact ih v

/-- A poll exhausts, or its last value stops it (R185). -/
theorem dispatchPoll_ends (wait : Byte) :
    (dispatchPoll c wait).Ends fun x => x.1 = 0 ∨ stopsPoll c wait x.2 = true :=
  ends_bind_any fun _ => ends_bind (dispatchPollLoop_ends wait _ _) fun _ hx => ends_bind_any fun _ => hx

/-- A dispatch of kind OTHER whose every stop value has the timer bit answers a cleared reply that is not OK. -/
theorem dispatch_ends_other {cmd : Byte} (hk : selectKind c cmd = .other)
    (hstop : ∀ v, stopsPoll c 0x00 v = true → timerStatus c 0x00 v = .noTag) (out : List Byte) :
    (dispatch c cmd out).Ends fun d => d = clearedReply c .noTag ∨ d = clearedReply c .genericError := by
  rw [dispatch, hk]
  refine ends_bind_any fun _ => ends_bind_any fun _ => ends_bind (dispatchPoll_ends _) fun x hx => ends_bind_any fun _ => ?_
  split
  case isTrue => exact .inr rfl
  case isFalse h0 =>
    have hnoTag : timerStatus c (irqEnOf c .other) x.2 = .noTag := hstop x.2 (hx.resolve_left h0)
    rw [dispatchResult, hnoTag]
    refine ends_bind_any fun e => ?_
    split
    · exact .inr rfl
    · exact .inl rfl

/-- Under the default masks the general stop bit is the timer bit. -/
theorem timerStatus_of_stopsPoll_default {v : Byte} (h : stopsPoll Config.defaultParams 0x00 v = true) :
    timerStatus Config.defaultParams 0x00 v = .noTag := by
  have hbit : (v &&& 0x01 != 0) = true := by simpa [stopsPoll, Config.defaultParams] using h
  have hmask : v &&& 0x01 &&& 0xFF = v &&& 0x01 := BitVec.and_allOnes
  show (if v &&& 0x01 &&& 0xFF != 0 then Status.noTag else .ok) = .noTag
  rw [hmask, if_pos hbit]

/-- Settles O35: KIND is the command's kind (`dispatch_kind`), and the reply is one of `dispatch_ends_other`. -/
theorem otherKindNeverOk : Obligations.OtherKindNeverOk := by
  intro s cmd out hready hcfg htrx hauth
  have hk : selectKind s.cfg cmd = .other := by
    rw [hcfg]
    exact (if_neg hauth).trans (if_neg htrx)
  have hreply : (dispatchRun s cmd out).val = clearedReply s.cfg .noTag ∨
      (dispatchRun s cmd out).val = clearedReply s.cfg .genericError :=
    ends_run (dispatch_ends_other hk (hcfg ▸ fun _ => timerStatus_of_stopsPoll_default) out) s.cfg s.port s.work
  refine ⟨_, exec_exec hready cmd out, (dispatch_kind cmd out s.port s.work).trans hk, ?_⟩
  have hs := source_of_legal hready.1
  rcases hreply with h | h <;> simp [h, clearedReply, hs]

end Sys2Proof.Machine
end

section
/-! SUPPORT. The discovery operations (44_discovery.md R221 to R233): accepted, each ends in what its program's run leaves
(`exec_ran`), which is the reply of its one dispatch and the decisions on it, with the lengths and bit counts of the source. -/

namespace Sys2Proof.Machine

variable {c : Params} {s : State}

/-- An accepted operation flags its violation, and leaves what its program's run leaves with OUTCOME = DONE (R22, R305). -/
theorem exec_ran (hready : s.Ready) {i : Instr} {ran : Ran Regs} (hreject : (planOf i s.cfg s.regs).reject = none)
    (hrun : (planOf i s.cfg s.regs).prog.run s.cfg s.port s.work = ran) :
    exec i s = .next { s with
      violation := s.violation || (planOf i s.cfg s.regs).violates
      outcome := .put .done
      regs := ran.val
      work := ran.work
      port := ran.port } := by
  rw [exec_complete hready hreject, complete_eq, hrun, ← hready.2]

/-! ### Request (R221 to R223) -/

/-- The source accepts a request reply of exactly 16 bits. -/
theorem requestStatus_eq (hs : c.source = {}) (d : Reply) :
    requestStatus c d = if d.status = .ok ∧ d.bits = 16 then .ok else .genericError := by
  rw [requestStatus, hs]

/-- Settles O36: both operations run Request with their type byte, one framing write and one dispatch. -/
theorem requestResult : Obligations.RequestResult := by
  intro s i t hready hi p d
  have hs := source_of_legal hready.1
  have hrun : (requestProg s.cfg t s.regs).run s.cfg s.port s.work = ⟨d.port, d.work, { putReply s.regs d.val with
      status := .put (if d.val.status = .ok ∧ d.val.bits = 16 then .ok else .genericError) }⟩ := by
    simp only [requestProg, run_bind, run_regWrite, run_done, requestStatus_eq hs]
    rfl
  rcases hi with ⟨rfl, rfl⟩ | ⟨rfl, rfl⟩
  · exact exec_ran (i := .reqidl) hready rfl hrun
  · exact exec_ran (i := .reqall) hready rfl hrun

/-! ### Anti-collision (R225 to R227) -/

/-- The bytes ID takes from a reply are five. -/
theorem ReplyOk.take_five {d : Reply} (h : ReplyOk d) : ∃ d0 d1 d2 d3 b, d.resp.take 5 = [d0, d1, d2, d3, b] := by
  have hlength : (d.resp.take 5).length = 5 := by rw [List.length_take, h.length]; rfl
  match d.resp.take 5, hlength with
  | [d0, d1, d2, d3, b], _ => exact ⟨d0, d1, d2, d3, b, rfl⟩

/-- An OK dispatch is kept with exactly five bytes whose last is the XOR of the others (R226, R227). -/
theorem antiCollStatus_ok (hs : c.source = {}) {d : Reply} {d0 d1 d2 d3 b : Byte} (hid : d.resp.take 5 = [d0, d1, d2, d3, b])
    (hok : d.status = .ok) :
    antiCollStatus c d = if d.len = 5 ∧ b = d0 ^^^ d1 ^^^ d2 ^^^ d3 then .ok else .genericError := by
  have hlen : c.source.uidLen = 5 := by rw [hs]
  rw [antiCollStatus, if_pos hok, hlen, hid, validUid_five]
  by_cases h : d.len = 5 <;> simp [h]

/-- Every status but OK passes through (R227). -/
theorem antiCollStatus_not_ok {d : Reply} (h : d.status ≠ .ok) : antiCollStatus c d = d.status := if_neg h

/-- Settles O37: the status is that of `antiCollStatus`, decided on the five bytes that go to ID. -/
theorem anticollResult : Obligations.AnticollResult := by
  intro s hready p d
  have hs := source_of_legal hready.1
  obtain ⟨d0, d1, d2, d3, b, hid⟩ :=
    (ends_run (dispatch_ends hs s.cfg.cmd.transceive [s.cfg.card.antiColl, s.cfg.card.nvbAntiColl]) s.cfg p s.work).take_five
  have hrun : (antiCollProg s.cfg s.regs).run s.cfg s.port s.work = ⟨d.port, d.work, { putReply s.regs d.val with
      status := .put (antiCollStatus s.cfg d.val)
      id := .put (d.val.resp.take 5)
      idValid := .put (decide (antiCollStatus s.cfg d.val = .ok)) }⟩ := by
    simp only [antiCollProg, run_bind, run_regWrite, run_done]
    rfl
  refine ⟨antiCollStatus s.cfg d.val, d0, d1, d2, d3, b, hid, antiCollStatus_ok hs hid, antiCollStatus_not_ok, ?_⟩
  rw [← hid]
  exact exec_ran (i := .anticoll) hready rfl hrun

/-! ### Select (R230 to R233) -/

/-- The source accepts a select reply of exactly 24 bits. -/
theorem selectOk_iff (hs : c.source = {}) (d : Reply) : selectOk c d = true ↔ d.status = .ok ∧ d.bits = 24 := by
  simp [selectOk, hs]

/-- The CRC run replaces the two placeholders of the select frame (R231). -/
theorem crc_selectFrame (c : Params) (uid : List Byte) (p : Port) (w : Work) :
    ∃ lo hi, ((crc c (selectFrame c uid)).run c p w).val = [c.card.select, c.card.nvbSelect] ++ uid ++ [lo, hi] := by
  obtain ⟨lo, hi, hval⟩ := ends_run (crc_ends (selectFrame c uid)) c p w
  exact ⟨lo, hi, hval.trans (by simp [selectFrame])⟩

/-- Settles O38: SELECT runs the CRC over its frame and dispatches the result, and `selectOk` decides the rest. -/
theorem selectResult : Obligations.SelectResult := by
  intro s uid hready hlen k d ok
  have hs := source_of_legal hready.1
  refine ⟨crc_selectFrame s.cfg uid s.port s.work, ?_⟩
  rw [exec_ran (i := .select (ints uid)) hready (checkUid_ints hs hlen) rfl]
  simp only [planOf, planSelect, violatesSelect, violatesDiscovery, toBytes_ints, selectProg, run_bind, run_done,
    selectOk_iff hs, Bool.or_assoc]
  rfl

end Sys2Proof.Machine
end

section
/-! SUPPORT. The operand checks of the access operations (45_access.md R252, R253, R260, R270, R291, R292): each check as an
equation between the code it answers and the spec's ranges, then the checks of an operation in their order (60_exceptions.md
R302). -/

namespace Sys2Proof.Machine

variable {c : Params}

/-- A list is checked for its length, then for its elements (R302). -/
theorem checkLen_eq (n : Nat) (code : RejectCode) (xs : List Int) :
    checkLen n code xs = if xs.length ≠ n then some code else if ∃ x ∈ xs, x < 0 ∨ 255 < x then some .eOperand else none := by
  split
  case isTrue hlen => exact checkLen_bad hlen
  case isFalse hlen =>
    split
    case isTrue hx => exact checkLen_elems (not_not.1 hlen) hx
    case isFalse hx =>
      rw [checkLen, if_pos (not_not.1 hlen)]
      exact checkElems_ok fun x hmem => by
        have : ¬(x < 0 ∨ 255 < x) := fun hbad => hx ⟨x, hmem, hbad⟩
        omega

theorem checkBlk_eq (b : Int) : checkBlk b = if b < 0 ∨ 63 < b then some .eBlkAddr else none := by
  split
  case isTrue hbad => exact checkBlk_bad hbad
  case isFalse hgood => exact checkBlk_ok (by omega)

/-- DUMPA and DUMPB check the key, then the identity (R291, R292). -/
theorem checkDump_eq (hs : c.source = {}) (key uid : List Int) :
    checkDump c key uid =
      (if key.length ≠ 6 then some .eKeyLen else if ∃ x ∈ key, x < 0 ∨ 255 < x then some .eOperand else none).or
        (if uid.length ≠ 5 then some .eUidLen else if ∃ x ∈ uid, x < 0 ∨ 255 < x then some .eOperand else none) := by
  rw [checkDump, checkKey, checkUid, checkLen_eq, checkLen_eq, hs]

/-- AUTHA and AUTHB check the block address, then as a dump does (R252, R253). -/
theorem checkAuth_eq (c : Params) (blk : Int) (key uid : List Int) :
    checkAuth c blk key uid = if blk < 0 ∨ 63 < blk then some .eBlkAddr else checkDump c key uid := by
  rw [checkAuth, checkBlk_eq, checkDump]
  split
  · rw [Option.some_or]
  · rw [Option.none_or]

/-- Settles O17: the checks are `checkAuth` and `checkDump`, and a ready block rejects with the code they answer. -/
theorem authOperandsCheckedInOrder : Obligations.AuthOperandsCheckedInOrder := by
  intro s blk key uid hready badKey badUid
  have hdump : checkDump s.cfg key uid = badKey.or badUid := checkDump_eq (source_of_legal hready.1) key uid
  refine ⟨fun code hcode => ?_, fun code hcode => ?_⟩
  · have hcheck : checkAuth s.cfg blk key uid = some code := by rw [checkAuth_eq, hdump, hcode]
    exact ⟨exec_reject (i := .autha blk key uid) hready hcheck, exec_reject (i := .authb blk key uid) hready hcheck⟩
  · have hcheck : checkDump s.cfg key uid = some code := hdump.trans hcode
    exact ⟨exec_reject (i := .dumpa key uid) hready hcheck, exec_reject (i := .dumpb key uid) hready hcheck⟩

/-- Settles O18: the block address is the first check of both, and the data the second of WRITE. -/
theorem readWriteOperandsChecked : Obligations.ReadWriteOperandsChecked := by
  intro s blk data hready
  have hlen16 : s.cfg.source.dataLen = 16 := by rw [source_of_legal hready.1]
  have hgood (h0 : 0 ≤ blk) (h63 : blk ≤ 63) {code : RejectCode} (hdata : checkData s.cfg data = some code) :
      exec (.write blk data) s = .next (reject code s) :=
    exec_reject hready (show (checkBlk blk).or (checkData s.cfg data) = some code by
      rw [checkBlk_ok ⟨h0, h63⟩, Option.none_or, hdata])
  refine ⟨fun hbad => ⟨exec_reject hready (checkBlk_bad hbad), exec_reject hready ?_⟩, fun h0 h63 hlen => ?_,
    fun h0 h63 hlen hx => ?_⟩
  · show (checkBlk blk).or (checkData s.cfg data) = some .eBlkAddr
    rw [checkBlk_bad hbad, Option.some_or]
  · exact hgood h0 h63 (checkLen_bad (hlen16 ▸ hlen))
  · exact hgood h0 h63 (checkLen_elems (hlen.trans hlen16.symm) hx)

end Sys2Proof.Machine
end

section
/-! SUPPORT. The access operations of a block (45_access.md R250 to R281): accepted, each ends in what its program's run leaves
(`exec_ran`), with the lengths, bit counts and acknowledgement of the source. -/

namespace Sys2Proof.Machine

variable {c : Params}

/-! ### STOPCRYPTO (R280, R281) -/

/-- Settles O42: the run is that of ClearBits (R143) on Status2. -/
theorem stopcryptoResult : Obligations.StopcryptoResult := by
  intro s hready
  refine exec_of_run (i := .stopcrypto) hready rfl rfl ?_
  simp only [planOf, planStopcrypto, run_bind, run_clearBits, run_done]

/-! ### Authentication (R250 to R253) -/

/-- SESSION and AUTH_BLK after an authentication, as one update (R250). -/
theorem putAuth_eq (blk : Nat) (st : Status) (r : Regs) :
    putAuth blk st r = { r with
      session := if st = .ok then .auth else .unauth
      authBlk := if st = .ok then .put blk else r.authBlk } := by
  unfold putAuth
  split <;> rfl

/-- AUTHA and AUTHB dispatch AUTHENT and then read Status2 once, whatever the dispatch ended in (R250). -/
theorem run_authProg (mode : Byte) (blk : Nat) (key uid : List Byte) (r : Regs) (p : Port) (w : Work) :
    let d := (dispatch c c.cmd.authent (authFrame mode blk key uid)).run c p w
    let st := authStatus c d.val.status (drawAnswer d.port)
    (authProg c mode blk (ints key) (ints uid) r).run c p w =
      ⟨portRead c .cryptoCheck c.reg.status2 d.port, d.work, { putReply r d.val with
        status := .put st
        session := if st = .ok then .auth else .unauth
        authBlk := if st = .ok then .put blk else r.authBlk }⟩ := by
  intro d st
  simp only [authProg, authCore, run_bind, run_regRead, run_done, toBytes_ints, Int.toNat_natCast, putAuth_eq]
  rfl

/-- AUTHA and AUTHB of a flat address, a key and an identity pass their checks. -/
theorem checkAuth_ints (hs : c.source = {}) {blk : Nat} (hblk : blk < 64) {key uid : List Byte} (hkey : key.length = 6)
    (huid : uid.length = 5) : checkAuth c blk (ints key) (ints uid) = none := by
  rw [checkAuth, checkBlk_natCast hblk, checkKey_ints hs hkey, checkUid_ints hs huid]
  rfl

/-- Settles O39: both operations run the authentication with their mode byte (`run_authProg`). -/
theorem authResult : Obligations.AuthResult := by
  intro s i mode blk key uid hready hblk hkey huid hi d st
  have hcheck := checkAuth_ints (source_of_legal hready.1) hblk hkey huid
  have hrun := run_authProg (c := s.cfg) mode blk key uid s.regs s.port s.work
  rw [← toBytes_ints uid]
  rcases hi with ⟨rfl, rfl⟩ | ⟨rfl, rfl⟩
  · exact exec_ran (i := .autha blk (ints key) (ints uid)) hready hcheck hrun
  · exact exec_ran (i := .authb blk (ints key) (ints uid)) hready hcheck hrun

/-! ### Phases: a CRC run and the TRANSCEIVE of its result -/

/-- A phase runs the CRC over its frame and dispatches the result (R259, R270). -/
theorem run_writePhase (frame : List Byte) (p : Port) (w : Work) :
    (writePhase c frame).run c p w =
      let k := (crc c frame).run c p w
      (dispatch c c.cmd.transceive k.val).run c k.port k.work := run_bind ..

/-! ### READ (R259, R260) -/

/-- The registers a READ ends in, by the reply of its dispatch. -/
def readRegs (c : Params) (r : Regs) (d : Reply) : Regs :=
  if readOk c d then { putReply r d with status := .put .ok, blockOut := .put (d.resp.take 16) }
  else { discardResp c (putReply r d) with status := .put .genericError, blockOut := .put (zeros 16) }

/-- READ is one phase, as each of the two of WRITE is. -/
theorem planRead_prog (blk : Nat) (r : Regs) :
    (planRead blk c r).prog =
      (writePhase c [c.card.read, BitVec.ofNat 8 blk, 0x00, 0x00]).bind fun d => .done (readRegs c r d) := by
  simp only [planRead, readCore, writePhase, bind_assoc, bind_done, Int.toNat_natCast]
  refine congrArg (Prog.bind _) (funext fun frame => congrArg (Prog.bind _) (funext fun d => ?_))
  unfold readRegs
  split <;> rfl

/-- The source takes a read of exactly 16 bytes. -/
theorem readOk_iff (hs : c.source = {}) (d : Reply) :
    readOk c d = true ↔ d.len = 16 ∧ (d.status = .ok ∨ c.policy.readRequiresOk = false) := by
  simp [readOk, hs]

/-- A read that succeeds keeps the whole response, and any other no byte of it (R259). -/
theorem readRegs_eq (hs : c.source = {}) (r : Regs) {d : Reply} (hd : ReplyOk d) :
    let ok : Prop := d.len = 16 ∧ (d.status = .ok ∨ c.policy.readRequiresOk = false)
    readRegs c r d = { r with
      status := .put (if ok then .ok else .genericError)
      blockOut := .put (if ok then d.resp else zeros 16)
      resp := .put (if ok then d.resp else zeros 16)
      respLen := .put (if ok then d.len else 0)
      respBits := .put d.bits } := by
  intro ok
  unfold readRegs
  by_cases hok : ok
  · simp only [if_pos hok, if_pos ((readOk_iff hs d).2 hok), List.take_of_length_le hd.length.le]
    rfl
  · simp only [if_neg hok, if_neg (mt (readOk_iff hs d).1 hok), discardResp, hs]
    rfl

/-- Settles O40: READ is one phase, whose reply decides what is kept. -/
theorem readResult : Obligations.ReadResult := by
  intro s blk hready hblk k d ok
  have hs := source_of_legal hready.1
  have hreply : ReplyOk d.val := ends_run (dispatch_ends hs s.cfg.cmd.transceive k.val) s.cfg k.port k.work
  have hrun : (planRead blk s.cfg s.regs).prog.run s.cfg s.port s.work = ⟨d.port, d.work, readRegs s.cfg s.regs d.val⟩ := by
    rw [planRead_prog, run_bind, run_writePhase, run_done]
  rw [readRegs_eq hs s.regs hreply] at hrun
  exact exec_ran (i := .read blk) hready (checkBlk_natCast hblk) hrun

/-! ### WRITE (R269 to R271) -/

/-- The source takes an acknowledgement of exactly 4 bits whose low nibble is 0x0A. -/
theorem replyAcked_iff (hs : c.source = {}) (d : Reply) :
    replyAcked c d = true ↔
      (d.status = .ok ∨ c.policy.writeRequiresOk = false) ∧ d.bits = 4 ∧ d.resp.headD 0 &&& 0x0F = 0x0A := by
  simp [replyAcked, ackOk, hs, and_assoc]

/-- Without an acknowledged intent there is no second phase (R270). -/
theorem run_writeProg_refused {blk : Nat} {data : List Byte} {r : Regs} {p : Port} {w : Work} {d : Ran Reply}
    (hd : (writePhase c [c.card.write, BitVec.ofNat 8 blk, 0x00, 0x00]).run c p w = d) (hack : ¬replyAcked c d.val = true) :
    (writeProg c blk data r).run c p w = ⟨d.port, d.work, { putReply r d.val with status := .put .genericError }⟩ := by
  rw [writeProg, run_bind, hd, if_neg hack, run_done]

/-- After an acknowledged intent the payload's acknowledgement decides the status (R270, R271). -/
theorem run_writeProg_acked {blk : Nat} {data : List Byte} {r : Regs} {p : Port} {w : Work} {d1 d2 : Ran Reply}
    (hd1 : (writePhase c [c.card.write, BitVec.ofNat 8 blk, 0x00, 0x00]).run c p w = d1) (hack : replyAcked c d1.val = true)
    (hd2 : (writePhase c (data ++ [0x00, 0x00])).run c d1.port d1.work = d2) :
    (writeProg c blk data r).run c p w = ⟨d2.port, d2.work, { putReply r d2.val with
      status := .put (if replyAcked c d2.val then .ok else .genericError) }⟩ := by
  rw [writeProg, run_bind, hd1, if_pos hack, run_bind, hd2, run_done]

/-- WRITE of a flat address and 16 bytes passes its checks. -/
theorem checkWrite_ints (hs : c.source = {}) {blk : Nat} (hblk : blk < 64) {data : List Byte} (hdata : data.length = 16) :
    (checkBlk blk).or (checkData c (ints data)) = none := by
  rw [checkBlk_natCast hblk, checkData_ints hs hdata]
  rfl

/-- An accepted WRITE leaves what its two phases leave. -/
theorem exec_write {s : State} (hready : s.Ready) {blk : Nat} (hblk : blk < 64) {data : List Byte} (hdata : data.length = 16)
    {ran : Ran Regs} (hrun : (writeProg s.cfg blk data s.regs).run s.cfg s.port s.work = ran) :
    exec (.write blk (ints data)) s = .next { s with
      violation := s.violation || !authMatch s.cfg s.regs blk
      outcome := .put .done
      regs := ran.val
      work := ran.work
      port := ran.port } := by
  refine exec_ran (i := .write _ _) hready (checkWrite_ints (source_of_legal hready.1) hblk hdata) ?_
  simpa only [planOf, planWrite, toBytes_ints, Int.toNat_natCast] using hrun

/-- Settles O41: the first acknowledgement decides whether there is a second phase, and the second the status. -/
theorem writeResult : Obligations.WriteResult := by
  intro s blk data hready hblk hdata acked k1 d1 k2 d2
  have hacked (d : Reply) : replyAcked s.cfg d = true ↔ acked d := replyAcked_iff (source_of_legal hready.1) d
  have hd1 : (writePhase s.cfg [s.cfg.card.write, BitVec.ofNat 8 blk, 0x00, 0x00]).run s.cfg s.port s.work = d1 :=
    run_writePhase ..
  have hd2 : (writePhase s.cfg (data ++ [0x00, 0x00])).run s.cfg d1.port d1.work = d2 := run_writePhase ..
  refine ⟨_, exec_write hready hblk hdata rfl, fun hrefused => ?_, fun st hfirst hst => ?_⟩
  · rw [run_writeProg_refused hd1 (mt (hacked _).1 hrefused)]
  · rw [run_writeProg_acked hd1 ((hacked _).2 hfirst) hd2]
    rcases hst with ⟨hsecond, rfl⟩ | ⟨hsecond, rfl⟩
    · rw [if_pos ((hacked _).2 hsecond)]
    · rw [if_neg (mt (hacked _).1 hsecond)]

end Sys2Proof.Machine
end

section
/-! SUPPORT. What a dump leaves whatever the chip answers (45_access.md R290 to R293): one iteration of its loop keeps the slots
and the mask in their shapes and leaves the session its authentication gave, and so the whole loop leaves that of block 63. -/

namespace Sys2Proof.Machine

variable {c : Params} {acc : DumpAcc}

/-- SESSION as an authentication of block `n` leaves it: AUTH with AUTH_BLK = n, or UNAUTH (R250). -/
def SessionAfterAuth (n : Nat) (r : Regs) : Prop := r.session = .auth ∧ r.authBlk = .put n ∨ r.session = .unauth

/-- The slots and the mask are in their shapes, whatever the registers beside them hold. -/
def SlotsOk (acc : DumpAcc) : Prop := DumpOk { acc with regs := .reset }

theorem slotsOk_dumpStart (r : Regs) : SlotsOk (dumpStart r) := dumpStart_ok regsOk_reset

theorem dumpPut_slots (h : SlotsOk acc) {n : Nat} (hn : n < 64) {x : Status × List Byte × Regs} (hlen : x.2.1.length = 16) :
    SlotsOk (dumpPut n x acc) := by
  have hput : { dumpPut n x acc with regs := .reset } = dumpPut n (x.1, x.2.1, .reset) { acc with regs := .reset } := by
    unfold dumpPut
    split <;> rfl
  rw [SlotsOk, hput]
  exact dumpPut_ok h hn regsOk_reset hlen

theorem dumpPut_regs (n : Nat) (x : Status × List Byte × Regs) (acc : DumpAcc) : (dumpPut n x acc).regs = x.2.2 := by
  unfold dumpPut
  split <;> rfl

theorem authCore_session (mode : Byte) (n : Nat) (key uid : List Byte) (r : Regs) :
    (authCore c mode n key uid r).Ends fun x => SessionAfterAuth n x.2 := by
  refine ends_bind_any fun d => ends_bind_any fun s2 => ?_
  show SessionAfterAuth n (putAuth n (authStatus c d.status s2) (putReply r d))
  rw [SessionAfterAuth, putAuth_session, putAuth_authBlk]
  split
  · exact .inl ⟨rfl, rfl⟩
  · exact .inr rfl

/-- A read answers 16 bytes and keeps SESSION and AUTH_BLK (R259). -/
theorem readCore_leaves (hs : c.source = {}) (n : Nat) (r : Regs) :
    (readCore c n r).Ends fun x => x.2.1.length = 16 ∧ x.2.2.session = r.session ∧ x.2.2.authBlk = r.authBlk := by
  refine ends_bind_any fun frame => ends_bind (dispatch_ends hs _ _) fun d hd => ?_
  rw [Prog.Ends]
  split
  · exact ⟨by simp [hd.length], rfl, rfl⟩
  · exact ⟨zeros_length 16, rfl, rfl⟩

/-- One iteration: the session is that of the authentication, whether a read follows or not. -/
theorem dumpBlock_leaves (hs : c.source = {}) (mode : Byte) (key uid : List Byte) {n : Nat} (hn : n < 64) (h : SlotsOk acc) :
    ((authCore c mode n key uid acc.regs).bind (readIfAuthed c n acc)).Ends
      fun acc' => SlotsOk acc' ∧ SessionAfterAuth n acc'.regs := by
  refine ends_bind (authCore_session mode n key uid acc.regs) fun a ha => ?_
  unfold readIfAuthed
  split
  · refine ends_bind (readCore_leaves hs n a.2) fun x ⟨hlen, hsession, hblk⟩ => ⟨dumpPut_slots h hn hlen, ?_⟩
    rwa [dumpPut_regs, SessionAfterAuth, hsession, hblk]
  · exact ⟨h, ha⟩

/-- The loop leaves the session its last authentication gave. -/
theorem dumpBlocks_leaves (hs : c.source = {}) (mode : Byte) (key uid : List Byte) {ns : List Nat} (hns : ∀ m ∈ ns, m < 64)
    {n : Nat} (hn : n < 64) (h : SlotsOk acc) :
    (dumpBlocks c mode key uid (ns ++ [n]) acc).Ends fun acc' => SlotsOk acc' ∧ SessionAfterAuth n acc'.regs := by
  induction ns generalizing acc with
  | nil =>
    rw [List.nil_append, dumpBlocks_cons]
    exact ends_bind (dumpBlock_leaves hs mode key uid hn h) fun _ hblock => hblock
  | cons m ms ih =>
    rw [List.cons_append, dumpBlocks_cons]
    exact ends_bind (dumpBlock_leaves hs mode key uid (hns m List.mem_cons_self) h) fun _ ⟨hslots, _⟩ =>
      ih (fun x hx => hns x (List.mem_cons_of_mem m hx)) hslots

/-- Settles O43: the loop over the blocks 0 to 63 keeps the slots and the mask, and ends after the authentication of 63. -/
theorem dumpResult : Obligations.DumpResult := by
  intro s i key uid hready hkey huid hi
  have hs := source_of_legal hready.1
  have hviolates : (planOf i s.cfg s.regs).violates = (decide (s.regs.session ≠ .selected) || !validUid uid) := by
    have hplan : (planOf i s.cfg s.regs).violates = violatesAuth s.regs (toBytes (ints uid)) := by
      rcases hi with rfl | rfl <;> rfl
    rw [hplan, toBytes_ints]
    rfl
  obtain ⟨mode, hmode⟩ : ∃ mode, i = .dumpa (ints key) (ints uid) ∧ mode = s.cfg.card.auth1A ∨
      i = .dumpb (ints key) (ints uid) ∧ mode = s.cfg.card.auth1B :=
    hi.elim (fun h => ⟨_, .inl ⟨h, rfl⟩⟩) fun h => ⟨_, .inr ⟨h, rfl⟩⟩
  obtain ⟨hreject, hprog⟩ := dump_plan hs hkey huid hmode s.regs
  obtain ⟨hslots, hsession⟩ := ends_run (dumpBlocks_leaves hs mode key uid (ns := List.range 63)
    (fun m hm => Nat.lt_succ_of_lt (List.mem_range.1 hm)) (Nat.lt_succ_self 63) (slotsOk_dumpStart s.regs)) s.cfg s.port s.work
  rw [← List.range_succ] at hslots hsession
  have hexec := exec_ran hready hreject (by rw [hprog, dumpProg_eq, run_bind, run_done])
  rw [hviolates] at hexec
  exact ⟨_, _, _, hexec, rfl, rfl, rfl, rfl, hslots.length, fun b hb => ⟨hslots.slots b hb, hslots.zero b hb⟩, hsession, rfl⟩

end Sys2Proof.Machine
end

section
/-! SUPPORT. How many transfers a dump can make, whatever the chip answers (45_access.md R290): `AtMost c x n` bounds the
transfers of a program; the bounds of a dispatch (43_command_channel.md R194) come from its stages, those of a CRC run
(42_crc_engine.md R164) and of the dump's loop from their parts. -/

namespace Sys2Proof.Machine

variable {α β : Type} {c : Params}

/-- Whatever the chip answers, the program makes at most `n` transfers. -/
def AtMost (c : Params) (x : Prog α) (n : Nat) : Prop := ∀ p w, (x.run c p w).port.count ≤ p.count + n

theorem AtMost.mono {x : Prog α} {m n : Nat} (h : AtMost c x m) (hmn : m ≤ n) : AtMost c x n :=
  fun p w => (h p w).trans (Nat.add_le_add_left hmn _)

theorem atMost_done (a : α) : AtMost c (.done a) 0 := fun _ _ => Nat.le_refl _

/-- Two programs in sequence, the second bounded for the values the first can end in. -/
theorem AtMost.bind_ends {x : Prog α} {f : α → Prog β} {m n : Nat} {P : α → Prop} (h : AtMost c x m) (hx : x.Ends P)
    (hf : ∀ a, P a → AtMost c (f a) n) : AtMost c (x.bind f) (m + n) := by
  intro p w
  have hfirst := h p w
  have hsecond := hf _ (ends_run hx c p w) (x.run c p w).port (x.run c p w).work
  rw [run_bind]
  omega

theorem AtMost.bind {x : Prog α} {f : α → Prog β} {m n : Nat} (h : AtMost c x m) (hf : ∀ a, AtMost c (f a) n) :
    AtMost c (x.bind f) (m + n) :=
  h.bind_ends (ends_trivial x) fun a _ => hf a

/-! ### The transfers of a program of known stages -/

theorem count_of_stages {p q : Port} {l : List Stage} (h : PortStep c p q) (hl : stageLog q = stageLog p ++ l) :
    q.count = p.count + l.length := by
  obtain ⟨new, htrace, hcount, -⟩ := h.out
  have hlength : new.length = l.length := by simpa [stageLog, htrace] using congrArg List.length hl
  rw [hcount, hlength]

theorem Staged.atMost {x : Prog α} {l : List Stage} (h : Staged c x l) : AtMost c x l.length := by
  intro p w
  obtain ⟨m, hlog, rfl⟩ := h p w
  exact (count_of_stages (run_port c x p w) hlog).le

theorem atMost_regRead (st : Stage) (a : Nat) : AtMost c (regRead st a) 1 := (staged_regRead st a).atMost
theorem atMost_regWrite (st : Stage) (a : Nat) (v : Byte) : AtMost c (regWrite st a v) 1 := (staged_regWrite st a v).atMost
theorem atMost_setBits (st : Stage) (a : Nat) (m : Byte) : AtMost c (setBits st a m) 2 := (staged_setBits st a m).atMost
theorem atMost_clearBits (st : Stage) (a : Nat) (m : Byte) : AtMost c (clearBits st a m) 2 := (staged_clearBits st a m).atMost
theorem atMost_setWork (f : Work → Work) : AtMost c (setWork f) 0 := (staged_setWork f).atMost
theorem atMost_writeAll (st : Stage) (a : Nat) (bs : List Byte) : AtMost c (writeAll st a bs) bs.length := by
  have h := (staged_writeAll (c := c) st a bs).atMost
  rwa [List.length_replicate] at h

/-! ### A dispatch (43_command_channel.md R194) -/

/-- The interrupt-enable write of a dispatch, made under WRITE_IRQ_ENABLE: the w of R194. -/
abbrev enableWrites (c : Params) : Nat := if c.policy.writeIrqEnable then 1 else 0

theorem dispatchStages_length (kd : Kind) (out : List Byte) (p r : Nat) :
    (dispatchStages c kd out p r).length = enableWrites c + 5 + out.length + (if kd = .transceive then 3 else 1) + p + 2 +
      (if p = c.pollLimit then 0 else r + 1) := by
  simp only [dispatchStages, List.length_append, List.length_replicate, List.length_cons, List.length_nil,
    apply_ite List.length, enableWrites]

/-- A dispatch in a legal configuration: an exhausted poll saves the error read, so POLL_LIMIT bounds both; at most 16
bytes are read back, for TRANSCEIVE only (R194). -/
theorem atMost_dispatch (hlegal : paramsLegal c = true) (cmd : Byte) (out : List Byte) :
    AtMost c (dispatch c cmd out)
      (8 + enableWrites c + out.length + c.pollLimit + if selectKind c cmd = .transceive then 20 else 0) := by
  intro p w
  obtain ⟨l, hlog, n, r, -, hn, hr, rfl⟩ := stages_dispatch (bounds_of_legal hlegal).1 cmd out p w
  have hlen : ((dispatch c cmd out).run c p w).val.len ≤ 16 :=
    (ends_run (dispatch_ends (source_of_legal hlegal) cmd out) c p w).len
  rw [count_of_stages (run_port ..) hlog, dispatchStages_length]
  by_cases hkind : selectKind c cmd = .transceive
  · simp only [hkind, if_true, true_and] at hr ⊢
    split <;> omega
  · simp only [hkind, if_false, false_and, or_false] at hr ⊢
    split <;> omega

/-! ### A CRC run (42_crc_engine.md R164) -/

theorem atMost_crcPollLoop (n : Nat) : AtMost c (crcPollLoop c n) n := by
  induction n with
  | zero => exact atMost_done ()
  | succ n ih =>
    refine ((atMost_regRead _ _).bind fun v => (atMost_setWork _).bind (n := n) fun _ => ?_).mono (by omega)
    split
    · exact (atMost_done ()).mono (Nat.zero_le n)
    · exact ih

theorem atMost_crc (buf : List Byte) : AtMost c (crc c buf) (7 + (buf.length - 2) + c.crcPollLimit) := by
  have hload : AtMost c (crcLoad c (buf.take (buf.length - 2))) (2 + ((buf.take (buf.length - 2)).length + 1)) :=
    (atMost_setBits _ _ _).bind fun _ => (atMost_writeAll _ _ _).bind fun _ => atMost_regWrite _ _ _
  have hpoll : AtMost c (crcPoll c) (0 + (c.crcPollLimit + 0)) :=
    (atMost_setWork _).bind fun _ => (atMost_crcPollLoop _).bind fun _ => atMost_setWork _
  have hresult : AtMost c (crcResult c (buf.take (buf.length - 2))) (1 + (1 + 0)) :=
    (atMost_regRead _ _).bind fun _ => (atMost_regRead _ _).bind fun _ => atMost_done _
  rw [List.length_take] at hload
  exact ((atMost_clearBits _ _ _).bind fun _ => hload.bind fun _ => hpoll.bind fun _ => hresult).mono (by omega)

/-! ### A dump (45_access.md R290) -/

/-- An authentication: the dispatch of its 12-byte frame and the Status2 read. -/
theorem atMost_authCore (hlegal : paramsLegal c = true) (mode : Byte) (n : Nat) {key uid : List Byte} (hkey : key.length = 6)
    (huid : uid.length = 5) (r : Regs) : AtMost c (authCore c mode n key uid r) (21 + enableWrites c + c.pollLimit) := by
  have hframe : (authFrame mode n key uid).length = 12 := by simp [authFrame, hkey, huid]
  have hkind : selectKind c c.cmd.authent ≠ .transceive := by simp [selectKind]
  have hdispatch := atMost_dispatch hlegal c.cmd.authent (authFrame mode n key uid)
  rw [hframe, if_neg hkind] at hdispatch
  exact (hdispatch.bind fun d => (atMost_regRead _ _).bind fun s2 => atMost_done _).mono (by omega)

/-- A read: the CRC run over its 4-byte frame and the dispatch of the result. -/
theorem atMost_readCore (hlegal : paramsLegal c = true) (n : Nat) (r : Regs) :
    AtMost c (readCore c n r) ((9 + c.crcPollLimit) + (16 + enableWrites c + c.pollLimit + 16)) := by
  refine ((atMost_crc [c.card.read, BitVec.ofNat 8 n, 0x00, 0x00]).bind_ends (crc_ends _)
    (n := 32 + enableWrites c + c.pollLimit) fun frame ⟨lo, hi, hframe⟩ => ?_).mono ?_
  · have hlen : frame.length = 4 := by rw [hframe]; rfl
    have hdispatch := atMost_dispatch hlegal c.cmd.transceive frame
    rw [hlen] at hdispatch
    refine (hdispatch.bind fun d => atMost_done _).mono ?_
    split <;> omega
  · simp only [List.length_cons, List.length_nil]
    omega

/-- The bound of one iteration of a dump's loop. -/
abbrev blockBound (c : Params) : Nat :=
  (21 + enableWrites c + c.pollLimit) + (9 + c.crcPollLimit) + (16 + enableWrites c + c.pollLimit + 16)

theorem atMost_dumpBlock (hlegal : paramsLegal c = true) (mode : Byte) (n : Nat) {key uid : List Byte} (hkey : key.length = 6)
    (huid : uid.length = 5) (acc : DumpAcc) :
    AtMost c ((authCore c mode n key uid acc.regs).bind (readIfAuthed c n acc)) (blockBound c) := by
  refine ((atMost_authCore hlegal mode n hkey huid acc.regs).bind fun a => ?_).mono (Nat.add_assoc _ _ _).ge
  unfold readIfAuthed
  split
  · exact (atMost_readCore hlegal n a.2).bind fun x => atMost_done _
  · exact (atMost_done _).mono (Nat.zero_le _)

theorem atMost_dumpBlocks (hlegal : paramsLegal c = true) (mode : Byte) {key uid : List Byte} (hkey : key.length = 6)
    (huid : uid.length = 5) (ns : List Nat) (acc : DumpAcc) :
    AtMost c (dumpBlocks c mode key uid ns acc) (ns.length * blockBound c) := by
  induction ns generalizing acc with
  | nil => exact (atMost_done acc).mono (Nat.zero_le _)
  | cons n ns ih =>
    rw [dumpBlocks_cons, List.length_cons, Nat.succ_mul, Nat.add_comm]
    exact (atMost_dumpBlock hlegal mode n hkey huid acc).bind ih

theorem checkLen_none {n : Nat} {code : RejectCode} {xs : List Int} (h : checkLen n code xs = none) : xs.length = n := by
  by_contra hlen
  rw [checkLen_bad hlen] at h
  cases h

theorem atMost_dumpProg (hlegal : paramsLegal c = true) (mode : Byte) {key uid : List Int}
    (haccepted : checkDump c key uid = none) (r : Regs) : AtMost c (dumpProg c mode key uid r) (64 * blockBound c) := by
  have hs := source_of_legal hlegal
  obtain ⟨hkey, huid⟩ := or_none haccepted
  have hkey6 : (toBytes key).length = 6 := (List.length_map _).trans ((checkLen_none hkey).trans (by rw [hs]))
  have huid5 : (toBytes uid).length = 5 := (List.length_map _).trans (checkUid_none hs huid)
  exact (atMost_dumpBlocks hlegal mode hkey6 huid5 (List.range 64) _).bind fun acc => atMost_done _

/-- A rejected operation makes no transfer, and an accepted one those of its program. -/
theorem serve_count {s : State} {p : Plan} {n : Nat} (h : p.reject = none → AtMost s.cfg p.prog n) :
    (serve p s).port.count ≤ s.port.count + n := by
  rcases serve_cases p s with ⟨op, pos, vs, -, heq⟩ | ⟨code, -, -, heq⟩ | ⟨-, hr, heq⟩
  · rw [heq, rejectBusy_port]
    exact Nat.le_add_right _ _
  · rw [heq, reject_port]
    exact Nat.le_add_right _ _
  · rw [heq]
    exact h hr s.port s.work

/-- Settles O45: an accepted dump makes at most `blockBound` transfers for each of its 64 blocks. -/
theorem dumpTransferBound : Obligations.DumpTransferBound := by
  intro s t i key uid hready hi h
  obtain ⟨hlegal, rfl⟩ := exec_next h
  have hbound : (serve (planOf i s.cfg s.regs) s).port.count ≤ s.port.count + 64 * blockBound s.cfg := by
    refine serve_count fun haccepted => ?_
    rcases hi with rfl | rfl
    · exact atMost_dumpProg hlegal _ haccepted s.regs
    · exact atMost_dumpProg hlegal _ haccepted s.regs
  refine ⟨hbound, fun hcfg => ?_⟩
  have hdefault : 64 * blockBound s.cfg = 276416 := by rw [hcfg]; rfl
  rwa [hdefault] at hbound

end Sys2Proof.Machine
end

section
/-! SUPPORT. WRITE and then READ against a chip that acknowledges and echoes (45_access.md R272): both are made of phases, a CRC
run and the TRANSCEIVE of its result, and `gives_writePhase` says what each ends in. -/

namespace Sys2Proof.Machine

variable {c : Params}

/-! ### Values against a script -/

/-- Against the script `answers` the program ends in `a` and leaves the rest of the script, whatever its transfers. -/
def Gives (c : Params) {α : Type} (x : Prog α) (answers : List Byte) (a : α) : Prop := ∃ log upd, Says c x answers log a upd

theorem Gives.bind {α β : Type} {x : Prog α} {f : α → Prog β} {as bs : List Byte} {a : α} {b : β} (h : Gives c x as a)
    (k : Gives c (f a) bs b) : Gives c (x.bind f) (as ++ bs) b :=
  let ⟨_, _, hx⟩ := h
  let ⟨_, _, hf⟩ := k
  ⟨_, _, hx.bind hf⟩

theorem Gives.bind_done {α β : Type} {x : Prog α} {as : List Byte} {a : α} (h : Gives c x as a) (f : α → β) :
    Gives c (x.bind fun v => .done (f v)) as (f a) := by
  have hdone := h.bind (f := fun v => .done (f v)) ⟨_, _, says_done (f a)⟩
  rwa [List.append_nil] at hdone

/-- An accepted operation against its script: the block is ready again, with the registers the program ends in. -/
theorem exec_gives {s : State} (hready : s.Ready) {i : Instr} (hreject : (planOf i s.cfg s.regs).reject = none)
    {answers rest : List Byte} {r : Regs} (hgives : Gives s.cfg (planOf i s.cfg s.regs).prog answers r)
    (hanswers : s.port.answers = answers ++ rest) :
    ∃ t, exec i s = .next t ∧ t.Ready ∧ t.cfg = s.cfg ∧ t.regs = r ∧ t.port.answers = rest := by
  obtain ⟨log, upd, hsays⟩ := hgives
  obtain ⟨hval, -, hrest, -⟩ := hsays rest s.port s.work hanswers
  exact ⟨_, exec_ran hready hreject rfl, hready, rfl, hval, hrest⟩

/-! ### The operations -/

section Phases

variable {k k1 k2 : CrcScript} {x x1 x2 : DispatchScript}

/-- A phase against the scripts of its CRC run and of its dispatch ends in the dispatch's reply. -/
theorem gives_writePhase (htrx : c.cmd.transceive ≠ c.cmd.authent) (hk : k.Ok c) (hx : x.Ok c .transceive)
    (frame : List Byte) : Gives c (writePhase c frame) (k.answers ++ x.answers .transceive) (x.reply c .transceive) := by
  obtain ⟨hstops, hclean, hfifo⟩ := hx
  have hkind : selectKind c c.cmd.transceive = .transceive := by rw [selectKind, if_neg htrx, if_pos rfl]
  exact ⟨_, _, (says_crc hk frame).bind (says_dispatch_ok _ _ _ x hkind hstops hclean fun _ => hfifo)⟩

/-- A WRITE whose intent is acknowledged ends in what the reply to its payload decides (R270). -/
theorem gives_writeProg (htrx : c.cmd.transceive ≠ c.cmd.authent) (hk1 : k1.Ok c) (hk2 : k2.Ok c)
    (hx1 : x1.Ok c .transceive) (hx2 : x2.Ok c .transceive) (hack : replyAcked c (x1.reply c .transceive) = true)
    (blk : Nat) (data : List Byte) (r : Regs) :
    Gives c (writeProg c blk data r) (k1.answers ++ x1.answers .transceive ++ (k2.answers ++ x2.answers .transceive))
      { putReply r (x2.reply c .transceive) with
        status := .put (if replyAcked c (x2.reply c .transceive) then .ok else .genericError) } := by
  refine (gives_writePhase htrx hk1 hx1 _).bind ?_
  rw [if_pos hack]
  exact (gives_writePhase htrx hk2 hx2 _).bind_done _

/-- A READ ends in what the reply to its one phase decides (R259). -/
theorem gives_planRead (htrx : c.cmd.transceive ≠ c.cmd.authent) (hk : k.Ok c) (hx : x.Ok c .transceive) (blk : Nat)
    (r : Regs) :
    Gives c (planRead blk c r).prog (k.answers ++ x.answers .transceive) (readRegs c r (x.reply c .transceive)) := by
  rw [planRead_prog]
  exact (gives_writePhase htrx hk hx _).bind_done _

end Phases

/-! ### The replies of the scripts -/

/-- A level of one byte with four valid bits whose low nibble is 0x0A is an acknowledgement (R269). -/
theorem replyAcked_of_script (hs : c.source = {}) {x : DispatchScript} (hx : x.Ok c .transceive)
    (hlevel : levelOf c x.level = 1) (hbits : lastBitsOf c x.ctl = 4) (hack : x.fifo.headD 0 &&& 0x0F = 0x0A)
    (hstatus : timerStatus c c.mask.trxIrqEn x.stop = .ok ∨ c.policy.writeRequiresOk = false) :
    replyAcked c (x.reply c .transceive) = true := by
  obtain ⟨-, -, hfifo⟩ := hx
  have hone : x.fifo.length = 1 := by rw [hfifo, hlevel, byteCount, hs]; rfl
  have hhead : (padResp c x.fifo).headD 0 = x.fifo.headD 0 := by
    obtain ⟨b, hb⟩ := List.length_eq_one_iff.1 hone
    rw [hb]
    rfl
  refine (replyAcked_iff hs _).2 ⟨hstatus, ?_, ?_⟩
  · show bitCount (levelOf c x.level) (lastBitsOf c x.ctl) = 4
    rw [hlevel, hbits]
    rfl
  · show (padResp c x.fifo).headD 0 &&& 0x0F = 0x0A
    rw [hhead, hack]

/-- A readback of 16 bytes gives a read its data (R259). -/
theorem readOk_of_script (hs : c.source = {}) {x : DispatchScript} (hx : x.Ok c .transceive) (hlen : x.fifo.length = 16)
    (hstatus : timerStatus c c.mask.trxIrqEn x.stop = .ok ∨ c.policy.readRequiresOk = false) :
    readOk c (x.reply c .transceive) = true ∧ (x.reply c .transceive).resp.take 16 = x.fifo := by
  obtain ⟨-, -, hfifo⟩ := hx
  exact ⟨(readOk_iff hs _).2 ⟨hfifo.symm.trans hlen, hstatus⟩, List.take_left' hlen⟩

/-- Settles O46: both phases of the WRITE are acknowledged, and the READ's one phase gives back what the FIFO holds. -/
theorem writeThenReadRoundTrip : Obligations.WriteThenReadRoundTrip := by
  intro s blk data rest k1 k2 k3 x1 x2 x3 hready hblk hdata htrx hk1 hk2 hk3 hx1 hx2 hx3 hacks hstatus hecho hanswers
  have hs := source_of_legal hready.1
  have hack {x : DispatchScript} (hmem : x = x1 ∨ x = x2) (hx : x.Ok s.cfg .transceive) :
      replyAcked s.cfg (x.reply s.cfg .transceive) = true :=
    let ⟨hlevel, hbits, hbyte, hst⟩ := hacks x hmem
    replyAcked_of_script hs hx hlevel hbits hbyte hst
  have hwrite := gives_writeProg htrx hk1 hk2 hx1 hx2 (hack (.inl rfl) hx1) blk data s.regs
  rw [if_pos (hack (.inr rfl) hx2)] at hwrite
  obtain ⟨t, hexec, hreadyt, hcfg, hregs, hrest⟩ := exec_gives (i := .write blk (ints data)) hready
    (checkWrite_ints hs hblk hdata) (by simpa only [planOf, planWrite, toBytes_ints, Int.toNat_natCast] using hwrite)
    (hanswers.trans (List.append_assoc ..))
  obtain ⟨hok, htake⟩ := readOk_of_script hs hx3 (by rw [hecho, hdata]) hstatus
  have hread := gives_planRead htrx hk3 hx3 blk t.regs
  rw [readRegs, if_pos hok, htake, hecho, ← hcfg] at hread
  obtain ⟨u, hexec', -, -, hregs', hrest'⟩ := exec_gives (i := .read blk) hreadyt (checkBlk_natCast hblk) hread hrest
  exact ⟨t, u, hexec, by rw [hregs], hexec', by rw [hregs'], by rw [hregs'], hrest'⟩

end Sys2Proof.Machine
end

section
/-! SUPPORT. How an operation ends (60_exceptions.md R300 to R307, R320): rejected, with nothing but OUTCOME and for E_BUSY
VIOLATION written, or DONE, with the violation of its case at the start flagged and the session its results give it. -/

namespace Sys2Proof.Machine

variable {c : Params} {r : Regs}

/-! ### Rejections (R300, R306) -/

/-- Settles O13: only a BUSY block answers E_BUSY, which no operand check does (`planOf_not_busy`). -/
theorem rejectionWritesOnlyOutcome : Obligations.RejectionWritesOnlyOutcome := by
  intro i s t h
  obtain ⟨-, rfl⟩ := exec_next h
  rcases serve_cases (planOf i s.cfg s.regs) s with ⟨op, n, vs, -, heq⟩ | ⟨code, -, hr, heq⟩ | ⟨-, -, heq⟩ <;> rw [heq]
  · refine ⟨.inr ⟨_, rfl⟩, fun code hcode => ?_⟩
    cases hcode
    simp [rejectBusy]
  · have hnot : code ≠ .eBusy := fun hbusy => planOf_not_busy i s.cfg s.regs (hbusy ▸ hr)
    refine ⟨.inr ⟨code, rfl⟩, fun code' hcode => ?_⟩
    cases hcode
    simp [reject, hnot]
  · exact ⟨.inl rfl, fun code hcode => by cases hcode⟩

/-! ### Violations (R305) -/

theorem violatesDiscovery_iff : violatesDiscovery r = true ↔ r.session = .auth := decide_eq_true_iff

theorem violatesSelect_iff (uid : List Byte) :
    violatesSelect r uid = true ↔ r.session = .auth ∨ validUid uid = false := by
  simp [violatesSelect, violatesDiscovery_iff]

theorem violatesAuth_iff (uid : List Byte) :
    violatesAuth r uid = true ↔ r.session ≠ .selected ∨ validUid uid = false := by
  simp [violatesAuth]

/-- V3 under either AUTH_GRANULARITY (45_access.md R255). -/
theorem violatesAccess_iff (blk : Nat) :
    violatesAccess c r blk = true ↔ r.session ≠ .auth ∨ (c.policy.authGranularity = .block ∧ r.authBlk.value ≠ blk) ∨
      (c.policy.authGranularity = .sector ∧ r.authBlk.value / 4 ≠ blk / 4) := by
  rw [violatesAccess, authMatch]
  cases c.policy.authGranularity <;> simp

/-- An operation flags a violation in its case of V1 to V4 (R305). -/
theorem planOf_violates_iff (i : Instr) : (planOf i c r).violates = true ↔ violationCase c r i := by
  cases i with
  | reqidl | reqall | anticoll => exact violatesDiscovery_iff
  | select uid => exact violatesSelect_iff _
  | autha _ _ uid | authb _ _ uid | dumpa _ uid | dumpb _ uid => exact violatesAuth_iff _
  | read blk | write blk _ => exact violatesAccess_iff _
  | _ => exact Bool.false_eq_true.to_iff

/-- Settles O52: E_BUSY sets VIOLATION, another rejection keeps it, and an accepted operation adds what its plan flags. -/
theorem violationExactlyInItsCases : Obligations.ViolationExactlyInItsCases := by
  intro i s t h
  obtain ⟨-, rfl⟩ := exec_next h
  rcases serve_cases (planOf i s.cfg s.regs) s with ⟨op, n, vs, hp, heq⟩ | ⟨code, hp, -, heq⟩ | ⟨hp, -, heq⟩ <;> rw [heq, hp]
  · exact iff_of_true rfl (.inr (.inr (by simp)))
  · have hrejected : (Held.put (.rejected code) : Held OpOutcome) ≠ .put .done := by simp [Held.put]
    simp [hrejected]
  · have hdone : (complete (planOf i s.cfg s.regs) s).outcome = .put .done := rfl
    simp [hdone, planOf_violates_iff]

/-! ### The session (R320) -/

/-- An operation outside the rows of R320 ends with the SESSION and AUTH_BLK it began with. -/
theorem plan_keeps_session (hs : c.source = {}) {i : Instr} (h : mayChangeSession i = false) :
    (planOf i c r).prog.Ends fun r' => r'.session = r.session ∧ r'.authBlk = r.authBlk := by
  cases i with
  | select | autha | authb | stopcrypto | dumpa | dumpb => cases h
  | mkaddr | mkuid | mkkey | mkdata => exact ⟨rfl, rfl⟩
  | rdreg | wrreg | setbits | clrbits | calccrc | exec => exact ends_bind_any fun _ => ⟨rfl, rfl⟩
  | reqidl | reqall | anticoll => exact ends_bind_any fun _ => ends_bind_any fun _ => ⟨rfl, rfl⟩
  | read blk => exact ends_bind (readCore_leaves hs _ r) fun _ ⟨_, hkept⟩ => hkept
  | write blk data =>
    refine ends_bind_any fun d => ?_
    split
    · exact ends_bind_any fun _ => ⟨rfl, rfl⟩
    · exact ⟨rfl, rfl⟩

/-- SELECT ends SELECTED on OK and UNAUTH otherwise (44_discovery.md R233). -/
theorem selectProg_session (uid : List Byte) :
    (selectProg c uid r).Ends fun r' =>
      r'.session = (if r'.status.value = .ok then .selected else .unauth) ∧ r'.authBlk = r.authBlk := by
  refine ends_bind_any fun frame => ends_bind_any fun d => ⟨?_, rfl⟩
  cases selectOk c d <;> rfl

/-- AUTHA and AUTHB end in AUTH for their block on OK and UNAUTH otherwise (45_access.md R250). -/
theorem authProg_session (mode : Byte) (blk : Int) (key uid : List Int) :
    (authProg c mode blk key uid r).Ends fun r' =>
      if r'.status.value = .ok then r'.session = .auth ∧ r'.authBlk = .put blk.toNat
      else r'.session = .unauth ∧ r'.authBlk = r.authBlk := by
  simp only [authProg, authCore, bind_assoc, bind_done]
  refine ends_bind_any fun d => ends_bind_any fun s2 => ?_
  by_cases hok : authStatus c d.status s2 = .ok <;> simp [Prog.Ends, putAuth_session, putAuth_authBlk, hok]

/-- A dump ends as its authentication of block 63 does (45_access.md R290). -/
theorem dumpProg_session (hs : c.source = {}) (mode : Byte) (key uid : List Int) :
    (dumpProg c mode key uid r).Ends (SessionAfterAuth 63) := by
  rw [dumpProg, Config.numAddrs, List.range_succ]
  exact ends_bind (dumpBlocks_leaves hs mode _ _ (fun m hm => Nat.lt_succ_of_lt (List.mem_range.1 hm))
    (Nat.lt_succ_self 63) (slotsOk_dumpStart r)) fun _ ⟨_, hsession⟩ => hsession

/-- Settles O51: a rejection writes no register, and an accepted operation ends in what its program ends in. -/
theorem sessionTransitions : Obligations.SessionTransitions := by
  intro i s t h
  obtain ⟨hl, rfl⟩ := exec_next h
  have hs := source_of_legal hl
  rcases serve_cases (planOf i s.cfg s.regs) s with ⟨op, n, vs, -, heq⟩ | ⟨code, -, -, heq⟩ | ⟨-, -, heq⟩ <;> rw [heq]
  · exact ⟨fun _ => ⟨rfl, rfl⟩, fun hdone => by cases hdone⟩
  · exact ⟨fun _ => ⟨rfl, rfl⟩, fun hdone => by cases hdone⟩
  · refine ⟨fun hnot => absurd rfl hnot, fun _ => ?_⟩
    cases i with
    | select uid => exact ends_run (selectProg_session (toBytes uid)) s.cfg s.port s.work
    | autha blk key uid | authb blk key uid => exact ends_run (authProg_session _ blk key uid) s.cfg s.port s.work
    | stopcrypto => exact ⟨rfl, rfl⟩
    | dumpa key uid | dumpb key uid => exact ends_run (dumpProg_session hs _ key uid) s.cfg s.port s.work
    | _ => exact ends_run (plan_keeps_session hs rfl) s.cfg s.port s.work

end Sys2Proof.Machine
end

section
/-! SUPPORT. The reset event and the waiting of an IDLE block (70_reset_and_hazards.md R340, R341). -/

namespace Sys2Proof.Machine

/-- With a reset from the host, a step is `resetBlock`, whatever the phase. -/
theorem step_reset {s : State} {rest : List HostEvent} (hl : paramsLegal s.cfg = true) (hh : s.host = .reset :: rest) :
    step s = .next (resetBlock { s with host := rest }) :=
  (step_event hh).trans (guarded_legal (s := { s with host := rest }) hl _)

/-- A reset leaves every result register unwritten, as the reset row does (10_state.md R36). -/
theorem resultWritten_resetBlock (r : ResultReg) (s : State) : resultWritten r (resetBlock s) = false :=
  resultWritten_reset r

/-- Settles O10: the step is `resetBlock`, which reads neither the phase nor the results of an operation in progress. -/
theorem resetEventResets : Obligations.ResetEventResets := by
  intro s rest hl hh
  exact ⟨_, step_reset hl hh, rfl, rfl, rfl, rfl, rfl, fun r => resultWritten_resetBlock r _, rfl, rfl, rfl, rfl⟩

/-- Settles O11: a quiet step only advances, and an IDLE block has nothing to advance. -/
theorem idleBlockWaits : Obligations.IdleBlockWaits := by
  intro s ⟨hl, hidle⟩ hh
  rw [step_quiet hh, quietStep_legal hl, advance_idle hidle]

end Sys2Proof.Machine
end
